-- ==== Sys2Proof/Word.lean ====
section
/-! DEFINITION. The word types of MBF: bytes, the 16-bit halfword, the 32-bit host word (spec/00_scope.md R10). -/

namespace Sys2Proof

/-- A byte, 8 bits (R10). -/
abbrev Byte := BitVec 8

/-- A halfword here always means 16 bits (R10). -/
abbrev Half := BitVec 16

/-- A host register access, a command word: 32 bits (R21, R80). -/
abbrev Word := BitVec 32

end Sys2Proof
end

