-- ==== Sys2Proof/Config.lean ====
section
/-! DEFINITION. What is fixed for the machine (spec/00_scope.md R8), the types of its open parameters (R9) and its one
free value. -/

namespace Sys2Proof

/-- The direction of an RTU decode, the DIR bit (spec/42_rtu.md R173, R174): 0 a request, 1 a response. -/
inductive Dir where
  | req
  | rsp
deriving DecidableEq, Repr

/-- The width w of a count field, 1 or 2 bytes (spec/42_rtu.md R175). -/
inductive CountWidth where
  | one
  | two
deriving DecidableEq, Repr

/-- A length spec G (spec/42_rtu.md R175). -/
inductive LenSpec where
  /-- Fixed(n): the payload is exactly `n` bytes. -/
  | fixed (n : Nat)
  /-- Counted(k, w): `k` fixed bytes, a `w`-byte big-endian count N, then N bytes. -/
  | counted (k : Nat) (w : CountWidth)
  /-- Five fixed bytes, an object count, then that many (id, length, bytes) objects. -/
  | meiObjects
  /-- The function code cannot be delimited in this direction. -/
  | unsupported
deriving DecidableEq, Repr

/-- One row of an RTU length table: in direction `dir` the function codes `lo` to `hi` have the spec `len`. -/
structure LenRow where
  dir : Dir
  lo  : Byte
  hi  : Byte
  len : LenSpec
deriving DecidableEq, Repr

namespace Config

/-- MAX_MESSAGE_LENGTH (R8). -/
abbrev maxMessageLength : Nat := 256

/-- FBUF_SIZE = MAX_MESSAGE_LENGTH (R8). -/
abbrev fbufSize : Nat := 256

/-- MAX_CORE = MAX_MESSAGE_LENGTH - 2, the largest frame core (R8). -/
abbrev maxCore : Nat := 254

/-- The MBAP header length (R8). -/
abbrev mbapHeaderLength : Nat := 6

/-- The identification word "MBF1" (R2; spec/10_state.md R37). -/
def idWord : Word := 0x4D424631#32

/-- The capacity of the TX FIFO that `State.reset` names; DESIGN CHOICE (log 3): TX_DEPTH is open (R9).
No statement rests on it: the machine reads `State.txDepth`. Unsafe. -/
def resetTxDepth : Nat := 16

/-- The free value of a host read of an FBUF byte that nothing has written: any byte
(spec/60_exceptions.md R258; spec/93_implementation_defined.md U1), one for each power-up and index, so that reading
again returns the same (spec/20_memory.md R63). No body (log 5). Safe. -/
opaque freeByte (powerUp index : Nat) : Byte

end Config

end Sys2Proof
end

