-- ==== Sys2Proof/Syntax.lean ====
section
/-! DEFINITION. The 13 commands of spec/30_encoding.md R83, one constructor per row of spec/opcode_table.json. -/

namespace Sys2Proof

/-- A command with its operands (spec/30_encoding.md R81 to R83). START, LEN and TAIL are an FBUF index and byte
counts, unsigned numbers (R82), held as natural numbers and bounded by `WellFormed`; DATA is a byte. -/
inductive Instr where
  /-- NOP (spec/40_checksum.md R103). -/
  | nop
  /-- CRC.INIT (R104). -/
  | crcInit
  /-- CRC.BYTE d (R105). -/
  | crcByte (d : Byte)
  /-- CRC.RANGE s, n (R106). -/
  | crcRange (start len : Nat)
  /-- LRC.INIT (R107). -/
  | lrcInit
  /-- LRC.BYTE d (R108). -/
  | lrcByte (d : Byte)
  /-- LRC.RANGE s, n, t (R109). -/
  | lrcRange (start len tail : Nat)
  /-- TCP.ENC (spec/41_tcp.md R141). -/
  | tcpEnc
  /-- TCP.DEC (R142). -/
  | tcpDec
  /-- RTU.ENC (spec/42_rtu.md R171). -/
  | rtuEnc
  /-- RTU.DEC req, RTU.DEC rsp (R173). -/
  | rtuDec (dir : Dir)
  /-- ASCII.ENC (spec/43_ascii.md R211). -/
  | asciiEnc
  /-- ASCII.DEC (R213). -/
  | asciiDec
deriving DecidableEq, Repr

end Sys2Proof
end

