-- ==== Sys2Proof/WellFormed.lean ====
section
/-! DEFINITION. When a command's operands fit their fields (spec/30_encoding.md R81, R87). -/

namespace Sys2Proof

/-- An assembler refuses an operand that does not fit its field: s > 255, n > 511, t > 15 (R87).
A data byte d fits by its type. -/
def Instr.wellFormed : Instr → Bool
  | .nop => true
  | .crcInit => true
  | .crcByte _ => true
  | .crcRange start len => decide (start ≤ 255) && decide (len ≤ 511)
  | .lrcInit => true
  | .lrcByte _ => true
  | .lrcRange start len tail => decide (start ≤ 255) && decide (len ≤ 511) && decide (tail ≤ 15)
  | .tcpEnc => true
  | .tcpDec => true
  | .rtuEnc => true
  | .rtuDec _ => true
  | .asciiEnc => true
  | .asciiDec => true

/-- The command is well formed. -/
abbrev WellFormed (i : Instr) : Prop := i.wellFormed = true

end Sys2Proof
end

