-- ==== Sys2Proof/Decode.lean ====
section
/-! DEFINITION. The decoder and the encoder of command words (spec/30_encoding.md R80 to R84, R87).
A command word is one 32-bit register write, so there is no byte order and no rest of a stream (R80). -/

namespace Sys2Proof

/-- Why a word is illegal (spec/30_encoding.md R84). All three raise the one error ILLEGAL_CMD at issue (R85). -/
inductive Reject where
  /-- OP is 0xD, 0xE or 0xF. -/
  | reservedOpcode
  /-- A bit of [7:5] or [31:29] is 1. -/
  | reservedBit
  /-- A field the command does not use is non-zero. -/
  | unusedField
deriving DecidableEq, Repr

/-- A row of the opcode map (spec/30_encoding.md R83): a word matches when `(w & mask) = fixed`. -/
structure OpRow where
  mask  : Word
  fixed : Word
deriving DecidableEq, Repr

/-- `(w & mask) = match` (R83). -/
def OpRow.hits (r : OpRow) (w : Word) : Bool := w &&& r.mask == r.fixed

/-- The row of each command in the opcode map (R83). -/
def opRow : Instr → OpRow
  | .nop            => ⟨0xFFFFFFFF#32, 0x00000000#32⟩
  | .crcInit        => ⟨0xFFFFFFFF#32, 0x00000001#32⟩
  | .crcByte _      => ⟨0xFFFF00FF#32, 0x00000002#32⟩
  | .crcRange _ _   => ⟨0xFE0000FF#32, 0x00000003#32⟩
  | .lrcInit        => ⟨0xFFFFFFFF#32, 0x00000004#32⟩
  | .lrcByte _      => ⟨0xFFFF00FF#32, 0x00000005#32⟩
  | .lrcRange _ _ _ => ⟨0xE00000FF#32, 0x00000006#32⟩
  | .tcpEnc         => ⟨0xFFFFFFFF#32, 0x00000007#32⟩
  | .tcpDec         => ⟨0xFFFFFFFF#32, 0x00000008#32⟩
  | .rtuEnc         => ⟨0xFFFFFFFF#32, 0x00000009#32⟩
  | .rtuDec _       => ⟨0xFFFFFFEF#32, 0x0000000A#32⟩
  | .asciiEnc       => ⟨0xFFFFFFFF#32, 0x0000000B#32⟩
  | .asciiDec       => ⟨0xFFFFFFFF#32, 0x0000000C#32⟩

/-- The 13 rows of the opcode map, in its order (R83). -/
def opcodeTable : List OpRow :=
  [opRow .nop, opRow .crcInit, opRow (.crcByte 0), opRow (.crcRange 0 0), opRow .lrcInit, opRow (.lrcByte 0),
   opRow (.lrcRange 0 0 0), opRow .tcpEnc, opRow .tcpDec, opRow .rtuEnc, opRow (.rtuDec .req), opRow .asciiEnc,
   opRow .asciiDec]

/-! The fields of a command word (R81), each an unsigned number (R82). -/

/-- OP = w[3:0]. -/
def opField (w : Word) : BitVec 4 := w.extractLsb' 0 4

/-- DIR = w[4]. -/
def dirField (w : Word) : BitVec 1 := w.extractLsb' 4 1

/-- DATA = START = w[15:8]. -/
def dataField (w : Word) : Byte := w.extractLsb' 8 8

/-- LEN = w[24:16]. -/
def lenField (w : Word) : BitVec 9 := w.extractLsb' 16 9

/-- TAIL = w[28:25]. -/
def tailField (w : Word) : BitVec 4 := w.extractLsb' 25 4

/-- DIR = 0 decodes a request, 1 a response (R81). -/
def Dir.ofBit (b : BitVec 1) : Dir := if b = 1#1 then .rsp else .req

/-- The DIR bit of a direction (R81). -/
def Dir.toBit : Dir → BitVec 1
  | .req => 0#1
  | .rsp => 1#1

/-- The name of what makes a word that matches no row illegal (R84). -/
def rejectReason (w : Word) : Reject :=
  if 0xD ≤ (opField w).toNat then .reservedOpcode
  else if w &&& 0xE00000E0#32 ≠ 0#32 then .reservedBit
  else .unusedField

/-- `i` if the word matches the row of `i`, else why it does not. -/
def accept (w : Word) (i : Instr) : Except Reject Instr :=
  if (opRow i).hits w then .ok i else .error (rejectReason w)

/-- The command a word stands for, or why it is illegal (R82 to R84). OP picks the one row that can match. -/
def decode (w : Word) : Except Reject Instr :=
  match (opField w).toNat with
  | 0x0 => accept w .nop
  | 0x1 => accept w .crcInit
  | 0x2 => accept w (.crcByte (dataField w))
  | 0x3 => accept w (.crcRange (dataField w).toNat (lenField w).toNat)
  | 0x4 => accept w .lrcInit
  | 0x5 => accept w (.lrcByte (dataField w))
  | 0x6 => accept w (.lrcRange (dataField w).toNat (lenField w).toNat (tailField w).toNat)
  | 0x7 => accept w .tcpEnc
  | 0x8 => accept w .tcpDec
  | 0x9 => accept w .rtuEnc
  | 0xA => accept w (.rtuDec (Dir.ofBit (dirField w)))
  | 0xB => accept w .asciiEnc
  | 0xC => accept w .asciiDec
  | _   => .error (rejectReason w)

/-- The word of a command (R87). -/
def encode : Instr → Word
  | .nop => 0x00000000#32
  | .crcInit => 0x00000001#32
  | .crcByte d => 0x00000002#32 ||| d.setWidth 32 <<< 8
  | .crcRange start len => 0x00000003#32 ||| BitVec.ofNat 32 start <<< 8 ||| BitVec.ofNat 32 len <<< 16
  | .lrcInit => 0x00000004#32
  | .lrcByte d => 0x00000005#32 ||| d.setWidth 32 <<< 8
  | .lrcRange start len tail =>
      0x00000006#32 ||| BitVec.ofNat 32 start <<< 8 ||| BitVec.ofNat 32 len <<< 16 ||| BitVec.ofNat 32 tail <<< 25
  | .tcpEnc => 0x00000007#32
  | .tcpDec => 0x00000008#32
  | .rtuEnc => 0x00000009#32
  | .rtuDec dir => 0x0000000A#32 ||| dir.toBit.setWidth 32 <<< 4
  | .asciiEnc => 0x0000000B#32
  | .asciiDec => 0x0000000C#32

/-- The instruction the decoder reads from the word whose low `nbits` bits are those of `w` and whose other bits
are 0. There is one length, 32 bits (R80): a longer row is no command. -/
def decodeTableWord (nbits w : Nat) : Option Instr :=
  if nbits ≤ 32 then (decode (BitVec.ofNat 32 (w % 2 ^ nbits))).toOption else none

end Sys2Proof
end

