-- ==== Sys2Proof/Machine/LenTable.lean ====
section
/-! DEFINITION. The RTU payload-length table and its use (spec/42_rtu.md R175 to R180). -/

namespace Sys2Proof.Machine

/-- A row for one function code, both directions. -/
def lenRows (fc : Byte) (req rsp : LenSpec) : List LenRow :=
  [⟨.req, fc, fc, req⟩, ⟨.rsp, fc, fc, rsp⟩]

/-- RTU_LEN_TABLE, the default table (R176); the spec itself marks rows as general knowledge (log 4). -/
def defaultLenTable : List LenRow :=
  -- Read Coils, Read Input Discretes, Read Holding Registers, Read Input Registers
  lenRows 1 (.fixed 4) (.counted 0 .one) ++
  lenRows 2 (.fixed 4) (.counted 0 .one) ++
  lenRows 3 (.fixed 4) (.counted 0 .one) ++
  lenRows 4 (.fixed 4) (.counted 0 .one) ++
  -- Write Coil, Write Single Register
  lenRows 5 (.fixed 4) (.fixed 4) ++
  lenRows 6 (.fixed 4) (.fixed 4) ++
  -- Read Exception Status, Diagnostics, Comm Event Counter, Comm Event Log
  lenRows 7 (.fixed 0) (.fixed 1) ++
  lenRows 8 (.fixed 4) (.fixed 4) ++
  lenRows 11 (.fixed 0) (.fixed 4) ++
  lenRows 12 (.fixed 0) (.counted 0 .one) ++
  -- Write Multiple Coils, Write Multiple Registers, Report Slave ID
  lenRows 15 (.counted 4 .one) (.fixed 4) ++
  lenRows 16 (.counted 4 .one) (.fixed 4) ++
  lenRows 17 (.fixed 0) (.counted 0 .one) ++
  -- Read File Record, Write File Record
  lenRows 20 (.counted 0 .one) (.counted 0 .one) ++
  lenRows 21 (.counted 0 .one) (.counted 0 .one) ++
  -- Mask Write Register, Read/Write Multiple, Read FIFO Queue, Read Device ID (MEI)
  lenRows 22 (.fixed 6) (.fixed 6) ++
  lenRows 23 (.counted 8 .one) (.counted 0 .one) ++
  lenRows 24 (.fixed 2) (.counted 0 .two) ++
  lenRows 43 (.fixed 3) .meiObjects ++
  -- exception response (R179)
  [⟨.req, 0x80, 0xFF, .unsupported⟩, ⟨.rsp, 0x80, 0xFF, .fixed 1⟩]

/-- RTU_LEN_TABLE(dir, fc): the first row that holds, and Unsupported for any other function code (R176, R180). -/
def lookupLen (table : List LenRow) (dir : Dir) (fc : Byte) : LenSpec :=
  match table.find? (fun r => decide (r.dir = dir) && decide (r.lo.toNat ≤ fc.toNat) && decide (fc.toNat ≤ r.hi.toNat)) with
  | some r => r.len
  | none   => .unsupported

/-- `walk` of R177: the payload position after `m` more objects that start at `pos`, or none while the bytes
received do not determine it. -/
def walkObjects (body : List Byte) (pos : Nat) : Nat → Option Nat
  | 0 => some pos
  | m + 1 =>
    match body[pos + 1]? with
    | none => none
    | some l => walkObjects body (pos + 2 + l.toNat) m

/-- RequiredLen(G, body) (R177). The spec gives no clause for Unsupported and never asks for it; the model
answers none, DESIGN CHOICE (log 15). -/
def requiredLen : LenSpec → List Byte → Option Nat
  | .fixed n, _ => some n
  | .counted k .one, body =>
    match body[k]? with
    | none => none
    | some n => some (k + 1 + n.toNat)
  | .counted k .two, body =>
    match body[k]?, body[k + 1]? with
    | some hi, some lo => some (k + 2 + (hi ++ lo).toNat)
    | _, _ => none
  | .meiObjects, body =>
    match body[5]? with
    | none => none
    | some m => walkObjects body 6 m.toNat
  | .unsupported, _ => none

end Sys2Proof.Machine
end

