-- ==== Sys2Proof/Machine/State.lean ====
section
/-! DEFINITION. The state of MBF (spec/10_state.md R20 to R44), the reasons a step can stop, and the state after
reset. -/

namespace Sys2Proof.Machine

/-- STATUS.ERRCODE (spec/60_exceptions.md R250). Codes 8 to 15 are never produced and have no name here (log 17). -/
inductive ErrCode where
  | none
  | illegalCmd
  | range
  | length
  | unsupportedFc
  | overflow
  | crcMismatch
  | aborted
deriving DecidableEq, Repr

/-- PHASE: what the next block step does (spec/10_state.md R39). IDLE, INIT, and the phases that the command rules
name; a name that several commands use is one phase. -/
inductive Phase where
  | idle
  | init
  /-- CRC.RANGE, LRC.RANGE (spec/40_checksum.md R106, R109). -/
  | run
  /-- TCP.ENC, TCP.DEC (spec/41_tcp.md R141, R142). -/
  | hdr
  /-- TCP.ENC, TCP.DEC, RTU.DEC. -/
  | body
  /-- RTU.ENC (spec/42_rtu.md R171). -/
  | core
  /-- RTU.ENC, RTU.DEC. -/
  | crcLo
  /-- RTU.ENC, RTU.DEC. -/
  | crcHi
  /-- RTU.DEC, ASCII.DEC. -/
  | echo
  /-- RTU.DEC (R173). -/
  | unit
  /-- RTU.DEC (R173). -/
  | fc
  /-- ASCII.ENC (spec/43_ascii.md R211). -/
  | colon
  /-- ASCII.ENC, ASCII.DEC. -/
  | hi
  /-- ASCII.ENC, ASCII.DEC. -/
  | lo
  /-- ASCII.ENC. -/
  | lrcHi
  /-- ASCII.ENC. -/
  | lrcLo
  /-- ASCII.ENC. -/
  | cr
  /-- ASCII.ENC. -/
  | lf
  /-- ASCII.DEC (R213). -/
  | hunt
deriving DecidableEq, Repr

/-- One operation of a host program (spec/30_encoding.md R88, R89). An access has a width in bits and a byte address,
any number, so that a bad access can be written down (spec/20_memory.md R62, log 7). -/
inductive HostOp where
  /-- A read of `bits` bits at `addr`. -/
  | read (bits addr : Nat)
  /-- A write of `bits` bits at `addr`. -/
  | write (bits addr : Nat) (data : Word)
  /-- `WAIT`: repeat `RD STATUS` until bit 0 (BUSY) reads 0. -/
  | wait
deriving DecidableEq, Repr

/-- One turn of the schedule (spec/20_memory.md R65, R66): which agent takes the next step, and with what. -/
inductive Turn where
  /-- BLOCK: one step of the running command. -/
  | block
  /-- HOST: the next access of its program. -/
  | host
  /-- ENV: append one byte to RX. -/
  | envRx (b : Byte)
  /-- ENV: take the oldest byte of the TX FIFO onto the TX wire. -/
  | envTake
  /-- The hardware reset line (spec/70_reset_and_hazards.md R280; log 14). -/
  | hardReset
deriving DecidableEq, Repr

/-- FBUF (spec/10_state.md R38): the written bytes, as (index, byte) with the indices strictly rising; an index
that is not listed is unwritten and has no value (log 5). -/
abbrev Memory := List Host.Cell

/-- The state of the machine: the registers of R22 to R37, FBUF (R38), the hidden sequencer state (R39), the
streams (R41 to R43), the host's program (spec/30_encoding.md R88), the open parameters (spec/00_scope.md R9), and two
fields of the model's own. -/
structure State where
  /-- CTRL.IRQ_EN (R22). -/
  irqEn  : Bool
  /-- CTRL.ECHO_EN (R22). -/
  echoEn : Bool
  /-- CMD (R23). -/
  cmd : Word
  /-- STATUS.BUSY (R24). -/
  busy : Bool
  /-- STATUS.DONE (R24). -/
  done : Bool
  /-- STATUS.ERR (R24). -/
  err  : Bool
  /-- STATUS.OVR (R24). -/
  ovr  : Bool
  /-- STATUS.ERRCODE (R24). -/
  errCode : ErrCode
  /-- CRC (R25). -/
  crc : Half
  /-- LRC_ACC (R26). -/
  lrcAcc : Byte
  /-- FLEN (R28). -/
  flen : BitVec 9
  /-- MBAP_TID (R29). -/
  mbapTid : Half
  /-- MBAP_PID (R30). -/
  mbapPid : Half
  /-- MBAP_LEN (R31). -/
  mbapLen : Half
  /-- RX_CRC (R32). -/
  rxCrc : Half
  /-- GARBAGE_CNT (R33). -/
  garbageCnt : Half
  /-- SKIP_CNT (R34). -/
  skipCnt : Half
  /-- ECHO_PEND (R35). -/
  echoPend : Half
  /-- RX_COUNT (R36). -/
  rxCount : Half
  /-- TX_COUNT (R36). -/
  txCount : Half
  /-- FBUF (R38). -/
  fbuf : Memory
  /-- PHASE (R39). -/
  phase : Phase
  /-- L_OP (R39). -/
  lOp : BitVec 4
  /-- L_DIR (R39). -/
  lDir : BitVec 1
  /-- L_A (R39). -/
  lA : Byte
  /-- L_LEN (R39). -/
  lLen : BitVec 9
  /-- L_TAIL (R39). -/
  lTail : BitVec 4
  /-- L_ECHO (R39). -/
  lEcho : Bool
  /-- IDX (R39). -/
  idx : BitVec 9
  /-- CNT (R39). -/
  cnt : BitVec 9
  /-- H (R39). -/
  h : BitVec 3
  /-- NIB (R39). -/
  nib : BitVec 4
  /-- G (R39); `none` is its reset value, before any function code. -/
  g : Option LenSpec
  /-- The TX FIFO, oldest byte first (R41). -/
  txFifo : List Byte
  /-- The RX stream, oldest byte first (R42). -/
  rx : List Byte
  /-- The TX wire, oldest byte first (R43). -/
  txWire : List Byte
  /-- What HOST has still to do, next operation first (spec/30_encoding.md R88; log 23). -/
  prog : List HostOp
  /-- TX_DEPTH, an open parameter (spec/00_scope.md R9; log 3). No step changes it. -/
  txDepth : Nat
  /-- RTU_LEN_TABLE, an open parameter (R9; log 4). No step changes it. -/
  lenTable : List LenRow
  /-- The rest of the schedule, an open parameter (R9; log 2). -/
  sched : List Turn
  /-- The model's own: what the last host read returned, an FBUF byte in bits 7:0 (log 6). -/
  readData : Option Word
  /-- The model's own: how many hardware resets FBUF has lost its contents in; it picks the free values that unwritten
  FBUF bytes read as (log 5). -/
  powerUp : Nat
deriving DecidableEq, Repr

/-- Why a step stops. -/
inductive Fault where
  /-- FBUF_UNWRITTEN (spec/60_exceptions.md R258): a command step read the FBUF byte `i` that nothing has written
  since hardware reset. Raised by CRC.RANGE, LRC.RANGE and the encoders (and, in states no run reaches, by RTU.DEC
  and ASCII.DEC). Safe: the hardware reads some byte. -/
  | fbufUnwritten (i : Nat)
  /-- HOST_BAD_ACCESS (R258; spec/20_memory.md R62): a host access of the wrong width, misaligned, or above 0x1FF.
  Raised by the HOST turns of `step`. Safe: the hardware answers with a bus error and changes nothing. -/
  | hostBadAccess (bits addr : Nat)
  /-- The sequencer is in a state no rule gives a step for: the latches hold no legal command, PHASE is no phase of
  it, H is 6 or 7 in a header phase, or G is none in RTU.DEC's BODY. Raised by the command meanings and by `step`.
  No run from reset reaches it (log 8). Safe. -/
  | sequencerUndefined
  /-- A command step used the FBUF index `i` above 255, a byte that does not exist. Raised by the command meanings.
  No run from reset reaches it (log 9). Safe. -/
  | fbufNoSuchByte (i : Nat)
deriving DecidableEq, Repr

/-- No meaning. -/
inductive Refusal where
  /-- The command has no meaning in this model yet. Raised by `exec` only; no command is left so. Safe. -/
  | notModelled (mnemonic : String)
deriving DecidableEq, Repr

/-- What one step answers. -/
abbrev Out := Host.Outcome State Fault Refusal

/-- After a hardware reset, with nothing received, sent or scheduled (R44). -/
def State.reset : State where
  irqEn := false
  echoEn := false
  cmd := 0x00000000#32
  busy := false
  done := false
  err := false
  ovr := false
  errCode := .none
  crc := 0xFFFF#16
  lrcAcc := 0x00#8
  flen := 0#9
  mbapTid := 0x0000#16
  mbapPid := 0x0000#16
  mbapLen := 0x0000#16
  rxCrc := 0x0000#16
  garbageCnt := 0#16
  skipCnt := 0#16
  echoPend := 0#16
  rxCount := 0#16
  txCount := 0#16
  fbuf := []
  phase := .idle
  lOp := 0#4
  lDir := 0#1
  lA := 0#8
  lLen := 0#9
  lTail := 0#4
  lEcho := false
  idx := 0#9
  cnt := 0#9
  h := 0#3
  nib := 0#4
  g := none
  txFifo := []
  rx := []
  txWire := []
  prog := []
  txDepth := Config.resetTxDepth
  lenTable := defaultLenTable
  sched := []
  readData := none
  powerUp := 0

end Sys2Proof.Machine
end

