-- ==== Sys2Proof/Machine/Ops.lean ====
section
/-! DEFINITION. The primitives of spec/00_scope.md R11 over memory, the streams and the sequencer, the shared way a
command ends in an error, the two resets, the issue of a command and the fetch of the running one. -/

namespace Sys2Proof.Machine

/-! ## FBUF (spec/10_state.md R38) -/

/-- The byte at index `i`, none if it is unwritten. -/
def Memory.read : Memory → Nat → Option Byte
  | [], _ => none
  | (k, v) :: m, i => if k = i then some v else Memory.read m i

/-- FBUF with byte `i` written; the indices stay strictly rising. -/
def Memory.write : Memory → Nat → Byte → Memory
  | [], i, b => [(i, b)]
  | (k, v) :: m, i, b =>
    if i < k then (i, b) :: (k, v) :: m
    else if i = k then (i, b) :: m
    else (k, v) :: Memory.write m i b

/-- The canonical form: indices strictly rising, each below FBUF_SIZE. An unlisted index has no value, so no entry
can repeat it. -/
abbrev Memory.wf (m : Memory) : Prop :=
  List.Pairwise (fun a b : Host.Cell => a.1 < b.1) m ∧ ∀ c ∈ m, c.1 < Config.fbufSize

/-- The `n` bytes from index `i` on, or the first unwritten index among them. -/
def Memory.slice (m : Memory) (i : Nat) : Nat → Except Nat (List Byte)
  | 0 => .ok []
  | n + 1 =>
    match Memory.read m i with
    | none => .error i
    | some b =>
      match Memory.slice m (i + 1) n with
      | .ok bs => .ok (b :: bs)
      | .error j => .error j

/-- FBUF with the bytes `bs` written from index `i` on. -/
def Memory.writeAll (m : Memory) (i : Nat) : List Byte → Memory
  | [] => m
  | b :: bs => Memory.writeAll (Memory.write m i b) (i + 1) bs

/-! ## Counters (R11, spec/10_state.md R33 to R36) -/

/-- `sat16(n)` = min(n, 0xFFFF). -/
def sat16 (n : Nat) : Half := BitVec.ofNat 16 (min n 0xFFFF)

/-- A 16-bit counter after `k` more, saturating. -/
def satAdd (c : Half) (k : Nat) : Half := sat16 (c.toNat + k)

/-! ## How a command ends (R11) -/

/-- `complete()`: BUSY <- 0, DONE <- 1, PHASE <- IDLE. -/
def complete (s : State) : State := { s with busy := false, done := true, phase := .idle }

/-- `fail(code)`: BUSY <- 0, ERR <- 1, ERRCODE <- code, PHASE <- IDLE. This is the block's one way to end a command
in an error (spec/60_exceptions.md R250, R253): no control flow is diverted and nothing is saved (R259). -/
def fail (code : ErrCode) (s : State) : State := { s with busy := false, err := true, errCode := code, phase := .idle }

/-! ## The streams (R11) -/

/-- A step that calls RxPop(): it holds while RX is empty, and otherwise goes on with the oldest byte, which RX no
longer has and RX_COUNT counts. -/
def withRx (s : State) (act : Byte → State → Out) : Out :=
  match s.rx with
  | [] => .next s
  | b :: rest => act b { s with rx := rest, rxCount := satAdd s.rxCount 1 }

/-- RxDrain(): every byte RX holds is removed and counted. -/
def rxDrain (s : State) : State := { s with rx := [], rxCount := satAdd s.rxCount s.rx.length }

/-- A step that calls TxPush: it holds while the TX FIFO has no room. -/
def withTx (s : State) (act : State → Out) : Out :=
  if s.txFifo.length < s.txDepth then act s else .next s

/-- TxPush(b), in a step that has room for it. -/
def txPush (b : Byte) (s : State) : State :=
  { s with txFifo := s.txFifo ++ [b], txCount := satAdd s.txCount 1 }

/-- TxPushSerial(b) (spec/42_rtu.md R171, R172): TxPush(b), and one more echo byte pending when L_ECHO = 1. -/
def txPushSerial (b : Byte) (s : State) : State :=
  { txPush b s with echoPend := if s.lEcho then satAdd s.echoPend 1 else s.echoPend }

/-! ## FBUF bytes as a command step uses them (R11; spec/60_exceptions.md R258) -/

/-- FBUF[i] read by a command. -/
def withByte (i : Nat) (s : State) (act : Byte → Out) : Out :=
  if i < Config.fbufSize then
    match Memory.read s.fbuf i with
    | some b => act b
    | none => .fault (.fbufUnwritten i)
  else .fault (.fbufNoSuchByte i)

/-- FBUF[i] <- b by a command. -/
def storeByte (i : Nat) (b : Byte) (s : State) (act : State → Out) : Out :=
  if i < Config.fbufSize then act { s with fbuf := Memory.write s.fbuf i b } else .fault (.fbufNoSuchByte i)

/-- FBUF[i .. i+n-1] read by a command, as a list. -/
def withBytes (i n : Nat) (s : State) (act : List Byte → Out) : Out :=
  match Memory.slice s.fbuf i n with
  | .ok bs => act bs
  | .error j => .fault (.fbufUnwritten j)

/-! ## Reset and abort (spec/70_reset_and_hazards.md R280, R281; spec/60_exceptions.md R262) -/

/-- Hardware reset (R280): every register and hidden field at its reset value (spec/10_state.md R44), the TX FIFO
empty, FBUF unwritten (and so with new free values, log 5). RX is not touched. What the environment has taken, the
host's program, the open parameters, the rest of the schedule and the model's `readData` are not the block's and stay
(log 14). -/
def hardReset (s : State) : State :=
  { State.reset with
    rx := s.rx, txWire := s.txWire, prog := s.prog, txDepth := s.txDepth, lenTable := s.lenTable, sched := s.sched,
    readData := s.readData, powerUp := s.powerUp + 1 }

/-- Soft reset (R281): the hardware reset, except that FBUF keeps its contents. -/
def softReset (s : State) : State := { hardReset s with fbuf := s.fbuf, powerUp := s.powerUp }

/-- L_OP names a decoder: TCP.DEC, RTU.DEC or ASCII.DEC (spec/30_encoding.md R83). -/
def decoderLatched (s : State) : Bool := s.lOp == 0x8#4 || s.lOp == 0xA#4 || s.lOp == 0xC#4

/-- CTRL.ABORT (R262): a running command ends with ABORTED, a decoder with FLEN = 0 even before its INIT step (log 24);
while idle nothing. -/
def abort (s : State) : State :=
  if s.busy then { fail .aborted s with flen := if decoderLatched s then 0#9 else s.flen } else s

/-! ## Issue and fetch (spec/30_encoding.md R85) -/

/-- The issue of `w` while the block is not busy, R85's else branch: CMD <- w, then ILLEGAL_CMD or the latches. -/
def issue (w : Word) (s : State) : State :=
  match decode w with
  | .error _ => { s with cmd := w, done := false, err := true, errCode := .illegalCmd }
  | .ok _ =>
    { s with
      cmd := w, done := false, err := false, errCode := .none, rxCount := 0#16, txCount := 0#16,
      lOp := opField w, lDir := dirField w, lA := dataField w, lLen := lenField w, lTail := tailField w,
      lEcho := s.echoEn, busy := true, phase := .init }

/-- The command word the latches hold: each latched field in its place (R81), the reserved bits 0. -/
def latchedWord (s : State) : Word := 0#3 ++ s.lTail ++ s.lLen ++ s.lA ++ 0#3 ++ s.lDir ++ s.lOp

/-- What a block step finds. -/
inductive Fetched where
  /-- BUSY = 0: no block step is enabled (spec/20_memory.md R65). -/
  | idle
  /-- The running command, as the latches hold it. -/
  | run (i : Instr)
  /-- BUSY = 1 and the latches hold no legal command; no run from reset reaches it (log 8). -/
  | undefined
deriving DecidableEq, Repr

/-- The running command. The block runs from the latches of R39, not from CMD (log 11). -/
def fetch (s : State) : Fetched :=
  if s.busy then
    match decode (latchedWord s) with
    | .ok i => .run i
    | .error _ => .undefined
  else .idle

/-- Load the command word `w` where the next block step finds it: an issue, whether or not a command was running,
and the block's turn first in the schedule (log 22). -/
def loadCommand (w : Word) (s : State) : State :=
  { issue w { s with busy := false, phase := .idle } with sched := .block :: s.sched }

end Sys2Proof.Machine
end

