-- ==== Sys2Proof/Machine/Operands.lean ====
section
/-! DEFINITION. What the commands compute on their operands: the two checksums (spec/40_checksum.md R100 to R102),
the MBAP header bytes (spec/41_tcp.md R140), the hex digits (spec/43_ascii.md R212, R214). -/

namespace Sys2Proof.Machine

/-! ## Checksums -/

/-- One of the eight rounds of crcStep (R100). -/
def crcRound (c : Half) : Half :=
  if c.getLsbD 0 then (c >>> 1) ^^^ 0xA001#16 else c >>> 1

/-- `k` rounds. -/
def crcRounds : Nat → Half → Half
  | 0, c => c
  | k + 1, c => crcRounds k (crcRound c)

/-- crcStep(c, b) (R100; the parameters are the spec's own general knowledge, log 16). -/
def crcStep (c : Half) (b : Byte) : Half := crcRounds 8 (c ^^^ b.setWidth 16)

/-- CRC_INIT_VALUE (R100). -/
def crcInitValue : Half := 0xFFFF#16

/-- crc16(b_0 ... b_{n-1}) (R101). -/
def crc16 (bs : List Byte) : Half := bs.foldl crcStep crcInitValue

/-- The sum of bytes, modulo 256 (spec/10_state.md R26). -/
def byteSum (bs : List Byte) : Byte := bs.foldl (· + ·) 0#8

/-- The two's complement of an accumulated sum: (256 - a) mod 256 (spec/10_state.md R27). -/
def lrcOfSum (a : Byte) : Byte := BitVec.ofNat 8 ((256 - a.toNat) % 256)

/-- lrc(b_0 ... b_{n-1}) (R102). -/
def lrc (bs : List Byte) : Byte := lrcOfSum (byteSum bs)

/-- The LRC register (spec/10_state.md R27): computed, no storage. -/
def lrcReg (s : State) : Byte := lrcOfSum s.lrcAcc

/-- A 16-bit value's high byte, `v[15:8]`. -/
def hiByte (v : Half) : Byte := v.extractLsb' 8 8

/-- A 16-bit value's low byte, `v[7:0]`. -/
def loByte (v : Half) : Byte := v.extractLsb' 0 8

/-- `v` with `v[15:8] <- b`. -/
def setHiByte (v : Half) (b : Byte) : Half := b ++ loByte v

/-- `v` with `v[7:0] <- b`. -/
def setLoByte (v : Half) (b : Byte) : Half := hiByte v ++ b

/-! ## Lengths -/

/-- The encoders' bound on FLEN: 2 to MAX_CORE (spec/10_state.md R28; spec/41_tcp.md R144). -/
def coreLenOk (n : Nat) : Bool := decide (2 ≤ n) && decide (n ≤ Config.maxCore)

/-- START + LEN does not run past FBUF (spec/40_checksum.md R110, R111). -/
def rangeOk (start len : Nat) : Bool := decide (start + len ≤ Config.fbufSize)

/-! ## The MBAP header -/

/-- Byte `h` of the header TCP.ENC sends (spec/41_tcp.md R141); the protocol id is always 0. -/
def mbapHeaderByte (h : BitVec 3) (s : State) : Option Byte :=
  match h.toNat with
  | 0 => some (hiByte s.mbapTid)
  | 1 => some (loByte s.mbapTid)
  | 2 => some 0x00#8
  | 3 => some 0x00#8
  | 4 => some (hiByte s.mbapLen)
  | 5 => some (loByte s.mbapLen)
  | _ => none

/-- The state with byte `h` of a received header stored (R142). -/
def setMbapHeaderByte (h : BitVec 3) (b : Byte) (s : State) : Option State :=
  match h.toNat with
  | 0 => some { s with mbapTid := setHiByte s.mbapTid b }
  | 1 => some { s with mbapTid := setLoByte s.mbapTid b }
  | 2 => some { s with mbapPid := setHiByte s.mbapPid b }
  | 3 => some { s with mbapPid := setLoByte s.mbapPid b }
  | 4 => some { s with mbapLen := setHiByte s.mbapLen b }
  | 5 => some { s with mbapLen := setLoByte s.mbapLen b }
  | _ => none

/-! ## ASCII characters -/

/-- ':' the frame start (spec/43_ascii.md R214). -/
def chColon : Byte := 0x3A#8

/-- CR, a frame end (R214). -/
def chCR : Byte := 0x0D#8

/-- LF, a frame end (R214). -/
def chLF : Byte := 0x0A#8

/-- CR and LF each are a frame end (R214). -/
def isFrameEnd (c : Byte) : Bool := c == chCR || c == chLF

/-- hexU(v): the upper-case hex digit of `v` (R212). -/
def hexU (v : BitVec 4) : Byte :=
  if v.toNat < 10 then BitVec.ofNat 8 (0x30 + v.toNat) else BitVec.ofNat 8 (0x41 + (v.toNat - 10))

/-- hexVal(c): the value of a hex digit of either case, none for every other character (R212). -/
def hexVal (c : Byte) : Option (BitVec 4) :=
  if 0x30 ≤ c.toNat ∧ c.toNat ≤ 0x39 then some (BitVec.ofNat 4 (c.toNat - 0x30))
  else if 0x41 ≤ c.toNat ∧ c.toNat ≤ 0x46 then some (BitVec.ofNat 4 (c.toNat - 0x41 + 10))
  else if 0x61 ≤ c.toNat ∧ c.toNat ≤ 0x66 then some (BitVec.ofNat 4 (c.toNat - 0x61 + 10))
  else none

/-- A byte's high nibble, `b[7:4]`. -/
def hiNibble (b : Byte) : BitVec 4 := b.extractLsb' 4 4

/-- A byte's low nibble, `b[3:0]`. -/
def loNibble (b : Byte) : BitVec 4 := b.extractLsb' 0 4

end Sys2Proof.Machine
end

