-- ==== Sys2Proof/Machine/Flags.lean ====
section
/-! DEFINITION. STATUS and CTRL as the host sees them, the error codes' numbers and the IRQ line
(spec/10_state.md R22, R24; spec/60_exceptions.md R250, R260). -/

namespace Sys2Proof.Machine

/-- The number of an error code (R250). -/
def ErrCode.toBits : ErrCode → BitVec 4
  | .none          => 0#4
  | .illegalCmd    => 1#4
  | .range         => 2#4
  | .length        => 3#4
  | .unsupportedFc => 4#4
  | .overflow      => 5#4
  | .crcMismatch   => 6#4
  | .aborted       => 7#4

/-- The IRQ output: IRQ_EN & (DONE | ERR), a level (R260). -/
def irqLine (s : State) : Bool := s.irqEn && (s.done || s.err)

/-- One bit as a one-bit vector. -/
def bit (b : Bool) : BitVec 1 := BitVec.ofBool b

/-- STATUS as read: IRQ, ERRCODE, OVR, ERR, DONE, BUSY in bits 8 to 0 (R24). -/
def statusWord (s : State) : Word :=
  0#23 ++ bit (irqLine s) ++ s.errCode.toBits ++ bit s.ovr ++ bit s.err ++ bit s.done ++ bit s.busy

/-- CTRL as read: ECHO_EN and IRQ_EN in bits 1 and 0; ABORT and SRST read 0 (R22). -/
def ctrlWord (s : State) : Word := 0#30 ++ bit s.echoEn ++ bit s.irqEn

/-- A host write of STATUS: writing 1 to DONE, ERR or OVR clears it, and clearing ERR also clears ERRCODE (R24).
Accepted while busy too. -/
def writeStatus (v : Word) (s : State) : State :=
  { s with
    done := s.done && !v.getLsbD 1
    err := s.err && !v.getLsbD 2
    errCode := if v.getLsbD 2 then .none else s.errCode
    ovr := s.ovr && !v.getLsbD 3 }

/-- A host write of CTRL (R22): with SRST = 1 the soft reset only (spec/60_exceptions.md R255;
spec/70_reset_and_hazards.md R281); otherwise IRQ_EN and ECHO_EN are written and ABORT = 1 aborts (R262). -/
def writeCtrl (v : Word) (s : State) : State :=
  if v.getLsbD 3 then softReset s
  else
    let s1 := { s with irqEn := v.getLsbD 0, echoEn := v.getLsbD 1 }
    if v.getLsbD 2 then abort s1 else s1

end Sys2Proof.Machine
end

