-- ==== Sys2Proof/Machine/Ascii.lean ====
section
/-! DEFINITION. One block step of ASCII.ENC and ASCII.DEC (spec/43_ascii.md R211 to R221). -/

namespace Sys2Proof.Machine

/-- A step that pushes one character and goes on to `next`. -/
def pushChar (c : Byte) (next : Phase) (s : State) : Out :=
  withTx s fun s => .next { txPushSerial c s with phase := next }

/-- ASCII.ENC (R211): RX is not drained; the digits are upper case (R212). -/
def execAsciiEnc (s : State) : Out :=
  match s.phase with
  | .idle => .next s
  | .init =>
    if coreLenOk s.flen.toNat then .next { s with lrcAcc := 0x00#8, idx := 0#9, phase := .colon }
    else .next (fail .length s)
  | .colon => pushChar chColon .hi s
  | .hi => withTx s fun s => withByte s.idx.toNat s fun b =>
      .next { txPushSerial (hexU (hiNibble b)) s with phase := .lo }
  | .lo => withTx s fun s => withByte s.idx.toNat s fun b =>
      let s1 := { txPushSerial (hexU (loNibble b)) s with lrcAcc := s.lrcAcc + b, idx := s.idx + 1#9 }
      .next { s1 with phase := if s1.idx.toNat < s1.flen.toNat then .hi else .lrcHi }
  | .lrcHi => pushChar (hexU (hiNibble (lrcReg s))) .lrcLo s
  | .lrcLo => pushChar (hexU (loNibble (lrcReg s))) .cr s
  | .cr => pushChar chCR .lf s
  | .lf => withTx s fun s => .next (complete (txPushSerial chLF s))
  | _ => .fault .sequencerUndefined

/-- `restart` of R213: a frame starts. -/
def restartFrame (s : State) : State := { s with idx := 0#9, lrcAcc := 0x00#8, phase := .hi }

/-- `skip` of R213: a started frame is discarded and counted (R216). -/
def skipFrame (s : State) : State := { s with skipCnt := satAdd s.skipCnt 1 }

/-- ASCII.DEC (R213). It never ends in an error (R216, R220). -/
def execAsciiDec (s : State) : Out :=
  match s.phase with
  | .idle => .next s
  | .init => .next { s with flen := 0#9, phase := if 0 < s.echoPend.toNat then .echo else .hunt }
  | .echo => withRx s fun _ s =>
      let s1 := { s with echoPend := s.echoPend - 1#16 }
      .next (if s1.echoPend = 0#16 then { s1 with phase := .hunt } else s1)
  | .hunt => withRx s fun c s =>
      if c = chColon then .next (restartFrame s)
      else if isFrameEnd c then .next s
      else .next { s with garbageCnt := satAdd s.garbageCnt 1 }
  | .hi => withRx s fun c s =>
      if c = chColon then .next (restartFrame (skipFrame s))
      else if isFrameEnd c then
        if 3 ≤ s.idx.toNat ∧ s.lrcAcc = 0x00#8 then
          withByte (s.idx.toNat - 1) s fun b =>
            .next (complete { s with flen := s.idx - 1#9, lrcAcc := s.lrcAcc - b })
        else .next { skipFrame s with phase := .hunt }
      else
        match hexVal c with
        | some v => .next { s with nib := v, phase := .lo }
        | none => .next { skipFrame s with phase := .hunt }
  | .lo => withRx s fun c s =>
      if c = chColon then .next (restartFrame (skipFrame s))
      else
        match hexVal c with
        | none => .next { skipFrame s with phase := .hunt }
        | some v =>
          let byte : Byte := s.nib ++ v
          if s.idx.toNat = Config.maxCore + 1 then .next { skipFrame s with phase := .hunt }
          else storeByte s.idx.toNat byte s fun s =>
            .next { s with idx := s.idx + 1#9, lrcAcc := s.lrcAcc + byte, phase := .hi }
  | _ => .fault .sequencerUndefined

end Sys2Proof.Machine
end

