-- ==== Sys2Proof/Machine/Checksum.lean ====
section
/-! DEFINITION. One block step of NOP and of the checksum commands (spec/40_checksum.md R103 to R111). In phase IDLE
no step is enabled and the state stays (spec/30_encoding.md R86; log 10). -/

namespace Sys2Proof.Machine

/-- NOP (R103). -/
def execNop (s : State) : Out :=
  match s.phase with
  | .idle => .next s
  | .init => .next (complete s)
  | _ => .fault .sequencerUndefined

/-- CRC.INIT (R104). -/
def execCrcInit (s : State) : Out :=
  match s.phase with
  | .idle => .next s
  | .init => .next (complete { s with crc := crcInitValue })
  | _ => .fault .sequencerUndefined

/-- CRC.BYTE d (R105). -/
def execCrcByte (d : Byte) (s : State) : Out :=
  match s.phase with
  | .idle => .next s
  | .init => .next (complete { s with crc := crcStep s.crc d })
  | _ => .fault .sequencerUndefined

/-- CRC.RANGE s, n (R106, R111). -/
def execCrcRange (start len : Nat) (s : State) : Out :=
  match s.phase with
  | .idle => .next s
  | .init =>
    if rangeOk start len then
      .next { s with crc := crcInitValue, idx := BitVec.ofNat 9 start, cnt := BitVec.ofNat 9 len, phase := .run }
    else .next (fail .range s)
  | .run =>
    if s.cnt = 0#9 then .next (complete s)
    else withByte s.idx.toNat s fun b =>
      .next { s with crc := crcStep s.crc b, idx := s.idx + 1#9, cnt := s.cnt - 1#9 }
  | _ => .fault .sequencerUndefined

/-- LRC.INIT (R107). -/
def execLrcInit (s : State) : Out :=
  match s.phase with
  | .idle => .next s
  | .init => .next (complete { s with lrcAcc := 0x00#8 })
  | _ => .fault .sequencerUndefined

/-- LRC.BYTE d (R108). -/
def execLrcByte (d : Byte) (s : State) : Out :=
  match s.phase with
  | .idle => .next s
  | .init => .next (complete { s with lrcAcc := s.lrcAcc + d })
  | _ => .fault .sequencerUndefined

/-- LRC.RANGE s, n, t (R109, R111): the last `tail` of the `len` bytes are not read. -/
def execLrcRange (start len tail : Nat) (s : State) : Out :=
  match s.phase with
  | .idle => .next s
  | .init =>
    if rangeOk start len && decide (tail ≤ len) then
      .next { s with lrcAcc := 0x00#8, idx := BitVec.ofNat 9 start, cnt := BitVec.ofNat 9 (len - tail), phase := .run }
    else .next (fail .range s)
  | .run =>
    if s.cnt = 0#9 then .next (complete s)
    else withByte s.idx.toNat s fun b =>
      .next { s with lrcAcc := s.lrcAcc + b, idx := s.idx + 1#9, cnt := s.cnt - 1#9 }
  | _ => .fault .sequencerUndefined

end Sys2Proof.Machine
end

