-- ==== Sys2Proof/Machine/Rtu.lean ====
section
/-! DEFINITION. One block step of RTU.ENC and RTU.DEC (spec/42_rtu.md R171 to R186). -/

namespace Sys2Proof.Machine

/-- RTU.ENC (R171): INIT drains RX and clears ECHO_PEND (R185). -/
def execRtuEnc (s : State) : Out :=
  match s.phase with
  | .idle => .next s
  | .init =>
    if coreLenOk s.flen.toNat then
      .next { rxDrain s with echoPend := 0#16, crc := crcInitValue, idx := 0#9, phase := .core }
    else .next (fail .length s)
  | .core => withTx s fun s => withByte s.idx.toNat s fun b =>
      let s1 := { txPushSerial b s with crc := crcStep s.crc b, idx := s.idx + 1#9 }
      .next (if s1.idx = s1.flen then { s1 with phase := .crcLo } else s1)
  | .crcLo => withTx s fun s => .next { txPushSerial (loByte s.crc) s with phase := .crcHi }
  | .crcHi => withTx s fun s => .next (complete (txPushSerial (hiByte s.crc) s))
  | _ => .fault .sequencerUndefined

/-- Every RTU.DEC error drains RX first (R182). -/
def drainFail (code : ErrCode) (s : State) : State := fail code (rxDrain s)

/-- RTU.DEC req, RTU.DEC rsp (R173): the payload ends exactly when RequiredLen is its length (R178). -/
def execRtuDec (dir : Dir) (s : State) : Out :=
  match s.phase with
  | .idle => .next s
  | .init =>
    .next { s with
      flen := 0#9, crc := crcInitValue, idx := 0#9, phase := if 0 < s.echoPend.toNat then .echo else .unit }
  | .echo => withRx s fun _ s =>
      let s1 := { s with echoPend := s.echoPend - 1#16 }
      .next (if s1.echoPend = 0#16 then { s1 with phase := .unit } else s1)
  | .unit => withRx s fun b s => storeByte 0 b s fun s =>
      .next { s with crc := crcStep s.crc b, idx := 1#9, phase := .fc }
  | .fc => withRx s fun b s => storeByte 1 b s fun s =>
      let spec := lookupLen s.lenTable dir b
      let s1 := { s with crc := crcStep s.crc b, idx := 2#9, g := some spec }
      .next (
        if spec = .unsupported then drainFail .unsupportedFc s1
        else if requiredLen spec [] = some 0 then { s1 with phase := .crcLo }
        else { s1 with phase := .body })
  | .body => withRx s fun b s =>
      if s.idx.toNat = Config.maxCore then .next (drainFail .overflow s)
      else storeByte s.idx.toNat b s fun s =>
        let s1 := { s with crc := crcStep s.crc b, idx := s.idx + 1#9 }
        match s1.g with
        | none => .fault .sequencerUndefined
        | some spec => withBytes 2 (s1.idx.toNat - 2) s1 fun body =>
          .next (if requiredLen spec body = some (s1.idx.toNat - 2) then { s1 with phase := .crcLo } else s1)
  | .crcLo => withRx s fun b s => .next { s with rxCrc := setLoByte s.rxCrc b, phase := .crcHi }
  | .crcHi => withRx s fun b s =>
      let s1 := { s with rxCrc := setHiByte s.rxCrc b }
      .next (if s1.rxCrc = s1.crc then complete { s1 with flen := s1.idx } else drainFail .crcMismatch s1)
  | _ => .fault .sequencerUndefined

end Sys2Proof.Machine
end

