-- ==== Sys2Proof/Machine/Tcp.lean ====
section
/-! DEFINITION. One block step of TCP.ENC and TCP.DEC (spec/41_tcp.md R141 to R147). -/

namespace Sys2Proof.Machine

/-- TCP.ENC (R141). Room in the TX FIFO is what enables a pushing step, so it is asked before FBUF is read
(spec/00_scope.md R11; log 18). -/
def execTcpEnc (s : State) : Out :=
  match s.phase with
  | .idle => .next s
  | .init =>
    if coreLenOk s.flen.toNat then .next { s with mbapLen := s.flen.setWidth 16, h := 0#3, phase := .hdr }
    else .next (fail .length s)
  | .hdr => withTx s fun s =>
    match mbapHeaderByte s.h s with
    | none => .fault .sequencerUndefined
    | some b =>
      let s1 := { txPush b s with h := s.h + 1#3 }
      .next (if s1.h = 6#3 then { s1 with idx := 0#9, phase := .body } else s1)
  | .body => withTx s fun s => withByte s.idx.toNat s fun b =>
      let s1 := { txPush b s with idx := s.idx + 1#9 }
      .next (if s1.idx = s1.flen then complete s1 else s1)
  | _ => .fault .sequencerUndefined

/-- TCP.DEC (R142): the protocol id is stored and not checked (R145), a bad length field ends the command and drains
nothing (R144, R146). -/
def execTcpDec (s : State) : Out :=
  match s.phase with
  | .idle => .next s
  | .init => .next { s with flen := 0#9, h := 0#3, phase := .hdr }
  | .hdr => withRx s fun b s =>
    match setMbapHeaderByte s.h b s with
    | none => .fault .sequencerUndefined
    | some s1 =>
      let s2 := { s1 with h := s1.h + 1#3 }
      .next (
        if s2.h = 6#3 then
          if coreLenOk s2.mbapLen.toNat then { s2 with idx := 0#9, phase := .body } else fail .length s2
        else s2)
  | .body => withRx s fun b s => storeByte s.idx.toNat b s fun s =>
      let s1 := { s with idx := s.idx + 1#9 }
      .next (if s1.idx.toNat = s1.mbapLen.toNat then complete { s1 with flen := s1.idx } else s1)
  | _ => .fault .sequencerUndefined

end Sys2Proof.Machine
end

