-- ==== Sys2Proof/Machine/Dispatch.lean ====
section
/-! DEFINITION. The meaning of each command: one block step of it (spec/00_scope.md R12). -/

namespace Sys2Proof.Machine

def exec (i : Instr) (s : State) : Host.Outcome State Fault Refusal :=
  match i with
  | .nop => Sys2Proof.Machine.execNop s
  | .crcInit => Sys2Proof.Machine.execCrcInit s
  | .crcByte d => Sys2Proof.Machine.execCrcByte d s
  | .crcRange start len => Sys2Proof.Machine.execCrcRange start len s
  | .lrcInit => Sys2Proof.Machine.execLrcInit s
  | .lrcByte d => Sys2Proof.Machine.execLrcByte d s
  | .lrcRange start len tail => Sys2Proof.Machine.execLrcRange start len tail s
  | .tcpEnc => Sys2Proof.Machine.execTcpEnc s
  | .tcpDec => Sys2Proof.Machine.execTcpDec s
  | .rtuEnc => Sys2Proof.Machine.execRtuEnc s
  | .rtuDec dir => Sys2Proof.Machine.execRtuDec dir s
  | .asciiEnc => Sys2Proof.Machine.execAsciiEnc s
  | .asciiDec => Sys2Proof.Machine.execAsciiDec s

end Sys2Proof.Machine
end

