-- ==== Sys2Proof/Machine/HostBus.lean ====
section
/-! DEFINITION. The host's register map and accesses (spec/20_memory.md R60 to R63; spec/10_state.md R21 to R38;
spec/60_exceptions.md R256), and HOST's and the environment's steps
(R65, R66). -/

namespace Sys2Proof.Machine

/-- The registers of the host address map (R61). -/
inductive HostReg where
  | ctrl
  | cmd
  | status
  | crc
  | lrcAcc
  | lrc
  | flen
  | mbapTid
  | mbapPid
  | mbapLen
  | rxCrc
  | garbageCnt
  | skipCnt
  | echoPend
  | rxCount
  | txCount
  | id
deriving DecidableEq, Repr

/-- A register's address (R61). -/
def HostReg.addr : HostReg → Nat
  | .ctrl       => 0x000
  | .cmd        => 0x004
  | .status     => 0x008
  | .crc        => 0x00C
  | .lrcAcc     => 0x010
  | .lrc        => 0x014
  | .flen       => 0x018
  | .mbapTid    => 0x01C
  | .mbapPid    => 0x020
  | .mbapLen    => 0x024
  | .rxCrc      => 0x028
  | .garbageCnt => 0x02C
  | .skipCnt    => 0x030
  | .echoPend   => 0x034
  | .rxCount    => 0x038
  | .txCount    => 0x03C
  | .id         => 0x040

/-- The registers in the order of the map. -/
def hostRegs : List HostReg :=
  [.ctrl, .cmd, .status, .crc, .lrcAcc, .lrc, .flen, .mbapTid, .mbapPid, .mbapLen, .rxCrc, .garbageCnt, .skipCnt,
   .echoPend, .rxCount, .txCount, .id]

/-- What a legal access reaches. -/
inductive HostTarget where
  | reg (r : HostReg)
  /-- 0x044 to 0x0FF: reads 0, writes ignored (R61). -/
  | reserved
  | fbuf (i : Nat)
deriving DecidableEq, Repr

/-- What an access of `bits` bits at `addr` reaches, none if it is a bad access (R61, R62): a register access is 32
bits at a multiple of 4, an FBUF access is 8 bits, and nothing lies above 0x1FF. -/
def hostTarget (bits addr : Nat) : Option HostTarget :=
  if addr < 0x100 then
    if bits = 32 ∧ addr % 4 = 0 then
      match hostRegs.find? (fun r => r.addr == addr) with
      | some r => some (.reg r)
      | none => some .reserved
    else none
  else if addr ≤ 0x1FF then
    if bits = 8 then some (.fbuf (addr - 0x100)) else none
  else none

/-- A register as read (R22 to R37); unnamed bits read 0 (R21). -/
def readReg (r : HostReg) (s : State) : Word :=
  match r with
  | .ctrl       => ctrlWord s
  | .cmd        => s.cmd
  | .status     => statusWord s
  | .crc        => s.crc.setWidth 32
  | .lrcAcc     => s.lrcAcc.setWidth 32
  | .lrc        => (lrcReg s).setWidth 32
  | .flen       => s.flen.setWidth 32
  | .mbapTid    => s.mbapTid.setWidth 32
  | .mbapPid    => s.mbapPid.setWidth 32
  | .mbapLen    => s.mbapLen.setWidth 32
  | .rxCrc      => s.rxCrc.setWidth 32
  | .garbageCnt => s.garbageCnt.setWidth 32
  | .skipCnt    => s.skipCnt.setWidth 32
  | .echoPend   => s.echoPend.setWidth 32
  | .rxCount    => s.rxCount.setWidth 32
  | .txCount    => s.txCount.setWidth 32
  | .id         => Config.idWord

/-- A write that a running command drops, setting OVR (R21; spec/60_exceptions.md R256). -/
def unlessBusy (s : State) (act : State → State) : State :=
  if s.busy then { s with ovr := true } else act s

/-- A register written (R22 to R37). Writes to read-only registers are ignored and do not set OVR (R21). -/
def writeReg (r : HostReg) (v : Word) (s : State) : State :=
  match r with
  | .ctrl       => writeCtrl v s
  | .cmd        => unlessBusy s (issue v)
  | .status     => writeStatus v s
  | .crc        => unlessBusy s fun s => { s with crc := v.setWidth 16 }
  | .lrcAcc     => unlessBusy s fun s => { s with lrcAcc := v.setWidth 8 }
  | .lrc        => s
  | .flen       => unlessBusy s fun s => { s with flen := v.setWidth 9 }
  | .mbapTid    => unlessBusy s fun s => { s with mbapTid := v.setWidth 16 }
  | .mbapPid    => s
  | .mbapLen    => s
  | .rxCrc      => s
  | .garbageCnt => unlessBusy s fun s => { s with garbageCnt := 0#16 }
  | .skipCnt    => unlessBusy s fun s => { s with skipCnt := 0#16 }
  | .echoPend   => unlessBusy s fun s => { s with echoPend := 0#16 }
  | .rxCount    => s
  | .txCount    => s
  | .id         => s

/-- A host read (R62, R63). The word it returns is kept in the model's `readData`; nothing of the block changes. An
unwritten FBUF byte reads as a free value, the same at every read (spec/60_exceptions.md R258; log 5), and a read while
busy returns the value of the moment (spec/70_reset_and_hazards.md R291; log 13). -/
def hostRead (bits addr : Nat) (s : State) : Out :=
  match hostTarget bits addr with
  | none => .fault (.hostBadAccess bits addr)
  | some (.reg r) => .next { s with readData := some (readReg r s) }
  | some .reserved => .next { s with readData := some 0#32 }
  | some (.fbuf i) =>
    match Memory.read s.fbuf i with
    | some b => .next { s with readData := some (b.setWidth 32) }
    | none => .next { s with readData := some ((Config.freeByte s.powerUp i).setWidth 32) }

/-- A host write (R62, R63). An 8-bit write carries its byte in bits 7:0 of `data` (log 6). -/
def hostWrite (bits addr : Nat) (data : Word) (s : State) : Out :=
  match hostTarget bits addr with
  | none => .fault (.hostBadAccess bits addr)
  | some (.reg r) => .next (writeReg r data s)
  | some .reserved => .next s
  | some (.fbuf i) => .next (unlessBusy s fun s => { s with fbuf := Memory.write s.fbuf i (data.setWidth 8) })

/-- One poll of `WAIT` (spec/30_encoding.md R89), the last when bit 0 of STATUS reads 0: then the program goes on with
`ops`, and otherwise it stays where it is. -/
def waitPoll (ops : List HostOp) (s : State) : State :=
  { s with
    readData := some (readReg .status s), prog := if (readReg .status s).getLsbD 0 then s.prog else ops }

/-- HOST's step (R65): the next access of its program. With its program done the turn changes nothing (log 10). -/
def hostTurn (s : State) : Out :=
  match s.prog with
  | [] => .next s
  | .read bits addr :: ops => hostRead bits addr { s with prog := ops }
  | .write bits addr data :: ops => hostWrite bits addr data { s with prog := ops }
  | .wait :: ops => .next (waitPoll ops s)

/-- The environment appends a byte to RX (R65; spec/10_state.md R42). -/
def envRx (b : Byte) (s : State) : State := { s with rx := s.rx ++ [b] }

/-- The environment takes the oldest byte of the TX FIFO onto the TX wire (R65; spec/10_state.md R43). With nothing to
take the turn changes nothing (log 10). -/
def envTake (s : State) : State :=
  match s.txFifo with
  | [] => s
  | b :: rest => { s with txFifo := rest, txWire := s.txWire ++ [b] }

end Sys2Proof.Machine
end

