-- ==== Sys2Proof/Machine/Step.lean ====
section
/-! DEFINITION. One step of the machine: one atomic transition of one agent (spec/00_scope.md R12;
spec/20_memory.md R65). -/

namespace Sys2Proof.Machine

/-- The block's turn: one step of the running command, nothing when idle (R65; spec/30_encoding.md R86). -/
def blockTurn (s : State) : Host.Outcome State Fault Refusal :=
  match fetch s with
  | .idle => .next s
  | .run i => exec i s
  | .undefined => .fault .sequencerUndefined

/-- The step of the agent whose turn it is. -/
def agentTurn (t : Turn) (s : State) : Host.Outcome State Fault Refusal :=
  match t with
  | .block => blockTurn s
  | .host => hostTurn s
  | .envRx b => .next (envRx b s)
  | .envTake => .next (envTake s)
  | .hardReset => .next (hardReset s)

/-- One step: the schedule's next turn, or the block's when the schedule is used up (log 2). -/
def step (s : State) : Host.Outcome State Fault Refusal :=
  match s.sched with
  | [] => blockTurn s
  | t :: rest => agentTurn t { s with sched := rest }

/-- `s` with the command word (the low `nbits` bits of `w`) loaded and the block's turn next, so that `step` runs
exactly that command's first step (log 22). -/
def State.withFetchWord (s : State) (nbits w : Nat) : State :=
  loadCommand (BitVec.ofNat 32 (w % 2 ^ nbits)) s

end Sys2Proof.Machine
end

