-- ==== Sys2Proof/Machine/Assembler.lean ====
section
/-! DEFINITION. The command syntax and the host operations of spec/30_encoding.md R87 to R89, as functions to command
words and to host programs. -/

namespace Sys2Proof.Machine

/-- An operand as written: a number, or `req` or `rsp` (R87). -/
inductive AsmOperand where
  | num (n : Nat)
  | req
  | rsp
deriving DecidableEq, Repr

/-- A command's mnemonic (R83, R87). -/
def mnemonic : Instr → String
  | .nop            => "NOP"
  | .crcInit        => "CRC.INIT"
  | .crcByte _      => "CRC.BYTE"
  | .crcRange _ _   => "CRC.RANGE"
  | .lrcInit        => "LRC.INIT"
  | .lrcByte _      => "LRC.BYTE"
  | .lrcRange _ _ _ => "LRC.RANGE"
  | .tcpEnc         => "TCP.ENC"
  | .tcpDec         => "TCP.DEC"
  | .rtuEnc         => "RTU.ENC"
  | .rtuDec _       => "RTU.DEC"
  | .asciiEnc       => "ASCII.ENC"
  | .asciiDec       => "ASCII.DEC"

/-- A command's operands as written (R87); LRC.RANGE is written with its three operands. -/
def operands : Instr → List AsmOperand
  | .crcByte d => [.num d.toNat]
  | .crcRange s n => [.num s, .num n]
  | .lrcByte d => [.num d.toNat]
  | .lrcRange s n t => [.num s, .num n, .num t]
  | .rtuDec .req => [.req]
  | .rtuDec .rsp => [.rsp]
  | .nop | .crcInit | .lrcInit | .tcpEnc | .tcpDec | .rtuEnc | .asciiEnc | .asciiDec => []

/-- The command of a DATA operand, refused when it does not fit its 8 bits (R87). -/
def dataCommand (mk : Byte → Instr) (d : Nat) : Option Instr :=
  if d ≤ 255 then some (mk (BitVec.ofNat 8 d)) else none

/-- The command written by a mnemonic and operands; `t` of LRC.RANGE defaults to 0 (R87). -/
def parseCommand (name : String) (ops : List AsmOperand) : Option Instr :=
  match ops with
  | [] =>
    [Instr.nop, .crcInit, .lrcInit, .tcpEnc, .tcpDec, .rtuEnc, .asciiEnc, .asciiDec].find? (fun i => mnemonic i == name)
  | [.num a] =>
    if name == "CRC.BYTE" then dataCommand .crcByte a
    else if name == "LRC.BYTE" then dataCommand .lrcByte a
    else none
  | [.num a, .num b] =>
    if name == "CRC.RANGE" then some (.crcRange a b)
    else if name == "LRC.RANGE" then some (.lrcRange a b 0)
    else none
  | [.num a, .num b, .num c] => if name == "LRC.RANGE" then some (.lrcRange a b c) else none
  | [.req] => if name == "RTU.DEC" then some (.rtuDec .req) else none
  | [.rsp] => if name == "RTU.DEC" then some (.rtuDec .rsp) else none
  | _ => none

/-- The word of a written command, none where an assembler refuses it (R87). -/
def assemble (name : String) (ops : List AsmOperand) : Option Word :=
  match parseCommand name ops with
  | some i => if i.wellFormed then some (encode i) else none
  | none => none

/-! ## Host operations (R88) and pseudo-operations (R89) -/

/-- `WR reg, v`. -/
def wr (r : HostReg) (v : Word) : HostOp := .write 32 r.addr v

/-- `RD reg`. -/
def rd (r : HostReg) : HostOp := .read 32 r.addr

/-- `WRB i, b`. -/
def wrb (i : Nat) (b : Byte) : HostOp := .write 8 (0x100 + i) (b.setWidth 32)

/-- `RDB i`. -/
def rdb (i : Nat) : HostOp := .read 8 (0x100 + i)

/-- `CMD <command>`. -/
def cmd (i : Instr) : HostOp := wr .cmd (encode i)

/-- The writes `WRB i, b0`, `WRB i+1, b1`, … -/
def wrbs (i : Nat) : List Byte → List HostOp
  | [] => []
  | b :: bs => wrb i b :: wrbs (i + 1) bs

/-- `LOADF b0 b1 …`. -/
def loadF (bs : List Byte) : List HostOp := wrbs 0 bs ++ [wr .flen (BitVec.ofNat 32 bs.length)]

/-- `CLR`: clears DONE, ERR and OVR. -/
def clr : HostOp := wr .status 0x0000000E#32

/-- `CRC.FRAME n`. -/
def crcFrame (n : Nat) : HostOp := cmd (.crcRange 0 n)

/-- `RUN <command>`: `CMD <command>` then `WAIT`. -/
def run (i : Instr) : List HostOp := [cmd i, .wait]

/-- The environment line `RX <bytes>`, as turns of the schedule. -/
def rxBytes (bs : List Byte) : List Turn := bs.map .envRx

end Sys2Proof.Machine
end

