-- ==== Sys2Proof/Safety.lean ====
section
/-! DEFINITION. The terms claims use: the three frames, runs of one command, and the invariant of the machine. -/

namespace Sys2Proof.Machine

/-! ## The frames on the wire -/

/-- A TCP frame (spec/41_tcp.md R140): transaction id, protocol id 0, length (each high byte first), then the core. -/
def tcpFrame (tid : Half) (core : List Byte) : List Byte :=
  [hiByte tid, loByte tid, 0x00#8, 0x00#8, hiByte (BitVec.ofNat 16 core.length), loByte (BitVec.ofNat 16 core.length)]
    ++ core

/-- An RTU frame (spec/42_rtu.md R170): the core, then its CRC, low byte first. -/
def rtuFrame (core : List Byte) : List Byte := core ++ [loByte (crc16 core), hiByte (crc16 core)]

/-- A byte as two upper-case hex digits, the high nibble's first (spec/43_ascii.md R212). -/
def hexPair (b : Byte) : List Byte := [hexU (hiNibble b), hexU (loNibble b)]

/-- An ASCII frame (R210): ':', the core and its LRC as hex digits, CR, LF. -/
def asciiFrame (core : List Byte) : List Byte :=
  chColon :: ((core ++ [lrc core]).flatMap hexPair ++ [chCR, chLF])

/-- The bytes that pairs of hex digits of either case stand for, none if a character is no digit or one is left over. -/
def hexBytes : List Byte → Option (List Byte)
  | [] => some []
  | [_] => none
  | c0 :: c1 :: cs =>
    match hexVal c0, hexVal c1, hexBytes cs with
    | some h, some l, some bs => some ((h ++ l) :: bs)
    | _, _, _ => none

/-! ## Runs of one command -/

/-- `k` block steps of the command `i`, stopping at the first that answers no next state. -/
def execN (i : Instr) : Nat → State → Out
  | 0, s => .next s
  | k + 1, s =>
    match exec i s with
    | .next t => execN i k t
    | o => o

/-! ## The invariant -/

/-- The first `n` FBUF bytes are written, and they are `bs`. -/
abbrev Holds (s : State) (n : Nat) (bs : List Byte) : Prop := Memory.slice s.fbuf 0 n = .ok bs

/-- Where the sequencer can stand while `i` runs (the phases of the command's rule), and what the registers the
command computes hold there. -/
def SeqOk (i : Instr) (s : State) : Prop :=
  s.phase = .init ∨
  match i with
  | .nop | .crcInit | .crcByte _ | .lrcInit | .lrcByte _ => False
  | .crcRange a n =>
    s.phase = .run ∧ a + n ≤ Config.fbufSize ∧ a ≤ s.idx.toNat ∧ s.idx.toNat + s.cnt.toNat = a + n ∧
    ∃ bs, Memory.slice s.fbuf a (s.idx.toNat - a) = .ok bs ∧ s.crc = crc16 bs
  | .lrcRange a n t =>
    s.phase = .run ∧ a + n ≤ Config.fbufSize ∧ t ≤ n ∧ a ≤ s.idx.toNat ∧ s.idx.toNat + s.cnt.toNat = a + (n - t) ∧
    ∃ bs, Memory.slice s.fbuf a (s.idx.toNat - a) = .ok bs ∧ s.lrcAcc = byteSum bs
  | .tcpEnc =>
    coreLenOk s.flen.toNat = true ∧ s.mbapLen.toNat = s.flen.toNat ∧
    (s.phase = .hdr ∧ s.h.toNat < 6 ∨ s.phase = .body ∧ s.idx.toNat < s.flen.toNat)
  | .tcpDec =>
    s.flen = 0#9 ∧
    (s.phase = .hdr ∧ s.h.toNat < 6 ∨
     s.phase = .body ∧ coreLenOk s.mbapLen.toNat = true ∧ s.idx.toNat < s.mbapLen.toNat ∧ ∃ bs, Holds s s.idx.toNat bs)
  | .rtuEnc =>
    coreLenOk s.flen.toNat = true ∧
    (s.phase = .core ∧ s.idx.toNat < s.flen.toNat ∨ (s.phase = .crcLo ∨ s.phase = .crcHi) ∧ s.idx = s.flen) ∧
    ∃ bs, Holds s s.idx.toNat bs ∧ s.crc = crc16 bs
  | .rtuDec dir =>
    s.flen = 0#9 ∧
    (s.phase = .echo ∧ s.echoPend ≠ 0#16 ∧ s.crc = crcInitValue ∨
     s.phase = .unit ∧ s.echoPend = 0#16 ∧ s.crc = crcInitValue ∨
     s.phase = .fc ∧ s.echoPend = 0#16 ∧ s.idx = 1#9 ∧ (∃ u, Holds s 1 [u] ∧ s.crc = crc16 [u]) ∨
     (s.phase = .body ∨ s.phase = .crcLo ∨ s.phase = .crcHi) ∧ s.echoPend = 0#16 ∧ coreLenOk s.idx.toNat = true ∧
       ∃ u fc payload, Holds s s.idx.toNat (u :: fc :: payload) ∧ s.crc = crc16 (u :: fc :: payload) ∧
         lookupLen s.lenTable dir fc ≠ .unsupported ∧ s.g = some (lookupLen s.lenTable dir fc) ∧
         (s.phase ≠ .body → requiredLen (lookupLen s.lenTable dir fc) payload = some payload.length))
  | .asciiEnc =>
    coreLenOk s.flen.toNat = true ∧
    (s.phase = .colon ∧ s.idx = 0#9 ∨ (s.phase = .hi ∨ s.phase = .lo) ∧ s.idx.toNat < s.flen.toNat ∨
     (s.phase = .lrcHi ∨ s.phase = .lrcLo ∨ s.phase = .cr ∨ s.phase = .lf) ∧ s.idx = s.flen) ∧
    ∃ bs, Holds s s.idx.toNat bs ∧ s.lrcAcc = byteSum bs
  | .asciiDec =>
    s.flen = 0#9 ∧
    (s.phase = .echo ∧ s.echoPend ≠ 0#16 ∨ s.phase = .hunt ∧ s.echoPend = 0#16 ∨
     (s.phase = .hi ∨ s.phase = .lo) ∧ s.echoPend = 0#16 ∧ s.idx.toNat ≤ Config.maxCore + 1 ∧
       ∃ bs, Holds s s.idx.toNat bs ∧ s.lrcAcc = byteSum bs)

/-- What every state of a run from reset satisfies, whatever the schedule. -/
structure MachineInv (s : State) : Prop where
  /-- FBUF is in canonical form. -/
  fbufWf : Memory.wf s.fbuf
  /-- PHASE = IDLE if and only if STATUS.BUSY = 0 (spec/10_state.md R39). -/
  idleIffNotBusy : s.phase = .idle ↔ s.busy = false
  /-- DONE and ERR are never both 1 (R24). -/
  notDoneAndErr : ¬ (s.done = true ∧ s.err = true)
  /-- While BUSY = 1 only OVR can be 1 (R24). -/
  busyQuiet : s.busy = true → s.done = false ∧ s.err = false
  /-- ERRCODE is 0 exactly when ERR = 0 (R24). -/
  codeIffErr : s.errCode = .none ↔ s.err = false
  /-- TX_DEPTH is at least 1 (spec/00_scope.md R9). -/
  depthPos : 1 ≤ s.txDepth
  /-- The TX FIFO holds up to TX_DEPTH bytes (R41). -/
  fifoFits : s.txFifo.length ≤ s.txDepth
  /-- A running command is the legal word in CMD, which the latches hold, and its sequencer stands in one of its
  phases (R23, R39; spec/30_encoding.md R85). -/
  running : s.busy = true → latchedWord s = s.cmd ∧ ∃ i, decode (latchedWord s) = .ok i ∧ SeqOk i s

/-- The block as a hardware reset leaves it, with any parameters, streams and schedule of the environment. -/
def resetWith (txDepth : Nat) (lenTable : List LenRow) (rx : List Byte) (sched : List Turn) : State :=
  { State.reset with txDepth := txDepth, lenTable := lenTable, rx := rx, sched := sched }

end Sys2Proof.Machine
end

