-- ==== Sys2Proof/Certificates/Slice0/Obligations.lean ====
section
/-! DEFINITION. The statements for the provers, from the numbered rules of spec/. -/

section
open Sys2Proof Sys2Proof.Machine

/-! ## Encoding -/

/-- Every well-formed command is read back from its word, with every operand at every value its field admits
(spec/30_encoding.md R81 to R83, R87). -/
def Obligations.DecodeOfEncodeIsTheCommand : Prop :=
  ∀ i : Instr, WellFormed i → decode (encode i) = .ok i

/-- A legal word is the word of the one command it decodes to, and that command's operands fit their fields. -/
def Obligations.LegalWordIsEncodingOfItsCommand : Prop :=
  ∀ (w : Word) (i : Instr), decode w = .ok i → WellFormed i ∧ encode i = w ∧ (opRow i).hits w = true

/-- A word is legal exactly when it matches exactly one row of the opcode map (R83). -/
def Obligations.LegalExactlyWhenOneRowMatches : Prop :=
  ∀ w : Word, (∃ i, decode w = .ok i) ↔ (opcodeTable.filter (fun r => r.hits w)).length = 1

/-- A word with OP 0xD to 0xF matches no row, and a word that matches no row, written to CMD while idle, raises
ILLEGAL_CMD at once: CMD holds it, DONE is cleared, BUSY stays 0, and nothing else changes (R84, R85). -/
def Obligations.IllegalWordRaisesIllegalCmd : Prop :=
  (∀ w : Word, 0xD ≤ (opField w).toNat → ∀ r ∈ opcodeTable, r.hits w = false) ∧
  ∀ (w : Word) (s : State), s.busy = false → (∀ r ∈ opcodeTable, r.hits w = false) →
    hostWrite 32 0x004 w s = .next { s with cmd := w, done := false, err := true, errCode := .illegalCmd }

/-- Words written out from R81 and R83, one for each command, and illegal words. -/
def Obligations.SampleWordsDecode : Prop :=
  decode 0x00000000#32 = .ok .nop ∧ decode 0x00000001#32 = .ok .crcInit ∧
  decode 0x00001102#32 = .ok (.crcByte 0x11#8) ∧ decode 0x01FF0103#32 = .ok (.crcRange 1 511) ∧
  decode 0x00000004#32 = .ok .lrcInit ∧ decode 0x0000FF05#32 = .ok (.lrcByte 0xFF#8) ∧
  decode 0x02070006#32 = .ok (.lrcRange 0 7 1) ∧ decode 0x10000006#32 = .ok (.lrcRange 0 0 8) ∧
  decode 0x00000007#32 = .ok .tcpEnc ∧ decode 0x00000008#32 = .ok .tcpDec ∧ decode 0x00000009#32 = .ok .rtuEnc ∧
  decode 0x0000000A#32 = .ok (.rtuDec .req) ∧ decode 0x0000001A#32 = .ok (.rtuDec .rsp) ∧
  decode 0x0000000B#32 = .ok .asciiEnc ∧ decode 0x0000000C#32 = .ok .asciiDec ∧
  decode 0x0000000D#32 = .error .reservedOpcode ∧ decode 0x00000020#32 = .error .reservedBit ∧
  decode 0x80000000#32 = .error .reservedBit ∧ decode 0x00000100#32 = .error .unusedField ∧
  decode 0x0000001B#32 = .error .unusedField ∧ decode 0x02000003#32 = .error .unusedField

/-- The assembler gives a command its word exactly when its operands fit, TAIL defaults to 0, and a data byte above
255 is refused (R87). -/
def Obligations.AssemblerGivesTheWord : Prop :=
  (∀ i : Instr, assemble (mnemonic i) (operands i) = if i.wellFormed then some (encode i) else none) ∧
  (∀ s n : Nat, assemble "LRC.RANGE" [.num s, .num n] = assemble "LRC.RANGE" [.num s, .num n, .num 0]) ∧
  (∀ d : Nat, 255 < d → assemble "CRC.BYTE" [.num d] = none ∧ assemble "LRC.BYTE" [.num d] = none)

/-! ## Issue and step -/

/-- A host write of CMD, the three cases of R85: dropped with OVR while busy, ILLEGAL_CMD, or latched and started. -/
def Obligations.CmdWriteIssues : Prop :=
  ∀ (w : Word) (s : State),
    (s.busy = true → hostWrite 32 0x004 w s = .next { s with ovr := true }) ∧
    (∀ e, s.busy = false → decode w = .error e →
      hostWrite 32 0x004 w s = .next { s with cmd := w, done := false, err := true, errCode := .illegalCmd }) ∧
    (∀ i, s.busy = false → decode w = .ok i →
      hostWrite 32 0x004 w s = .next { s with
        cmd := w, done := false, err := false, errCode := .none, rxCount := 0#16, txCount := 0#16,
        lOp := w.extractLsb' 0 4, lDir := w.extractLsb' 4 1, lA := w.extractLsb' 8 8, lLen := w.extractLsb' 16 9,
        lTail := w.extractLsb' 25 4, lEcho := s.echoEn, busy := true, phase := .init })

/-- The command a legal CMD write issues is the one the next block step runs (R69, R85); that the block runs from the
latches is the model's reading (log 11). -/
def Obligations.IssuedCommandIsFetched : Prop :=
  ∀ (w : Word) (i : Instr) (s t : State), s.busy = false → decode w = .ok i → hostWrite 32 0x004 w s = .next t →
    latchedWord t = w ∧ fetch t = .run i ∧ t.phase = .init

/-- A block turn runs the latched command: with BUSY = 1 and the latches holding the word of `i`, the step is `exec i`
at the state with the turn taken (at the state itself when the schedule is used up; log 2). -/
def Obligations.StepRunsTheLatchedCommand : Prop :=
  ∀ (s : State) (i : Instr), s.busy = true → decode (latchedWord s) = .ok i →
    (s.sched = [] → step s = exec i s) ∧
    (∀ rest, s.sched = .block :: rest → step s = exec i { s with sched := rest })

/-- The other turns: without a running command a block turn changes nothing but the schedule (R86; spec/20_memory.md
R67); a HOST turn is the next access of the host's program, at the state with the turn and the access taken, and each
turn of `WAIT` reads STATUS and ends it when BUSY reads 0 (R65; spec/30_encoding.md R88, R89); a received byte goes to the
end of RX; the oldest byte of the TX FIFO goes to the end of the TX wire (R65; spec/10_state.md R42, R43). That schedule
and program are lists in State, and that a turn with nothing to do passes, are the model's choices (logs 2, 10, 23). -/
def Obligations.IdleBlockHostAndEnvironmentTurns : Prop :=
  ∀ (s : State) (rest : List Turn),
    (s.busy = false → s.sched = [] → step s = .next s) ∧
    (s.busy = false → s.sched = .block :: rest → step s = .next { s with sched := rest }) ∧
    (s.sched = .host :: rest →
      (∀ bits addr ops, s.prog = .read bits addr :: ops →
        step s = hostRead bits addr { s with sched := rest, prog := ops }) ∧
      (∀ bits addr v ops, s.prog = .write bits addr v :: ops →
        step s = hostWrite bits addr v { s with sched := rest, prog := ops }) ∧
      (∀ ops, s.prog = .wait :: ops →
        step s = .next { s with
          sched := rest, readData := some (statusWord s), prog := if s.busy then .wait :: ops else ops }) ∧
      (s.prog = [] → step s = .next { s with sched := rest })) ∧
    (∀ b, s.sched = .envRx b :: rest → step s = .next { s with sched := rest, rx := s.rx ++ [b] }) ∧
    (∀ b bs, s.sched = .envTake :: rest → s.txFifo = b :: bs →
      step s = .next { s with sched := rest, txFifo := bs, txWire := s.txWire ++ [b] }) ∧
    (s.sched = .envTake :: rest → s.txFifo = [] → step s = .next { s with sched := rest })

/-! ## Checksum commands -/

/-- NOP is the word 0x00000000 and its step completes, changing nothing else; written while idle and run, it clears
DONE, ERR, ERRCODE, RX_COUNT and TX_COUNT and then sets DONE (spec/40_checksum.md R103). -/
def Obligations.NopCompletes : Prop :=
  encode .nop = 0x00000000#32 ∧
  (∀ s : State, s.phase = .init → exec .nop s = .next { s with busy := false, done := true, phase := .idle }) ∧
  ∀ s : State, s.busy = false → ∃ t, hostWrite 32 0x004 0x00000000#32 s = .next t ∧ t.busy = true ∧
    t.done = false ∧ t.err = false ∧ t.errCode = .none ∧ t.rxCount = 0#16 ∧ t.txCount = 0#16 ∧
    exec .nop t = .next { s with
      cmd := 0x00000000#32, busy := false, done := true, err := false, errCode := .none, rxCount := 0#16,
      txCount := 0#16, lOp := 0#4, lDir := 0#1, lA := 0#8, lLen := 0#9, lTail := 0#4, lEcho := s.echoEn,
      phase := .idle }

/-- CRC.INIT sets CRC to 0xFFFF and completes (R104); CRC.BYTE d sets CRC to crcStep(CRC, d) and completes, going on
from whatever CRC holds (R105). -/
def Obligations.CrcInitAndByteComplete : Prop :=
  encode .crcInit = 0x00000001#32 ∧
  (∀ s : State, s.phase = .init →
    exec .crcInit s = .next { s with crc := 0xFFFF#16, busy := false, done := true, phase := .idle }) ∧
  (∀ d : Byte, encode (.crcByte d) = 0x00000002#32 ||| d.setWidth 32 <<< 8) ∧
  (∀ (d : Byte) (s : State), s.phase = .init →
    exec (.crcByte d) s = .next { s with crc := crcStep s.crc d, busy := false, done := true, phase := .idle }) ∧
  crcStep 0xFFFF#16 0x00#8 = 0x40BF#16 ∧ crcStep 0x0000#16 0x00#8 = 0x0000#16 ∧ crcStep 0xFFFF#16 0x01#8 = 0x807E#16

/-- LRC.INIT sets LRC_ACC to 0, and LRC then reads 0 (R107); LRC.BYTE d adds d to LRC_ACC modulo 256 (R108). Both
complete. -/
def Obligations.LrcInitAndByteComplete : Prop :=
  encode .lrcInit = 0x00000004#32 ∧
  (∀ s : State, s.phase = .init →
    exec .lrcInit s = .next { s with lrcAcc := 0x00#8, busy := false, done := true, phase := .idle } ∧
    ∀ t, exec .lrcInit s = .next t → readReg .lrc t = 0#32) ∧
  (∀ d : Byte, encode (.lrcByte d) = 0x00000005#32 ||| d.setWidth 32 <<< 8) ∧
  ∀ (d : Byte) (s : State), s.phase = .init →
    exec (.lrcByte d) s =
      .next { s with
        lrcAcc := BitVec.ofNat 8 ((s.lrcAcc.toNat + d.toNat) % 256), busy := false, done := true, phase := .idle }

/-- CRC.RANGE: its word, and its steps: RANGE, INIT, one byte, the end, and the fault on an unwritten byte (R106). -/
def Obligations.CrcRangeSteps : Prop :=
  (∀ a n : Nat, encode (.crcRange a n) = 0x00000003#32 ||| BitVec.ofNat 32 a <<< 8 ||| BitVec.ofNat 32 n <<< 16) ∧
  ∀ (a n : Nat) (s : State),
    (s.phase = .init → 256 < a + n →
      exec (.crcRange a n) s = .next { s with busy := false, err := true, errCode := .range, phase := .idle }) ∧
    (s.phase = .init → a + n ≤ 256 →
      exec (.crcRange a n) s =
        .next { s with crc := 0xFFFF#16, idx := BitVec.ofNat 9 a, cnt := BitVec.ofNat 9 n, phase := .run }) ∧
    (∀ b, s.phase = .run → s.cnt ≠ 0#9 → s.idx.toNat < 256 → Memory.read s.fbuf s.idx.toNat = some b →
      exec (.crcRange a n) s =
        .next { s with crc := crcStep s.crc b, idx := s.idx + 1#9, cnt := s.cnt - 1#9 }) ∧
    (s.phase = .run → s.cnt = 0#9 →
      exec (.crcRange a n) s = .next { s with busy := false, done := true, phase := .idle }) ∧
    (s.phase = .run → s.cnt ≠ 0#9 → s.idx.toNat < 256 → Memory.read s.fbuf s.idx.toNat = none →
      exec (.crcRange a n) s = .fault (.fbufUnwritten s.idx.toNat))

/-- CRC.RANGE over written bytes completes in LEN + 2 block steps with CRC = crc16 of FBUF[s .. s+n-1]
(R106; spec/70_reset_and_hazards.md R298). -/
def Obligations.CrcRangeComputesCrc16 : Prop :=
  ∀ (a n : Nat) (bs : List Byte) (s : State), s.phase = .init → a + n ≤ 256 → Memory.slice s.fbuf a n = .ok bs →
    execN (.crcRange a n) (n + 2) s =
      .next { s with
        crc := crc16 bs, idx := BitVec.ofNat 9 (a + n), cnt := 0#9, busy := false, done := true, phase := .idle }

/-- LRC.RANGE: its word, and its steps: RANGE, INIT, one byte, the end, and the fault on an unwritten byte (R109). -/
def Obligations.LrcRangeSteps : Prop :=
  (∀ a n t : Nat, encode (.lrcRange a n t) =
    0x00000006#32 ||| BitVec.ofNat 32 a <<< 8 ||| BitVec.ofNat 32 n <<< 16 ||| BitVec.ofNat 32 t <<< 25) ∧
  ∀ (a n t : Nat) (s : State),
    (s.phase = .init → 256 < a + n ∨ n < t →
      exec (.lrcRange a n t) s = .next { s with busy := false, err := true, errCode := .range, phase := .idle }) ∧
    (s.phase = .init → a + n ≤ 256 → t ≤ n →
      exec (.lrcRange a n t) s =
        .next { s with lrcAcc := 0x00#8, idx := BitVec.ofNat 9 a, cnt := BitVec.ofNat 9 (n - t), phase := .run }) ∧
    (∀ b, s.phase = .run → s.cnt ≠ 0#9 → s.idx.toNat < 256 → Memory.read s.fbuf s.idx.toNat = some b →
      exec (.lrcRange a n t) s =
        .next { s with lrcAcc := s.lrcAcc + b, idx := s.idx + 1#9, cnt := s.cnt - 1#9 }) ∧
    (s.phase = .run → s.cnt = 0#9 →
      exec (.lrcRange a n t) s = .next { s with busy := false, done := true, phase := .idle }) ∧
    (s.phase = .run → s.cnt ≠ 0#9 → s.idx.toNat < 256 → Memory.read s.fbuf s.idx.toNat = none →
      exec (.lrcRange a n t) s = .fault (.fbufUnwritten s.idx.toNat))

/-- LRC.RANGE over written bytes completes in LEN - TAIL + 2 block steps with LRC_ACC the sum and LRC the lrc of
FBUF[s .. s+n-t-1]; the excluded tail may be unwritten (R109; R298). -/
def Obligations.LrcRangeComputesLrc : Prop :=
  ∀ (a n t : Nat) (bs : List Byte) (s : State), s.phase = .init → a + n ≤ 256 → t ≤ n →
    Memory.slice s.fbuf a (n - t) = .ok bs →
    ∃ u, execN (.lrcRange a n t) (n - t + 2) s = .next u ∧ lrcReg u = lrc bs ∧
      u = { s with
        lrcAcc := byteSum bs, idx := BitVec.ofNat 9 (a + (n - t)), cnt := 0#9, busy := false, done := true,
        phase := .idle }

/-- Flipping any one bit of any byte changes crc16 and changes lrc (R112). -/
def Obligations.ChecksumsDetectSingleBitErrors : Prop :=
  ∀ (xs ys : List Byte) (b : Byte) (k : Nat), k < 8 →
    crc16 (xs ++ (b ^^^ (1#8 <<< k)) :: ys) ≠ crc16 (xs ++ b :: ys) ∧
    lrc (xs ++ (b ^^^ (1#8 <<< k)) :: ys) ≠ lrc (xs ++ b :: ys)

/-- Appending its CRC, low byte first, gives CRC 0; a byte sum and its LRC add up to 0 modulo 256 (R112). -/
def Obligations.ChecksumResiduesAreZero : Prop :=
  ∀ bs : List Byte,
    crc16 (rtuFrame bs) = 0x0000#16 ∧ ((bs.map BitVec.toNat).sum + (lrc bs).toNat) % 256 = 0

/-- The frame of the checksum commands: which fields each may change; every FBUF byte and both streams stay. -/
def Obligations.ChecksumCommandsFrame : Prop :=
  ∀ (s t : State),
    (exec .nop s = .next t → t = { s with busy := t.busy, done := t.done, phase := t.phase }) ∧
    (exec .crcInit s = .next t → t = { s with crc := t.crc, busy := t.busy, done := t.done, phase := t.phase }) ∧
    (∀ d, exec (.crcByte d) s = .next t →
      t = { s with crc := t.crc, busy := t.busy, done := t.done, phase := t.phase }) ∧
    (∀ a n, exec (.crcRange a n) s = .next t →
      t = { s with
        crc := t.crc, idx := t.idx, cnt := t.cnt, busy := t.busy, done := t.done, err := t.err, errCode := t.errCode,
        phase := t.phase } ∧ ∀ k, Memory.read t.fbuf k = Memory.read s.fbuf k) ∧
    (exec .lrcInit s = .next t →
      t = { s with lrcAcc := t.lrcAcc, busy := t.busy, done := t.done, phase := t.phase }) ∧
    (∀ d, exec (.lrcByte d) s = .next t →
      t = { s with lrcAcc := t.lrcAcc, busy := t.busy, done := t.done, phase := t.phase }) ∧
    (∀ a n u, exec (.lrcRange a n u) s = .next t →
      t = { s with
        lrcAcc := t.lrcAcc, idx := t.idx, cnt := t.cnt, busy := t.busy, done := t.done, err := t.err,
        errCode := t.errCode, phase := t.phase } ∧ ∀ k, Memory.read t.fbuf k = Memory.read s.fbuf k)

/-! ## TCP commands -/

/-- The steps of TCP.ENC: LENGTH outside 2 to 254, INIT, a header byte, a body byte (spec/41_tcp.md R141). -/
def Obligations.TcpEncSteps : Prop :=
  encode .tcpEnc = 0x00000007#32 ∧
  ∀ s : State,
    (s.phase = .init → s.flen.toNat < 2 ∨ 254 < s.flen.toNat →
      exec .tcpEnc s = .next { s with busy := false, err := true, errCode := .length, phase := .idle }) ∧
    (s.phase = .init → 2 ≤ s.flen.toNat → s.flen.toNat ≤ 254 →
      exec .tcpEnc s = .next { s with mbapLen := s.flen.setWidth 16, h := 0#3, phase := .hdr }) ∧
    (∀ b, s.phase = .hdr → s.txFifo.length < s.txDepth →
      [hiByte s.mbapTid, loByte s.mbapTid, 0x00#8, 0x00#8, hiByte s.mbapLen, loByte s.mbapLen][s.h.toNat]? = some b →
      exec .tcpEnc s =
        .next { s with
          txFifo := s.txFifo ++ [b], txCount := satAdd s.txCount 1, h := s.h + 1#3,
          idx := if s.h = 5#3 then 0#9 else s.idx, phase := if s.h = 5#3 then .body else .hdr }) ∧
    (∀ b, s.phase = .body → s.txFifo.length < s.txDepth → s.idx.toNat < 256 →
      Memory.read s.fbuf s.idx.toNat = some b →
      exec .tcpEnc s =
        .next (if s.idx + 1#9 = s.flen then
          { s with
            txFifo := s.txFifo ++ [b], txCount := satAdd s.txCount 1, idx := s.idx + 1#9, busy := false, done := true,
            phase := .idle }
        else { s with txFifo := s.txFifo ++ [b], txCount := satAdd s.txCount 1, idx := s.idx + 1#9 })) ∧
    (s.phase = .body → s.txFifo.length < s.txDepth → s.idx.toNat < 256 → Memory.read s.fbuf s.idx.toNat = none →
      exec .tcpEnc s = .fault (.fbufUnwritten s.idx.toNat))

/-- With room in the TX FIFO, TCP.ENC sends the frame of its core in FLEN + 7 block steps and changes nothing else
(R140, R141, R143; R298). -/
def Obligations.TcpEncSendsTheFrame : Prop :=
  ∀ (s : State) (core : List Byte), s.phase = .init → s.flen.toNat = core.length → 2 ≤ core.length →
    core.length ≤ 254 → Holds s core.length core → s.txFifo.length + (core.length + 6) ≤ s.txDepth →
    execN .tcpEnc (core.length + 7) s =
      .next { s with
        mbapLen := BitVec.ofNat 16 core.length, h := 6#3, idx := s.flen, txFifo := s.txFifo ++ tcpFrame s.mbapTid core,
        txCount := satAdd s.txCount (core.length + 6), busy := false, done := true, phase := .idle }

/-- The steps of TCP.DEC: INIT, a header byte before the last, the last one with its length check, a body byte
(R142, R144); and a TCP.DEC that ends in an error leaves FLEN = 0 (spec/60_exceptions.md R252). -/
def Obligations.TcpDecSteps : Prop :=
  encode .tcpDec = 0x00000008#32 ∧
  ∀ s : State,
    (s.phase = .init → exec .tcpDec s = .next { s with flen := 0#9, h := 0#3, phase := .hdr }) ∧
    (∀ b rest, s.phase = .hdr → s.rx = b :: rest → s.h.toNat < 5 →
      exec .tcpDec s =
        .next { s with
          rx := rest, rxCount := satAdd s.rxCount 1, h := s.h + 1#3,
          mbapTid := if s.h = 0#3 then b ++ loByte s.mbapTid else if s.h = 1#3 then hiByte s.mbapTid ++ b else s.mbapTid,
          mbapPid := if s.h = 2#3 then b ++ loByte s.mbapPid else if s.h = 3#3 then hiByte s.mbapPid ++ b else s.mbapPid,
          mbapLen := if s.h = 4#3 then b ++ loByte s.mbapLen else s.mbapLen }) ∧
    (∀ b rest, s.phase = .hdr → s.rx = b :: rest → s.h = 5#3 → coreLenOk (hiByte s.mbapLen ++ b).toNat = true →
      exec .tcpDec s =
        .next { s with
          rx := rest, rxCount := satAdd s.rxCount 1, h := 6#3, mbapLen := hiByte s.mbapLen ++ b, idx := 0#9,
          phase := .body }) ∧
    (∀ b rest, s.phase = .hdr → s.rx = b :: rest → s.h = 5#3 →
      (hiByte s.mbapLen ++ b).toNat < 2 ∨ 254 < (hiByte s.mbapLen ++ b).toNat →
      exec .tcpDec s =
        .next { s with
          rx := rest, rxCount := satAdd s.rxCount 1, h := 6#3, mbapLen := hiByte s.mbapLen ++ b, busy := false,
          err := true, errCode := .length, phase := .idle }) ∧
    (∀ b rest, s.phase = .body → s.rx = b :: rest → s.idx.toNat < 256 →
      exec .tcpDec s =
        .next (if s.idx.toNat + 1 = s.mbapLen.toNat then
          { s with
            rx := rest, rxCount := satAdd s.rxCount 1, fbuf := Memory.write s.fbuf s.idx.toNat b, idx := s.idx + 1#9,
            flen := s.idx + 1#9, busy := false, done := true, phase := .idle }
        else
          { s with
            rx := rest, rxCount := satAdd s.rxCount 1, fbuf := Memory.write s.fbuf s.idx.toNat b,
            idx := s.idx + 1#9 })) ∧
    (∀ t, MachineInv s → fetch s = .run .tcpDec → exec .tcpDec s = .next t → t.err = true → t.flen = 0#9)

/-- TCP.DEC takes a header with a length field of 2 to 254 and exactly that many more bytes, in length + 7 block steps:
FBUF holds the core, the header registers the header, RX the rest (R142, R143, R145, R147; R298). -/
def Obligations.TcpDecReceivesTheFrame : Prop :=
  ∀ (s : State) (tid pid len : Half) (core rest : List Byte), s.phase = .init → len.toNat = core.length →
    2 ≤ core.length → core.length ≤ 254 →
    s.rx = [hiByte tid, loByte tid, hiByte pid, loByte pid, hiByte len, loByte len] ++ core ++ rest →
    ∃ t, execN .tcpDec (core.length + 7) s = .next t ∧ Holds t core.length core ∧
      (∀ k, core.length ≤ k → Memory.read t.fbuf k = Memory.read s.fbuf k) ∧
      t = { s with
        mbapTid := tid, mbapPid := pid, mbapLen := len, h := 6#3, idx := BitVec.ofNat 9 core.length,
        flen := BitVec.ofNat 9 core.length, fbuf := t.fbuf, rx := rest,
        rxCount := satAdd s.rxCount (core.length + 6), busy := false, done := true, phase := .idle }

/-- The frame of the TCP commands: TCP.ENC changes no FBUF byte, TCP.DEC only the byte at IDX, and only in BODY; neither
changes ECHO_PEND, CRC or LRC_ACC, and TCP.ENC does not change MBAP_TID. -/
def Obligations.TcpCommandsFrame : Prop :=
  ∀ s t : State,
    (exec .tcpEnc s = .next t →
      t = { s with
        mbapLen := t.mbapLen, h := t.h, idx := t.idx, txFifo := t.txFifo, txCount := t.txCount, busy := t.busy,
        done := t.done, err := t.err, errCode := t.errCode, phase := t.phase } ∧
      ∀ k, Memory.read t.fbuf k = Memory.read s.fbuf k) ∧
    (exec .tcpDec s = .next t →
      t = { s with
        mbapTid := t.mbapTid, mbapPid := t.mbapPid, mbapLen := t.mbapLen, h := t.h, idx := t.idx, flen := t.flen,
        fbuf := t.fbuf, rx := t.rx, rxCount := t.rxCount, busy := t.busy, done := t.done, err := t.err,
        errCode := t.errCode, phase := t.phase } ∧
      ∀ k, (s.phase = .body → k ≠ s.idx.toNat) → Memory.read t.fbuf k = Memory.read s.fbuf k)

/-! ## RTU commands -/

/-- The steps of RTU.ENC: LENGTH, INIT with its flush, a core byte, the two CRC bytes (spec/42_rtu.md R171, R172,
R185). -/
def Obligations.RtuEncSteps : Prop :=
  encode .rtuEnc = 0x00000009#32 ∧
  ∀ s : State,
    (s.phase = .init → s.flen.toNat < 2 ∨ 254 < s.flen.toNat →
      exec .rtuEnc s = .next { s with busy := false, err := true, errCode := .length, phase := .idle }) ∧
    (s.phase = .init → 2 ≤ s.flen.toNat → s.flen.toNat ≤ 254 →
      exec .rtuEnc s =
        .next { s with
          rx := [], rxCount := satAdd s.rxCount s.rx.length, echoPend := 0#16, crc := 0xFFFF#16, idx := 0#9,
          phase := .core }) ∧
    (∀ b, s.phase = .core → s.txFifo.length < s.txDepth → s.idx.toNat < 256 →
      Memory.read s.fbuf s.idx.toNat = some b →
      exec .rtuEnc s =
        .next { s with
          txFifo := s.txFifo ++ [b], txCount := satAdd s.txCount 1,
          echoPend := if s.lEcho then satAdd s.echoPend 1 else s.echoPend, crc := crcStep s.crc b, idx := s.idx + 1#9,
          phase := if s.idx + 1#9 = s.flen then .crcLo else .core }) ∧
    (s.phase = .core → s.txFifo.length < s.txDepth → s.idx.toNat < 256 → Memory.read s.fbuf s.idx.toNat = none →
      exec .rtuEnc s = .fault (.fbufUnwritten s.idx.toNat)) ∧
    (s.phase = .crcLo → s.txFifo.length < s.txDepth →
      exec .rtuEnc s =
        .next { s with
          txFifo := s.txFifo ++ [s.crc.extractLsb' 0 8], txCount := satAdd s.txCount 1,
          echoPend := if s.lEcho then satAdd s.echoPend 1 else s.echoPend, phase := .crcHi }) ∧
    (s.phase = .crcHi → s.txFifo.length < s.txDepth →
      exec .rtuEnc s =
        .next { s with
          txFifo := s.txFifo ++ [s.crc.extractLsb' 8 8], txCount := satAdd s.txCount 1,
          echoPend := if s.lEcho then satAdd s.echoPend 1 else s.echoPend, busy := false, done := true,
          phase := .idle })

/-- With room in the TX FIFO, RTU.ENC drains RX, sends the core and its CRC, low byte first, in FLEN + 3 block steps,
and leaves CRC = crc16 of the core; with L_ECHO = 1, ECHO_PEND counts every byte sent (R170, R171, R172, R185; R298). -/
def Obligations.RtuEncSendsTheFrame : Prop :=
  ∀ (s : State) (core : List Byte), s.phase = .init → s.flen.toNat = core.length → 2 ≤ core.length →
    core.length ≤ 254 → Holds s core.length core → s.txFifo.length + (core.length + 2) ≤ s.txDepth →
    execN .rtuEnc (core.length + 3) s =
      .next { s with
        rx := [], rxCount := satAdd s.rxCount s.rx.length, crc := crc16 core, idx := s.flen,
        txFifo := s.txFifo ++ rtuFrame core, txCount := satAdd s.txCount (core.length + 2),
        echoPend := if s.lEcho then BitVec.ofNat 16 (core.length + 2) else 0#16, busy := false, done := true,
        phase := .idle }

/-- The steps of RTU.DEC before the payload: INIT, an echo byte, the unit id, the function code (R172, R173, R180). -/
def Obligations.RtuDecHeadSteps : Prop :=
  ∀ (dir : Dir) (s : State),
    (s.phase = .init →
      exec (.rtuDec dir) s =
        .next { s with
          flen := 0#9, crc := 0xFFFF#16, idx := 0#9, phase := if 0 < s.echoPend.toNat then .echo else .unit }) ∧
    (∀ b rest, s.phase = .echo → s.rx = b :: rest →
      exec (.rtuDec dir) s =
        .next { s with
          rx := rest, rxCount := satAdd s.rxCount 1, echoPend := s.echoPend - 1#16,
          phase := if s.echoPend = 1#16 then .unit else .echo }) ∧
    (∀ b rest, s.phase = .unit → s.rx = b :: rest →
      exec (.rtuDec dir) s =
        .next { s with
          rx := rest, rxCount := satAdd s.rxCount 1, fbuf := Memory.write s.fbuf 0 b, crc := crcStep s.crc b,
          idx := 1#9, phase := .fc }) ∧
    (∀ b rest, s.phase = .fc → s.rx = b :: rest → lookupLen s.lenTable dir b = .unsupported →
      exec (.rtuDec dir) s =
        .next { s with
          rx := [], rxCount := satAdd (satAdd s.rxCount 1) rest.length, fbuf := Memory.write s.fbuf 1 b,
          crc := crcStep s.crc b, idx := 2#9, g := some .unsupported, busy := false, err := true,
          errCode := .unsupportedFc, phase := .idle }) ∧
    (∀ b rest, s.phase = .fc → s.rx = b :: rest → lookupLen s.lenTable dir b ≠ .unsupported →
      exec (.rtuDec dir) s =
        .next { s with
          rx := rest, rxCount := satAdd s.rxCount 1, fbuf := Memory.write s.fbuf 1 b, crc := crcStep s.crc b,
          idx := 2#9, g := some (lookupLen s.lenTable dir b),
          phase := if requiredLen (lookupLen s.lenTable dir b) [] = some 0 then .crcLo else .body })

/-- The steps of RTU.DEC from the payload on: OVERFLOW at the 255th core byte, a payload byte, the two CRC bytes, and
the check, which completes or drains RX and fails (R173, R178, R181, R182, R183). -/
def Obligations.RtuDecTailSteps : Prop :=
  ∀ (dir : Dir) (s : State) (b : Byte) (rest : List Byte), s.rx = b :: rest →
    (s.phase = .body → s.idx.toNat = 254 →
      exec (.rtuDec dir) s =
        .next { s with
          rx := [], rxCount := satAdd (satAdd s.rxCount 1) rest.length, busy := false, err := true,
          errCode := .overflow, phase := .idle }) ∧
    (∀ spec payload, s.phase = .body → 2 ≤ s.idx.toNat → s.idx.toNat < 254 → s.g = some spec →
      Memory.slice s.fbuf 2 (s.idx.toNat - 2) = .ok payload →
      exec (.rtuDec dir) s =
        .next { s with
          rx := rest, rxCount := satAdd s.rxCount 1, fbuf := Memory.write s.fbuf s.idx.toNat b,
          crc := crcStep s.crc b, idx := s.idx + 1#9,
          phase := if requiredLen spec (payload ++ [b]) = some (payload ++ [b]).length then .crcLo else .body }) ∧
    (s.phase = .crcLo →
      exec (.rtuDec dir) s =
        .next { s with
          rx := rest, rxCount := satAdd s.rxCount 1, rxCrc := hiByte s.rxCrc ++ b, phase := .crcHi }) ∧
    (s.phase = .crcHi → b ++ loByte s.rxCrc = s.crc →
      exec (.rtuDec dir) s =
        .next { s with
          rx := rest, rxCount := satAdd s.rxCount 1, rxCrc := b ++ loByte s.rxCrc, flen := s.idx, busy := false,
          done := true, phase := .idle }) ∧
    (s.phase = .crcHi → b ++ loByte s.rxCrc ≠ s.crc →
      exec (.rtuDec dir) s =
        .next { s with
          rx := [], rxCount := satAdd (satAdd s.rxCount 1) rest.length, rxCrc := b ++ loByte s.rxCrc, busy := false,
          err := true, errCode := .crcMismatch, phase := .idle })

/-- RTU.DEC, in either direction and with any length table: after ECHO_PEND echo bytes, a good frame whose payload has
the length its function code requires is taken byte for byte, in 1 + echo + FLEN + 2 block steps: FBUF holds the core,
CRC = RX_CRC = its crc16, RX the rest (R170, R172, R173, R178, R183; R298). -/
def Obligations.RtuDecReceivesTheFrame : Prop :=
  ∀ (dir : Dir) (s : State) (echo : List Byte) (unit fc : Byte) (payload rest : List Byte),
    s.phase = .init → echo.length = s.echoPend.toNat → s.rx = echo ++ rtuFrame (unit :: fc :: payload) ++ rest →
    lookupLen s.lenTable dir fc ≠ .unsupported →
    requiredLen (lookupLen s.lenTable dir fc) payload = some payload.length → payload.length + 2 ≤ 254 →
    ∃ t, execN (.rtuDec dir) (1 + echo.length + (payload.length + 2) + 2) s = .next t ∧
      Holds t (payload.length + 2) (unit :: fc :: payload) ∧
      (∀ k, payload.length + 2 ≤ k → Memory.read t.fbuf k = Memory.read s.fbuf k) ∧
      t = { s with
        crc := crc16 (unit :: fc :: payload), rxCrc := crc16 (unit :: fc :: payload), echoPend := 0#16,
        idx := BitVec.ofNat 9 (payload.length + 2), flen := BitVec.ofNat 9 (payload.length + 2),
        g := some (lookupLen s.lenTable dir fc), fbuf := t.fbuf, rx := rest,
        rxCount := satAdd s.rxCount (echo.length + (payload.length + 2) + 2), busy := false, done := true,
        phase := .idle }

/-- Whatever the schedule: a frame RTU.DEC hands on (DONE) is a core of 2 to 254 bytes in FBUF whose crc16 is CRC and
is what was received, and whose payload has exactly the length its function code requires; and after an RTU.DEC error
FLEN = 0, so no frame is handed on (R173, R178, R183, R184; spec/60_exceptions.md R252). -/
def Obligations.RtuDecHandsOnOnlyGoodFrames : Prop :=
  ∀ (dir : Dir) (s t : State), MachineInv s → fetch s = .run (.rtuDec dir) → exec (.rtuDec dir) s = .next t →
    (t.done = true →
      ∃ unit fc payload, Holds t t.flen.toNat (unit :: fc :: payload) ∧ coreLenOk t.flen.toNat = true ∧
        t.crc = crc16 (unit :: fc :: payload) ∧ t.rxCrc = t.crc ∧
        requiredLen (lookupLen t.lenTable dir fc) payload = some payload.length) ∧
    (t.err = true → t.flen = 0#9)

/-- RequiredLen clause by clause: Fixed(n); Counted(k, w) with its one-byte count and its two-byte count, high byte
first; MeiObjects and its walk over the objects (R177). It never changes as bytes arrive, is never below the number of
bytes needed to know it, and so the first payload it is the length of is the only one among its extensions (R178). -/
def Obligations.RequiredLenIsStable : Prop :=
  (∀ (n : Nat) (body : List Byte), requiredLen (.fixed n) body = some n) ∧
  (∀ (k : Nat) (body : List Byte),
    (body.length < k + 1 → requiredLen (.counted k .one) body = none) ∧
    (body.length < k + 2 → requiredLen (.counted k .two) body = none)) ∧
  (∀ (pre post : List Byte) (n m : Byte),
    requiredLen (.counted pre.length .one) (pre ++ n :: post) = some (pre.length + 1 + n.toNat) ∧
    requiredLen (.counted pre.length .two) (pre ++ n :: m :: post) =
      some (pre.length + 2 + (n.toNat * 256 + m.toNat))) ∧
  (∀ body : List Byte, body.length < 6 → requiredLen .meiObjects body = none) ∧
  (∀ (pre post : List Byte) (m : Byte), pre.length = 5 →
    requiredLen .meiObjects (pre ++ m :: post) = walkObjects (pre ++ m :: post) 6 m.toNat) ∧
  (∀ (body : List Byte) (pos : Nat), walkObjects body pos 0 = some pos) ∧
  (∀ (body : List Byte) (pos m : Nat), body.length < pos + 2 → walkObjects body pos (m + 1) = none) ∧
  (∀ (pre post : List Byte) (objId len : Byte) (m : Nat),
    walkObjects (pre ++ objId :: len :: post) pre.length (m + 1) =
      walkObjects (pre ++ objId :: len :: post) (pre.length + 2 + len.toNat) m) ∧
  (∀ (g : LenSpec) (body : List Byte) (n : Nat), requiredLen g body = some n →
    (∀ more, requiredLen g (body ++ more) = some n) ∧ requiredLen g (body.take n) = some n ∧
    ∀ more, n = body.length → requiredLen g (body ++ more) = some (body ++ more).length → more = [])

/-- The default length table, row by row: exception responses (0x80 to 0xFF) have one payload byte with DIR = 1 whatever
the original code was (R179), and any other function code is Unsupported (R176). -/
def Obligations.DefaultLengthTable : Prop :=
  (∀ fc ∈ [1#8, 2#8, 3#8, 4#8],
    lookupLen defaultLenTable .req fc = .fixed 4 ∧ lookupLen defaultLenTable .rsp fc = .counted 0 .one) ∧
  (∀ fc ∈ [5#8, 6#8, 8#8],
    lookupLen defaultLenTable .req fc = .fixed 4 ∧ lookupLen defaultLenTable .rsp fc = .fixed 4) ∧
  (lookupLen defaultLenTable .req 7#8 = .fixed 0 ∧ lookupLen defaultLenTable .rsp 7#8 = .fixed 1) ∧
  (lookupLen defaultLenTable .req 11#8 = .fixed 0 ∧ lookupLen defaultLenTable .rsp 11#8 = .fixed 4) ∧
  (∀ fc ∈ [12#8, 17#8],
    lookupLen defaultLenTable .req fc = .fixed 0 ∧ lookupLen defaultLenTable .rsp fc = .counted 0 .one) ∧
  (∀ fc ∈ [15#8, 16#8],
    lookupLen defaultLenTable .req fc = .counted 4 .one ∧ lookupLen defaultLenTable .rsp fc = .fixed 4) ∧
  (∀ fc ∈ [20#8, 21#8],
    lookupLen defaultLenTable .req fc = .counted 0 .one ∧ lookupLen defaultLenTable .rsp fc = .counted 0 .one) ∧
  (lookupLen defaultLenTable .req 22#8 = .fixed 6 ∧ lookupLen defaultLenTable .rsp 22#8 = .fixed 6) ∧
  (lookupLen defaultLenTable .req 23#8 = .counted 8 .one ∧ lookupLen defaultLenTable .rsp 23#8 = .counted 0 .one) ∧
  (lookupLen defaultLenTable .req 24#8 = .fixed 2 ∧ lookupLen defaultLenTable .rsp 24#8 = .counted 0 .two) ∧
  (lookupLen defaultLenTable .req 43#8 = .fixed 3 ∧ lookupLen defaultLenTable .rsp 43#8 = .meiObjects) ∧
  (∀ fc : Byte, 0x80 ≤ fc.toNat →
    lookupLen defaultLenTable .rsp fc = .fixed 1 ∧ lookupLen defaultLenTable .req fc = .unsupported) ∧
  (∀ (dir : Dir) (fc : Byte), fc.toNat < 0x80 →
    fc.toNat ∉ [1, 2, 3, 4, 5, 6, 7, 8, 11, 12, 15, 16, 17, 20, 21, 22, 23, 24, 43] →
    lookupLen defaultLenTable dir fc = .unsupported)

/-- The frame of the RTU commands: RTU.ENC changes no FBUF byte; RTU.DEC only FBUF[0] in UNIT, FBUF[1] in FC and
FBUF[IDX] in BODY, sends nothing, and changes neither MBAP_TID, MBAP_PID, MBAP_LEN nor LRC_ACC. -/
def Obligations.RtuCommandsFrame : Prop :=
  ∀ s t : State,
    (exec .rtuEnc s = .next t →
      t = { s with
        rx := t.rx, rxCount := t.rxCount, echoPend := t.echoPend, crc := t.crc, idx := t.idx, txFifo := t.txFifo,
        txCount := t.txCount, busy := t.busy, done := t.done, err := t.err, errCode := t.errCode, phase := t.phase } ∧
      ∀ k, Memory.read t.fbuf k = Memory.read s.fbuf k) ∧
    (∀ dir, exec (.rtuDec dir) s = .next t →
      t = { s with
        rx := t.rx, rxCount := t.rxCount, echoPend := t.echoPend, crc := t.crc, rxCrc := t.rxCrc, idx := t.idx,
        flen := t.flen, g := t.g, fbuf := t.fbuf, busy := t.busy, done := t.done, err := t.err, errCode := t.errCode,
        phase := t.phase } ∧
      ∀ k, (s.phase = .unit → k ≠ 0) → (s.phase = .fc → k ≠ 1) → (s.phase = .body → k ≠ s.idx.toNat) →
        Memory.read t.fbuf k = Memory.read s.fbuf k)

/-! ## ASCII commands -/

/-- hexU and hexVal are the digits of R212, upper case sent and both cases accepted; a byte is sent high nibble first;
hexVal gives back what hexU sends, and a byte's two digits give back the byte; exactly the 22 digits of either case have
a value (spec/43_ascii.md R212, R214). -/
def Obligations.HexDigitsRoundTrip : Prop :=
  (∀ v : BitVec 4, (hexU v).toNat = if v.toNat < 10 then 0x30 + v.toNat else 0x41 + (v.toNat - 10)) ∧
  (∀ (c : Byte) (v : BitVec 4), hexVal c = some v →
    v.toNat = if c.toNat ≤ 0x39 then c.toNat - 0x30 else if c.toNat ≤ 0x46 then c.toNat - 0x41 + 10
      else c.toNat - 0x61 + 10) ∧
  (∀ c : Byte, (hexVal c).isSome = true ↔
    (0x30 ≤ c.toNat ∧ c.toNat ≤ 0x39) ∨ (0x41 ≤ c.toNat ∧ c.toNat ≤ 0x46) ∨ (0x61 ≤ c.toNat ∧ c.toNat ≤ 0x66)) ∧
  (∀ v : BitVec 4, hexVal (hexU v) = some v) ∧
  (∀ b : Byte, hexPair b = [hexU (b.extractLsb' 4 4), hexU (b.extractLsb' 0 4)] ∧ hexBytes (hexPair b) = some [b]) ∧
  (∀ (c0 c1 : Byte) (h l : BitVec 4), hexVal c0 = some h → hexVal c1 = some l →
    hexBytes [c0, c1] = some [BitVec.ofNat 8 (h.toNat * 16 + l.toNat)])

/-- The steps of ASCII.ENC: LENGTH, INIT, ':', the two digits of a core byte, the LRC's two digits, CR, LF (R211). -/
def Obligations.AsciiEncSteps : Prop :=
  encode .asciiEnc = 0x0000000B#32 ∧
  ∀ s : State,
    (s.phase = .init → s.flen.toNat < 2 ∨ 254 < s.flen.toNat →
      exec .asciiEnc s = .next { s with busy := false, err := true, errCode := .length, phase := .idle }) ∧
    (s.phase = .init → 2 ≤ s.flen.toNat → s.flen.toNat ≤ 254 →
      exec .asciiEnc s = .next { s with lrcAcc := 0x00#8, idx := 0#9, phase := .colon }) ∧
    (∀ c next, s.txFifo.length < s.txDepth →
      (s.phase = .colon ∧ c = 0x3A#8 ∧ next = .hi ∨
       s.phase = .lrcHi ∧ c = hexU ((lrcReg s).extractLsb' 4 4) ∧ next = .lrcLo ∨
       s.phase = .lrcLo ∧ c = hexU ((lrcReg s).extractLsb' 0 4) ∧ next = .cr ∨
       s.phase = .cr ∧ c = 0x0D#8 ∧ next = .lf) →
      exec .asciiEnc s =
        .next { s with
          txFifo := s.txFifo ++ [c], txCount := satAdd s.txCount 1,
          echoPend := if s.lEcho then satAdd s.echoPend 1 else s.echoPend, phase := next }) ∧
    (∀ b, s.phase = .hi → s.txFifo.length < s.txDepth → s.idx.toNat < 256 → Memory.read s.fbuf s.idx.toNat = some b →
      exec .asciiEnc s =
        .next { s with
          txFifo := s.txFifo ++ [hexU (b.extractLsb' 4 4)], txCount := satAdd s.txCount 1,
          echoPend := if s.lEcho then satAdd s.echoPend 1 else s.echoPend, phase := .lo }) ∧
    (∀ b, s.phase = .lo → s.txFifo.length < s.txDepth → s.idx.toNat < 256 → Memory.read s.fbuf s.idx.toNat = some b →
      exec .asciiEnc s =
        .next { s with
          txFifo := s.txFifo ++ [hexU (b.extractLsb' 0 4)], txCount := satAdd s.txCount 1,
          echoPend := if s.lEcho then satAdd s.echoPend 1 else s.echoPend, lrcAcc := s.lrcAcc + b,
          idx := s.idx + 1#9, phase := if (s.idx + 1#9).toNat < s.flen.toNat then .hi else .lrcHi }) ∧
    (s.phase = .hi ∨ s.phase = .lo → s.txFifo.length < s.txDepth → s.idx.toNat < 256 →
      Memory.read s.fbuf s.idx.toNat = none →
      exec .asciiEnc s = .fault (.fbufUnwritten s.idx.toNat)) ∧
    (s.phase = .lf → s.txFifo.length < s.txDepth →
      exec .asciiEnc s =
        .next { s with
          txFifo := s.txFifo ++ [0x0A#8], txCount := satAdd s.txCount 1,
          echoPend := if s.lEcho then satAdd s.echoPend 1 else s.echoPend, busy := false, done := true,
          phase := .idle })

/-- With room in the TX FIFO, ASCII.ENC sends the frame of its core in 2 * FLEN + 6 block steps, leaves LRC_ACC the
core's sum, and does not touch RX (R210, R211; R172; R298). -/
def Obligations.AsciiEncSendsTheFrame : Prop :=
  ∀ (s : State) (core : List Byte), s.phase = .init → s.flen.toNat = core.length → 2 ≤ core.length →
    core.length ≤ 254 → Holds s core.length core → s.txFifo.length + (2 * core.length + 5) ≤ s.txDepth →
    execN .asciiEnc (2 * core.length + 6) s =
      .next { s with
        lrcAcc := byteSum core, idx := s.flen, txFifo := s.txFifo ++ asciiFrame core,
        txCount := satAdd s.txCount (2 * core.length + 5),
        echoPend := if s.lEcho then satAdd s.echoPend (2 * core.length + 5) else s.echoPend, busy := false,
        done := true, phase := .idle }

/-- The steps of ASCII.DEC outside a frame: INIT, an echo byte, a hunted byte (R172, R213, R215). The counters here and in
every other statement saturate: a counter `c` after `k` more is min(c + k, 0xFFFF), and one at 0xFFFF stays there
(spec/00_scope.md R11; spec/10_state.md R33 to R36). -/
def Obligations.AsciiDecHuntSteps : Prop :=
  (∀ (c : Half) (k : Nat), (satAdd c k).toNat = min (c.toNat + k) 0xFFFF ∧ satAdd 0xFFFF#16 k = 0xFFFF#16) ∧
  ∀ s : State,
    (s.phase = .init →
      exec .asciiDec s = .next { s with flen := 0#9, phase := if 0 < s.echoPend.toNat then .echo else .hunt }) ∧
    (∀ c rest, s.rx = c :: rest →
      (s.phase = .echo →
        exec .asciiDec s =
          .next { s with
            rx := rest, rxCount := satAdd s.rxCount 1, echoPend := s.echoPend - 1#16,
            phase := if s.echoPend = 1#16 then .hunt else .echo }) ∧
      (s.phase = .hunt → c = 0x3A#8 →
        exec .asciiDec s =
          .next { s with
            rx := rest, rxCount := satAdd s.rxCount 1, idx := 0#9, lrcAcc := 0x00#8, phase := .hi }) ∧
      (s.phase = .hunt → c = 0x0D#8 ∨ c = 0x0A#8 →
        exec .asciiDec s = .next { s with rx := rest, rxCount := satAdd s.rxCount 1 }) ∧
      (s.phase = .hunt → c ≠ 0x3A#8 → c ≠ 0x0D#8 → c ≠ 0x0A#8 →
        exec .asciiDec s =
          .next { s with
            rx := rest, rxCount := satAdd s.rxCount 1, garbageCnt := satAdd s.garbageCnt 1 }))

/-- The steps of ASCII.DEC inside a frame that go on with it: a first digit, a second digit, and a frame end with at
least 3 bytes whose sum is 0 modulo 256, which completes with the core and leaves LRC_ACC its sum (R213, R217). -/
def Obligations.AsciiDecFrameSteps : Prop :=
  ∀ (s : State) (c : Byte) (rest : List Byte), s.rx = c :: rest →
    (∀ v, s.phase = .hi → hexVal c = some v →
      exec .asciiDec s = .next { s with rx := rest, rxCount := satAdd s.rxCount 1, nib := v, phase := .lo }) ∧
    (∀ v, s.phase = .lo → hexVal c = some v → s.idx.toNat < 255 →
      exec .asciiDec s =
        .next { s with
          rx := rest, rxCount := satAdd s.rxCount 1, fbuf := Memory.write s.fbuf s.idx.toNat (s.nib ++ v),
          idx := s.idx + 1#9, lrcAcc := s.lrcAcc + (s.nib ++ v), phase := .hi }) ∧
    (∀ b, s.phase = .hi → c = 0x0D#8 ∨ c = 0x0A#8 → 3 ≤ s.idx.toNat → s.idx.toNat ≤ 256 → s.lrcAcc = 0x00#8 →
      Memory.read s.fbuf (s.idx.toNat - 1) = some b →
      exec .asciiDec s =
        .next { s with
          rx := rest, rxCount := satAdd s.rxCount 1, flen := s.idx - 1#9, lrcAcc := s.lrcAcc - b, busy := false,
          done := true, phase := .idle })

/-- The cases of R216 in which a started frame is skipped: each counts one in SKIP_CNT, raises no error, and goes on
hunting, except a ':', which starts a new frame at once (R213, R216, R218). -/
def Obligations.AsciiDecSkipSteps : Prop :=
  ∀ (s : State) (c : Byte) (rest : List Byte), s.rx = c :: rest →
    (s.phase = .hi → c = 0x0D#8 ∨ c = 0x0A#8 → s.idx.toNat < 3 ∨ s.lrcAcc ≠ 0x00#8 →
      exec .asciiDec s =
        .next { s with
          rx := rest, rxCount := satAdd s.rxCount 1, skipCnt := satAdd s.skipCnt 1, phase := .hunt }) ∧
    (s.phase = .hi → c ≠ 0x3A#8 → c ≠ 0x0D#8 → c ≠ 0x0A#8 → hexVal c = none →
      exec .asciiDec s =
        .next { s with
          rx := rest, rxCount := satAdd s.rxCount 1, skipCnt := satAdd s.skipCnt 1, phase := .hunt }) ∧
    (s.phase = .lo → c ≠ 0x3A#8 → hexVal c = none →
      exec .asciiDec s =
        .next { s with
          rx := rest, rxCount := satAdd s.rxCount 1, skipCnt := satAdd s.skipCnt 1, phase := .hunt }) ∧
    (∀ v, s.phase = .lo → hexVal c = some v → s.idx.toNat = 255 →
      exec .asciiDec s =
        .next { s with
          rx := rest, rxCount := satAdd s.rxCount 1, skipCnt := satAdd s.skipCnt 1, phase := .hunt }) ∧
    (s.phase = .hi ∨ s.phase = .lo → c = 0x3A#8 →
      exec .asciiDec s =
        .next { s with
          rx := rest, rxCount := satAdd s.rxCount 1, skipCnt := satAdd s.skipCnt 1, idx := 0#9, lrcAcc := 0x00#8,
          phase := .hi })

/-- Resynchronisation: a good frame (':', the digits of a core of 2 to 254 bytes and its LRC in either case, CR or LF)
that reaches the decoder while it hunts or while it is inside a frame is accepted, and its core delivered
(R216, R217, R219). -/
def Obligations.AsciiDecResynchronises : Prop :=
  ∀ (s : State) (digits core : List Byte) (e : Byte) (rest : List Byte),
    s.phase = .hunt ∨ s.phase = .hi ∨ s.phase = .lo → s.rx = 0x3A#8 :: (digits ++ e :: rest) →
    hexBytes digits = some (core ++ [lrc core]) → 2 ≤ core.length → core.length ≤ 254 → e = 0x0D#8 ∨ e = 0x0A#8 →
    ∃ t, execN .asciiDec (digits.length + 2) s = .next t ∧ Holds t (core.length + 1) (core ++ [lrc core]) ∧
      (∀ k, core.length + 1 ≤ k → Memory.read t.fbuf k = Memory.read s.fbuf k) ∧
      t = { s with
        flen := BitVec.ofNat 9 core.length, lrcAcc := byteSum core, idx := BitVec.ofNat 9 (core.length + 1),
        nib := t.nib, fbuf := t.fbuf, skipCnt := if s.phase = .hunt then s.skipCnt else satAdd s.skipCnt 1, rx := rest,
        rxCount := satAdd s.rxCount (digits.length + 2), busy := false, done := true, phase := .idle }

/-- ASCII.DEC from its start: after the echo bytes, everything before the first ':' is discarded and counted in
GARBAGE_CNT except CR and LF, and the frame ASCII.ENC sends is delivered, the LF after its CR staying in RX
(R172, R213, R215, R221). -/
def Obligations.AsciiDecReceivesTheFrame : Prop :=
  ∀ (s : State) (echo junk core rest : List Byte), s.phase = .init → echo.length = s.echoPend.toNat →
    0x3A#8 ∉ junk → s.rx = echo ++ junk ++ asciiFrame core ++ rest → 2 ≤ core.length → core.length ≤ 254 →
    ∃ t, execN .asciiDec (1 + (echo.length + junk.length + (2 * core.length + 4))) s = .next t ∧
      Holds t (core.length + 1) (core ++ [lrc core]) ∧
      (∀ k, core.length + 1 ≤ k → Memory.read t.fbuf k = Memory.read s.fbuf k) ∧
      t = { s with
        flen := BitVec.ofNat 9 core.length, lrcAcc := byteSum core, idx := BitVec.ofNat 9 (core.length + 1),
        nib := t.nib, fbuf := t.fbuf, echoPend := 0#16,
        garbageCnt := satAdd s.garbageCnt (junk.filter (fun c => c != 0x0D#8 && c != 0x0A#8)).length,
        rx := 0x0A#8 :: rest, rxCount := satAdd s.rxCount (echo.length + junk.length + (2 * core.length + 4)),
        busy := false, done := true, phase := .idle }

/-- Whatever the schedule: a frame ASCII.DEC hands on (DONE) is a core of 2 to 254 bytes in FBUF, followed by its LRC,
with LRC_ACC its sum; and no step of ASCII.DEC ends in an error (R213, R216, R217). -/
def Obligations.AsciiDecHandsOnOnlyGoodFrames : Prop :=
  ∀ s t : State, MachineInv s → fetch s = .run .asciiDec → exec .asciiDec s = .next t →
    (t.err = false ∧ t.errCode = .none) ∧
    (t.done = true →
      ∃ core, Holds t t.flen.toNat core ∧ coreLenOk t.flen.toNat = true ∧ t.lrcAcc = byteSum core ∧
        Memory.read t.fbuf t.flen.toNat = some (lrc core) ∧ lrcReg t = lrc core)

/-- The frame of the ASCII commands: ASCII.ENC changes no FBUF byte and not RX; ASCII.DEC changes only the byte at IDX,
and only in LO; neither changes CRC, RX_CRC or the MBAP registers. -/
def Obligations.AsciiCommandsFrame : Prop :=
  ∀ s t : State,
    (exec .asciiEnc s = .next t →
      t = { s with
        echoPend := t.echoPend, lrcAcc := t.lrcAcc, idx := t.idx, txFifo := t.txFifo, txCount := t.txCount,
        busy := t.busy, done := t.done, err := t.err, errCode := t.errCode, phase := t.phase } ∧
      ∀ k, Memory.read t.fbuf k = Memory.read s.fbuf k) ∧
    (exec .asciiDec s = .next t →
      t = { s with
        rx := t.rx, rxCount := t.rxCount, echoPend := t.echoPend, garbageCnt := t.garbageCnt, skipCnt := t.skipCnt,
        lrcAcc := t.lrcAcc, nib := t.nib, idx := t.idx, flen := t.flen, fbuf := t.fbuf, busy := t.busy,
        done := t.done, phase := t.phase } ∧
      ∀ k, (s.phase = .lo → k ≠ s.idx.toNat) → Memory.read t.fbuf k = Memory.read s.fbuf k)

/-! ## Holds -/

/-- A step that needs an RX byte holds while RX is empty, and a step that pushes holds while the TX FIFO is full: the
block waits without changing state (spec/00_scope.md R11; spec/60_exceptions.md R266). -/
def Obligations.StreamStepsHold : Prop :=
  ∀ s : State,
    (s.rx = [] →
      (s.phase = .hdr ∨ s.phase = .body → exec .tcpDec s = .next s) ∧
      (∀ dir, s.phase ∈ [.echo, .unit, .fc, .body, .crcLo, .crcHi] → exec (.rtuDec dir) s = .next s) ∧
      (s.phase ∈ [.echo, .hunt, .hi, .lo] → exec .asciiDec s = .next s)) ∧
    (s.txDepth ≤ s.txFifo.length →
      (s.phase = .hdr ∨ s.phase = .body → exec .tcpEnc s = .next s) ∧
      (s.phase ∈ [.core, .crcLo, .crcHi] → exec .rtuEnc s = .next s) ∧
      (s.phase ∈ [.colon, .hi, .lo, .lrcHi, .lrcLo, .cr, .lf] → exec .asciiEnc s = .next s))

/-! ## Host accesses -/

/-- Any access but a 32-bit one at a multiple of 4 below 0x100 or an 8-bit one at 0x100 to 0x1FF is HOST_BAD_ACCESS, and
no other access is (spec/20_memory.md R62). -/
def Obligations.BadAccessExactly : Prop :=
  ∀ (s : State) (bits addr : Nat) (v : Word),
    let good := (addr < 0x100 ∧ bits = 32 ∧ addr % 4 = 0) ∨ (0x100 ≤ addr ∧ addr ≤ 0x1FF ∧ bits = 8)
    (¬ good → hostRead bits addr s = .fault (.hostBadAccess bits addr) ∧
      hostWrite bits addr v s = .fault (.hostBadAccess bits addr)) ∧
    (good → (∃ t, hostRead bits addr s = .next t) ∧ (∃ t, hostWrite bits addr v s = .next t))

/-- The host reads of every register, of a reserved offset and of an FBUF byte: the value of R22 to R38, at the address of
R61 (CTRL reads IRQ_EN in bit 0, ECHO_EN in bit 1 and 0 elsewhere); no read has a side effect on the block, and reading
again with no step between returns the same value (R63); an unwritten FBUF byte reads as some byte, whatever the free
value is (spec/60_exceptions.md R258). That the value read stands in `readData`, an FBUF byte in bits 7:0, is the model's
choice (logs 5, 6). -/
def Obligations.HostReadsReturnTheRegisters : Prop :=
  ∀ s : State,
    (∀ a v, (a, v) ∈
      [(0x000, (if s.irqEn then 0x1#32 else 0x0#32) ||| (if s.echoEn then 0x2#32 else 0x0#32)), (0x004, s.cmd), (0x008, statusWord s), (0x00C, s.crc.setWidth 32),
       (0x010, s.lrcAcc.setWidth 32), (0x014, BitVec.ofNat 32 ((256 - s.lrcAcc.toNat) % 256)), (0x018, s.flen.setWidth 32),
       (0x01C, s.mbapTid.setWidth 32), (0x020, s.mbapPid.setWidth 32), (0x024, s.mbapLen.setWidth 32),
       (0x028, s.rxCrc.setWidth 32), (0x02C, s.garbageCnt.setWidth 32), (0x030, s.skipCnt.setWidth 32),
       (0x034, s.echoPend.setWidth 32), (0x038, s.rxCount.setWidth 32), (0x03C, s.txCount.setWidth 32),
       (0x040, 0x4D424631#32)] →
      hostRead 32 a s = .next { s with readData := some v }) ∧
    (∀ a, 0x044 ≤ a → a ≤ 0x0FF → a % 4 = 0 → hostRead 32 a s = .next { s with readData := some 0#32 }) ∧
    (∀ i b, i < 256 → Memory.read s.fbuf i = some b →
      hostRead 8 (0x100 + i) s = .next { s with readData := some (b.setWidth 32) }) ∧
    (∀ i, i < 256 → Memory.read s.fbuf i = none →
      ∃ b : Byte, hostRead 8 (0x100 + i) s = .next { s with readData := some (b.setWidth 32) }) ∧
    (∀ bits addr t, hostRead bits addr s = .next t → hostRead bits addr t = .next t)

/-- While BUSY = 1 a write to CMD, CRC, LRC_ACC, FLEN, MBAP_TID, GARBAGE_CNT, SKIP_CNT, ECHO_PEND or any FBUF byte is
dropped and sets OVR, and nothing else (R256); a write to a read-only register or a reserved offset is ignored and sets
no OVR (spec/10_state.md R21; spec/20_memory.md R61). -/
def Obligations.BusyWritesAreDropped : Prop :=
  ∀ (s : State) (v : Word),
    (s.busy = true →
      (∀ a ∈ [0x004, 0x00C, 0x010, 0x018, 0x01C, 0x02C, 0x030, 0x034],
        hostWrite 32 a v s = .next { s with ovr := true }) ∧
      (∀ i, i < 256 → hostWrite 8 (0x100 + i) v s = .next { s with ovr := true })) ∧
    (∀ a ∈ [0x014, 0x020, 0x024, 0x028, 0x038, 0x03C, 0x040], hostWrite 32 a v s = .next s) ∧
    (∀ a, 0x044 ≤ a → a ≤ 0x0FF → a % 4 = 0 → hostWrite 32 a v s = .next s)

/-- While BUSY = 0 each writable register takes the bits its rule names, a counter is cleared by any value, and an FBUF
byte is written (spec/10_state.md R25, R26, R28, R29, R33 to R35, R38). That the byte stands in bits 7:0 of the data is
the model's choice (log 6). -/
def Obligations.IdleWritesTakeEffect : Prop :=
  ∀ (s : State) (v : Word), s.busy = false →
    hostWrite 32 0x00C v s = .next { s with crc := v.extractLsb' 0 16 } ∧
    hostWrite 32 0x010 v s = .next { s with lrcAcc := v.extractLsb' 0 8 } ∧
    hostWrite 32 0x018 v s = .next { s with flen := v.extractLsb' 0 9 } ∧
    hostWrite 32 0x01C v s = .next { s with mbapTid := v.extractLsb' 0 16 } ∧
    hostWrite 32 0x02C v s = .next { s with garbageCnt := 0#16 } ∧
    hostWrite 32 0x030 v s = .next { s with skipCnt := 0#16 } ∧
    hostWrite 32 0x034 v s = .next { s with echoPend := 0#16 } ∧
    ∀ i, i < 256 → ∃ t, hostWrite 8 (0x100 + i) v s = .next t ∧ t = { s with fbuf := t.fbuf } ∧
      Memory.read t.fbuf i = some (v.extractLsb' 0 8) ∧ ∀ k, k ≠ i → Memory.read t.fbuf k = Memory.read s.fbuf k

/-- STATUS: the bits it reads, with the number of each error code (spec/60_exceptions.md R250), and a write, which clears
each W1C bit written with 1, and ERRCODE with ERR, busy or not (spec/10_state.md R24). -/
def Obligations.StatusReadAndWrite : Prop :=
  (ErrCode.none.toBits = 0#4 ∧ ErrCode.illegalCmd.toBits = 1#4 ∧ ErrCode.range.toBits = 2#4 ∧
    ErrCode.length.toBits = 3#4 ∧ ErrCode.unsupportedFc.toBits = 4#4 ∧ ErrCode.overflow.toBits = 5#4 ∧
    ErrCode.crcMismatch.toBits = 6#4 ∧ ErrCode.aborted.toBits = 7#4) ∧
  ∀ (s : State) (v : Word),
    ((statusWord s).getLsbD 0 = s.busy ∧ (statusWord s).getLsbD 1 = s.done ∧ (statusWord s).getLsbD 2 = s.err ∧
      (statusWord s).getLsbD 3 = s.ovr ∧ (statusWord s).extractLsb' 4 4 = s.errCode.toBits ∧
      (statusWord s).getLsbD 8 = (s.irqEn && (s.done || s.err)) ∧ (statusWord s).extractLsb' 9 23 = 0#23) ∧
    hostWrite 32 0x008 v s =
      .next { s with
        done := if v.getLsbD 1 then false else s.done, err := if v.getLsbD 2 then false else s.err,
        errCode := if v.getLsbD 2 then .none else s.errCode, ovr := if v.getLsbD 3 then false else s.ovr }

/-- CTRL.ABORT with SRST = 0: a running command ends with ABORTED, a decoder (L_OP 0x8, 0xA or 0xC) with FLEN = 0, an
encoder with FLEN and the TX FIFO as they are; RX is not drained; an idle block is not disturbed; IRQ_EN and ECHO_EN are
written as usual (spec/60_exceptions.md R262; FLEN before the decoder's INIT step: log 24). -/
def Obligations.AbortEndsTheCommand : Prop :=
  ∀ (s : State) (v : Word), v.getLsbD 3 = false →
    (v.getLsbD 2 = true → s.busy = true →
      hostWrite 32 0x000 v s =
        .next { s with
          irqEn := v.getLsbD 0, echoEn := v.getLsbD 1, busy := false, err := true, errCode := .aborted,
          flen := if s.lOp ∈ [0x8#4, 0xA#4, 0xC#4] then 0#9 else s.flen, phase := .idle }) ∧
    (v.getLsbD 2 = false ∨ s.busy = false →
      hostWrite 32 0x000 v s = .next { s with irqEn := v.getLsbD 0, echoEn := v.getLsbD 1 })

/-- The reset values: after a hardware reset the host reads them in every register, FBUF is unwritten, the TX FIFO is
empty, the sequencer is idle, and RX is untouched; the soft reset (SRST = 1, all other bits ignored, busy or not) does
the same except that FBUF keeps its contents (spec/10_state.md R44; spec/70_reset_and_hazards.md R280, R281). That a
hardware reset is a turn, and what becomes of the TX wire, the host's program, the parameters, the rest of the schedule
and the model's own fields, is the model's choice (logs 5, 14). -/
def Obligations.ResetsGiveTheResetValues : Prop :=
  ∀ (s : State) (rest : List Turn),
    (s.sched = .hardReset :: rest → ∃ t, step s = .next t ∧
      t = { State.reset with
        rx := s.rx, txWire := s.txWire, prog := s.prog, txDepth := s.txDepth, lenTable := s.lenTable, sched := rest,
        readData := s.readData, powerUp := s.powerUp + 1 } ∧
      (∀ r, readReg r t = if r = .crc then 0x0000FFFF#32 else if r = .id then 0x4D424631#32 else 0#32) ∧
      (∀ k, Memory.read t.fbuf k = none) ∧ t.txFifo = [] ∧ t.phase = .idle ∧ t.busy = false ∧
      t.lOp = 0#4 ∧ t.lDir = 0#1 ∧ t.lA = 0#8 ∧ t.lLen = 0#9 ∧ t.lTail = 0#4 ∧ t.lEcho = false ∧ t.idx = 0#9 ∧
      t.cnt = 0#9 ∧ t.h = 0#3 ∧ t.nib = 0#4 ∧ t.g = none) ∧
    (∀ v : Word, v.getLsbD 3 = true →
      hostWrite 32 0x000 v s =
        .next { State.reset with
          rx := s.rx, txWire := s.txWire, prog := s.prog, txDepth := s.txDepth, lenTable := s.lenTable,
          sched := s.sched, readData := s.readData, powerUp := s.powerUp, fbuf := s.fbuf })

/-! ## Whole-machine rules -/

/-- Nothing but a STATUS write of 1 to its bit, a CMD write while idle, and a reset clears DONE or ERR
(spec/60_exceptions.md R261), and nothing but a STATUS write of 1 to its bit and a reset clears OVR (R256). -/
def Obligations.OnlyTheHostClearsDoneErrOvr : Prop :=
  ∀ (s t : State), step s = .next t →
    let hostDoes (op : HostOp) : Prop := ∃ rest ops, s.sched = .host :: rest ∧ s.prog = op :: ops
    let isReset : Prop :=
      (∃ rest, s.sched = .hardReset :: rest) ∨ ∃ v, hostDoes (.write 32 0x000 v) ∧ v.getLsbD 3 = true
    let clears (k : Nat) : Prop := isReset ∨ ∃ v, hostDoes (.write 32 0x008 v) ∧ v.getLsbD k = true
    let issues : Prop := s.busy = false ∧ ∃ w, hostDoes (.write 32 0x004 w)
    (s.done = true → t.done = false → clears 1 ∨ issues) ∧
    (s.err = true → t.err = false → clears 2 ∨ issues) ∧
    (s.ovr = true → t.ovr = false → clears 3)

/-- The streams are first-in first-out. What was sent is never undone or reordered: in every step but a reset, the TX
wire and the TX FIFO together stay as they are or get one byte at their end (R41, R43, R253). Every step leaves a rest
of RX, and only the environment adds a byte to it, at its end (R42). -/
def Obligations.StreamsAreFirstInFirstOut : Prop :=
  ∀ (s t : State), step s = .next t →
    ((∃ rest, s.sched = .hardReset :: rest) ∨
     (∃ v rest ops, s.sched = .host :: rest ∧ s.prog = .write 32 0x000 v :: ops ∧ v.getLsbD 3 = true) ∨
     (∃ bs : List Byte, bs.length ≤ 1 ∧ t.txWire ++ t.txFifo = s.txWire ++ s.txFifo ++ bs)) ∧
    (t.rx <:+ s.rx ∨ ∃ b rest, s.sched = .envRx b :: rest ∧ t.rx = s.rx ++ [b])

/-- No step changes TX_DEPTH or RTU_LEN_TABLE, and the machine refuses nothing (R9). That the two are fields of State is
the model's choice (logs 3, 4); the third open parameter of R9, the schedule, is used up turn by turn (log 2). -/
def Obligations.ParametersAreFixedAndNothingIsRefused : Prop :=
  ∀ s : State, (∀ r, step s ≠ .refused r) ∧
    ∀ t, step s = .next t → t.txDepth = s.txDepth ∧ t.lenTable = s.lenTable

/-- The invariant holds right after reset, with any TX_DEPTH of at least 1, length table, RX contents and schedule. -/
def Obligations.InvariantHoldsAtReset : Prop :=
  MachineInv State.reset ∧
  ∀ (depth : Nat) (table : List LenRow) (rx : List Byte) (sched : List Turn), 1 ≤ depth →
    MachineInv (resetWith depth table rx sched)

/-- Every step of every agent, in any interleaving, keeps the invariant: FBUF canonical, PHASE = IDLE exactly when
BUSY = 0, DONE and ERR never both 1, ERRCODE 0 exactly when ERR = 0, the TX FIFO within TX_DEPTH, the latches the legal
word in CMD, and the sequencer in a phase of the running command with its registers as the command's rule leaves them. -/
def Obligations.EveryStepKeepsTheInvariant : Prop :=
  ∀ s t : State, MachineInv s → step s = .next t → MachineInv t

/-- From a state that meets the invariant the only faults are the two of R258: HOST_BAD_ACCESS on a HOST turn, and
FBUF_UNWRITTEN when a range command or an encoder reads a byte below 256 that nothing has written. -/
def Obligations.OnlyTheSpecifiedFaults : Prop :=
  ∀ (s : State) (f : Fault), MachineInv s → step s = .fault f →
    (∃ bits addr, f = .hostBadAccess bits addr ∧
      ∃ rest ops, s.sched = .host :: rest ∧
        (s.prog = .read bits addr :: ops ∨ ∃ v, s.prog = .write bits addr v :: ops)) ∨
    (∃ k i, f = .fbufUnwritten k ∧ k < 256 ∧ Memory.read s.fbuf k = none ∧ fetch s = .run i ∧
      ((∃ a n, i = .crcRange a n) ∨ (∃ a n t, i = .lrcRange a n t) ∨ i = .tcpEnc ∨ i = .rtuEnc ∨ i = .asciiEnc))

/-- While a command runs undisturbed (the schedule used up) the machine's run is the command's run: `k` steps of the
machine are `k` block steps of the latched command (R65, R86). -/
def Obligations.MachineRunIsCommandRun : Prop :=
  ∀ (k : Nat) (s : State) (i : Instr), s.sched = [] → fetch s = .run i →
    Sys2Proof.core.run k s = execN i k s

/-- The encoders under the environment's schedule (R66; spec/10_state.md R41, R43), with any TX_DEPTH of at least 1. With
block turns, TX takes and RX bytes in any order, at every moment the TX wire and the TX FIFO together hold what they held
and a front part of the frame, counted in TX_COUNT, the FIFO never over TX_DEPTH; nothing faults and no error is raised;
and when the command has ended, it ended with DONE and the whole frame. It does end when a byte is taken before each of
its block turns (R140, R141, R170, R171, R210, R211). -/
def Obligations.EncodersSendTheFrameUnderAnySchedule : Prop :=
  ∀ (i : Instr) (s : State) (core frame : List Byte),
    (i, frame) ∈ [(.tcpEnc, tcpFrame s.mbapTid core), (.rtuEnc, rtuFrame core), (.asciiEnc, asciiFrame core)] →
    fetch s = .run i → s.phase = .init → s.flen.toNat = core.length → 2 ≤ core.length → core.length ≤ 254 →
    Holds s core.length core → 1 ≤ s.txDepth → s.txFifo.length ≤ s.txDepth →
    ((∀ turn ∈ s.sched, turn = .block ∨ turn = .envTake ∨ ∃ b, turn = .envRx b) →
      ∀ k, ∃ (t : State) (n : Nat), Sys2Proof.core.run k s = .next t ∧ n ≤ frame.length ∧
        t.txWire ++ t.txFifo = s.txWire ++ s.txFifo ++ frame.take n ∧ t.txCount = satAdd s.txCount n ∧
        t.txFifo.length ≤ t.txDepth ∧ t.err = s.err ∧ (t.busy = false → n = frame.length ∧ t.done = true)) ∧
    (s.sched = (List.replicate (frame.length + 1) [Turn.envTake, .block]).flatten →
      ∃ t : State, Sys2Proof.core.run (2 * (frame.length + 1)) s = .next t ∧ t.busy = false ∧ t.done = true ∧
        t.err = s.err ∧ t.txWire ++ t.txFifo = s.txWire ++ s.txFifo ++ frame)

end
end

