-- ==== Sys2Proof/Laws/Memory.lean ====
section
/-! SUPPORT. The laws of FBUF: read after write, the canonical form, and ranges of bytes. -/

namespace Sys2Proof.Machine

/-- A byte just written reads back. -/
@[simp] theorem Memory.read_write_same (m : Memory) (i : Nat) (b : Byte) : Memory.read (Memory.write m i b) i = some b := by
  induction m with
  | nil => simp [Memory.write, Memory.read]
  | cons c m ih =>
    obtain ⟨k, v⟩ := c
    simp only [Memory.write]
    split
    · simp [Memory.read]
    · split
      · simp [Memory.read]
      · rename_i h1 h2
        have : k ≠ i := fun h => h2 h.symm
        simp [Memory.read, this, ih]

/-- A write leaves every other byte alone. -/
theorem Memory.read_write_other {m : Memory} {i j : Nat} {b : Byte} (h : j ≠ i) :
    Memory.read (Memory.write m i b) j = Memory.read m j := by
  induction m with
  | nil => simp [Memory.write, Memory.read, h.symm]
  | cons c m ih =>
    obtain ⟨k, v⟩ := c
    simp only [Memory.write]
    split
    · simp [Memory.read, h.symm]
    · split
      · rename_i h2
        subst h2
        simp [Memory.read, h.symm]
      · simp [Memory.read, ih]

/-- What a cell of a written FBUF is: the new byte or an old cell. -/
theorem Memory.mem_write {m : Memory} {i : Nat} {b : Byte} {c : Host.Cell} (h : c ∈ Memory.write m i b) :
    c = (i, b) ∨ c ∈ m := by
  induction m with
  | nil => simpa [Memory.write] using h
  | cons d m ih =>
    obtain ⟨k, v⟩ := d
    simp only [Memory.write] at h
    split at h
    · simpa using h
    · split at h
      · rcases List.mem_cons.mp h with h | h
        · exact .inl h
        · exact .inr (List.mem_cons_of_mem _ h)
      · rcases List.mem_cons.mp h with h | h
        · exact .inr (h ▸ List.mem_cons_self)
        · rcases ih h with h | h
          · exact .inl h
          · exact .inr (List.mem_cons_of_mem _ h)

/-- A write of an FBUF byte keeps the canonical form. -/
theorem Memory.write_wf {m : Memory} {i : Nat} (b : Byte) (hm : Memory.wf m) (hi : i < Config.fbufSize) :
    Memory.wf (Memory.write m i b) := by
  refine ⟨?_, fun c hc => ?_⟩
  · have hp := hm.1
    clear hm
    induction m with
    | nil => simp [Memory.write]
    | cons d m ih =>
      obtain ⟨k, v⟩ := d
      simp only [Memory.write]
      have hd := List.pairwise_cons.mp hp
      split
      · rename_i h
        refine List.pairwise_cons.mpr ⟨fun c hc => ?_, hp⟩
        rcases List.mem_cons.mp hc with rfl | hc
        · exact h
        · exact Nat.lt_trans h (hd.1 c hc)
      · split
        · rename_i h1 h2
          subst h2
          exact List.pairwise_cons.mpr ⟨hd.1, hd.2⟩
        · rename_i h1 h2
          refine List.pairwise_cons.mpr ⟨fun c hc => ?_, ih hd.2⟩
          rcases Memory.mem_write hc with rfl | hc
          · show k < i
            omega
          · exact hd.1 c hc
  · rcases Memory.mem_write hc with rfl | hc
    · exact hi
    · exact hm.2 c hc

/-- The empty FBUF, as a hardware reset leaves it, is in canonical form. -/
theorem Memory.wf_nil : Memory.wf [] := ⟨List.Pairwise.nil, by simp⟩

/-! ## Ranges -/

/-- The range one longer: its first byte, then the rest. -/
theorem Memory.slice_succ {m : Memory} {i n : Nat} {bs : List Byte} :
    Memory.slice m i (n + 1) = .ok bs ↔
      ∃ b cs, bs = b :: cs ∧ Memory.read m i = some b ∧ Memory.slice m (i + 1) n = .ok cs := by
  simp only [Memory.slice]
  cases hr : Memory.read m i with
  | none => simp
  | some b =>
    cases hs : Memory.slice m (i + 1) n with
    | error j => simp
    | ok cs => simp [eq_comm]

/-- A range has the length asked for. -/
theorem Memory.slice_length {m : Memory} {i n : Nat} {bs : List Byte} (h : Memory.slice m i n = .ok bs) :
    bs.length = n := by
  induction n generalizing i bs with
  | zero => simp [Memory.slice] at h; simp [← h]
  | succ n ih =>
    obtain ⟨b, cs, rfl, -, hs⟩ := Memory.slice_succ.mp h
    simp [ih hs]

/-- A range one longer at its end is the range and the next byte. -/
theorem Memory.slice_snoc {m : Memory} {i n : Nat} {bs : List Byte} {b : Byte}
    (h : Memory.slice m i n = .ok bs) (hb : Memory.read m (i + n) = some b) :
    Memory.slice m i (n + 1) = .ok (bs ++ [b]) := by
  induction n generalizing i bs with
  | zero =>
    simp [Memory.slice] at h
    subst h
    rw [Nat.add_zero] at hb
    simp [Memory.slice, hb]
  | succ n ih =>
    obtain ⟨c, cs, rfl, hr, hs⟩ := Memory.slice_succ.mp h
    have hb' : Memory.read m (i + 1 + n) = some b := by rw [← hb]; congr 1; omega
    exact Memory.slice_succ.mpr ⟨c, cs ++ [b], rfl, hr, ih hs hb'⟩

/-- Two neighbouring ranges are one. -/
theorem Memory.slice_append {m : Memory} {i n k : Nat} {bs cs : List Byte}
    (h : Memory.slice m i n = .ok bs) (hk : Memory.slice m (i + n) k = .ok cs) :
    Memory.slice m i (n + k) = .ok (bs ++ cs) := by
  induction n generalizing i bs with
  | zero =>
    simp [Memory.slice] at h
    subst h
    simpa using hk
  | succ n ih =>
    obtain ⟨b, ds, rfl, hr, hs⟩ := Memory.slice_succ.mp h
    have hk' : Memory.slice m (i + 1 + n) k = .ok cs := by
      rw [← hk]; congr 1; omega
    have := ih hs hk'
    rw [show n + 1 + k = (n + k) + 1 by omega]
    exact Memory.slice_succ.mpr ⟨b, ds ++ cs, rfl, hr, this⟩

/-- The bytes of a range, one by one. -/
theorem Memory.read_of_slice {m : Memory} {i n k : Nat} {bs : List Byte} (h : Memory.slice m i n = .ok bs) (hk : k < n) :
    Memory.read m (i + k) = bs[k]? := by
  induction n generalizing i bs k with
  | zero => omega
  | succ n ih =>
    obtain ⟨b, cs, rfl, hr, hs⟩ := Memory.slice_succ.mp h
    cases k with
    | zero => simpa using hr
    | succ k =>
      have := ih hs (k := k) (by omega)
      rw [show i + (k + 1) = i + 1 + k by omega]
      simpa using this

/-- A range read off byte by byte. -/
theorem Memory.slice_of_read {m : Memory} {i : Nat} {bs : List Byte}
    (h : ∀ k (hk : k < bs.length), Memory.read m (i + k) = some bs[k]) : Memory.slice m i bs.length = .ok bs := by
  induction bs generalizing i with
  | nil => rfl
  | cons b bs ih =>
    refine Memory.slice_succ.mpr ⟨b, bs, rfl, h 0 (Nat.succ_pos _), ih fun k hk => ?_⟩
    rw [show i + 1 + k = i + (k + 1) by omega]
    exact h (k + 1) (Nat.succ_lt_succ hk)

/-- A range depends only on its own bytes. -/
theorem Memory.slice_congr {m m' : Memory} {i n : Nat} (h : ∀ k, i ≤ k → k < i + n → Memory.read m' k = Memory.read m k) :
    Memory.slice m' i n = Memory.slice m i n := by
  induction n generalizing i with
  | zero => rfl
  | succ n ih =>
    have hs := ih (i := i + 1) fun k h1 h2 => h k (by omega) (by omega)
    simp only [Memory.slice, h i (Nat.le_refl i) (by omega), hs]

/-- A write beside a range leaves it alone. -/
theorem Memory.slice_write_outside {m : Memory} {i n j : Nat} {b : Byte} (h : j < i ∨ i + n ≤ j) :
    Memory.slice (Memory.write m j b) i n = Memory.slice m i n :=
  Memory.slice_congr fun k h1 h2 => Memory.read_write_other (by omega)

/-- A write right after a range makes it one longer. -/
theorem Memory.slice_write_next {m : Memory} {i n : Nat} {bs : List Byte} (b : Byte) (h : Memory.slice m i n = .ok bs) :
    Memory.slice (Memory.write m (i + n) b) i (n + 1) = .ok (bs ++ [b]) :=
  Memory.slice_snoc (by rw [Memory.slice_write_outside (.inr (Nat.le_refl _)), h]) (Memory.read_write_same ..)

/-- The front of a range is a range. -/
theorem Memory.slice_take {m : Memory} {i n k : Nat} {bs : List Byte} (h : Memory.slice m i n = .ok bs) (hk : k ≤ n) :
    Memory.slice m i k = .ok (bs.take k) := by
  induction k generalizing i n bs with
  | zero => simp [Memory.slice]
  | succ k ih =>
    cases n with
    | zero => omega
    | succ n =>
      obtain ⟨b, cs, rfl, hr, hs⟩ := Memory.slice_succ.mp h
      exact Memory.slice_succ.mpr ⟨b, cs.take k, by simp, hr, ih hs (by omega)⟩

/-- The end of a range is a range. -/
theorem Memory.slice_drop {m : Memory} {i n k : Nat} {bs : List Byte} (h : Memory.slice m i n = .ok bs) (hk : k ≤ n) :
    Memory.slice m (i + k) (n - k) = .ok (bs.drop k) := by
  induction k generalizing i n bs with
  | zero => simpa using h
  | succ k ih =>
    cases n with
    | zero => omega
    | succ n =>
      obtain ⟨b, cs, rfl, -, hs⟩ := Memory.slice_succ.mp h
      have := ih hs (by omega)
      rw [show i + (k + 1) = i + 1 + k by omega, show n + 1 - (k + 1) = n - k by omega]
      simpa using this

/-- The range read fails exactly at an unwritten byte of it. -/
theorem Memory.slice_error {m : Memory} {i n j : Nat} (h : Memory.slice m i n = .error j) :
    i ≤ j ∧ j < i + n ∧ Memory.read m j = none := by
  induction n generalizing i with
  | zero => simp [Memory.slice] at h
  | succ n ih =>
    simp only [Memory.slice] at h
    cases hr : Memory.read m i with
    | none =>
      simp [hr] at h
      subst h
      exact ⟨Nat.le_refl _, by omega, hr⟩
    | some b =>
      cases hs : Memory.slice m (i + 1) n with
      | ok cs => simp [hr, hs] at h
      | error k =>
        simp [hr, hs] at h
        subst h
        have := ih hs
        exact ⟨by omega, by omega, this.2.2⟩

end Sys2Proof.Machine
end

