-- ==== Sys2Proof/Laws/State.lean ====
section
/-! SUPPORT. What each shared update of State leaves in every field, for simp: no later proof unfolds a record update. -/

namespace Sys2Proof.Machine

/-- Every field after `complete()` (spec/00_scope.md R11). -/
@[simp] theorem complete_fields (s : State) :
    (complete s).irqEn = s.irqEn ∧ (complete s).echoEn = s.echoEn ∧ (complete s).cmd = s.cmd ∧
    (complete s).busy = false ∧ (complete s).done = true ∧ (complete s).err = s.err ∧ (complete s).ovr = s.ovr ∧
    (complete s).errCode = s.errCode ∧ (complete s).crc = s.crc ∧ (complete s).lrcAcc = s.lrcAcc ∧
    (complete s).flen = s.flen ∧ (complete s).mbapTid = s.mbapTid ∧ (complete s).mbapPid = s.mbapPid ∧
    (complete s).mbapLen = s.mbapLen ∧ (complete s).rxCrc = s.rxCrc ∧ (complete s).garbageCnt = s.garbageCnt ∧
    (complete s).skipCnt = s.skipCnt ∧ (complete s).echoPend = s.echoPend ∧ (complete s).rxCount = s.rxCount ∧
    (complete s).txCount = s.txCount ∧ (complete s).fbuf = s.fbuf ∧ (complete s).phase = .idle ∧
    (complete s).lOp = s.lOp ∧ (complete s).lDir = s.lDir ∧ (complete s).lA = s.lA ∧ (complete s).lLen = s.lLen ∧
    (complete s).lTail = s.lTail ∧ (complete s).lEcho = s.lEcho ∧ (complete s).idx = s.idx ∧
    (complete s).cnt = s.cnt ∧ (complete s).h = s.h ∧ (complete s).nib = s.nib ∧ (complete s).g = s.g ∧
    (complete s).txFifo = s.txFifo ∧ (complete s).rx = s.rx ∧ (complete s).txWire = s.txWire ∧
    (complete s).txDepth = s.txDepth ∧ (complete s).lenTable = s.lenTable ∧ (complete s).sched = s.sched ∧
    (complete s).prog = s.prog ∧ (complete s).readData = s.readData ∧ (complete s).powerUp = s.powerUp :=
  ⟨rfl, rfl, rfl, rfl, rfl, rfl, rfl, rfl, rfl, rfl, rfl, rfl, rfl, rfl, rfl, rfl, rfl, rfl, rfl, rfl, rfl, rfl,
   rfl, rfl, rfl, rfl, rfl, rfl, rfl, rfl, rfl, rfl, rfl, rfl, rfl, rfl, rfl, rfl, rfl, rfl, rfl, rfl⟩

/-- Every field after `fail(code)` (R11). -/
@[simp] theorem fail_fields (c : ErrCode) (s : State) :
    (fail c s).irqEn = s.irqEn ∧ (fail c s).echoEn = s.echoEn ∧ (fail c s).cmd = s.cmd ∧ (fail c s).busy = false ∧
    (fail c s).done = s.done ∧ (fail c s).err = true ∧ (fail c s).ovr = s.ovr ∧ (fail c s).errCode = c ∧
    (fail c s).crc = s.crc ∧ (fail c s).lrcAcc = s.lrcAcc ∧ (fail c s).flen = s.flen ∧
    (fail c s).mbapTid = s.mbapTid ∧ (fail c s).mbapPid = s.mbapPid ∧ (fail c s).mbapLen = s.mbapLen ∧
    (fail c s).rxCrc = s.rxCrc ∧ (fail c s).garbageCnt = s.garbageCnt ∧ (fail c s).skipCnt = s.skipCnt ∧
    (fail c s).echoPend = s.echoPend ∧ (fail c s).rxCount = s.rxCount ∧ (fail c s).txCount = s.txCount ∧
    (fail c s).fbuf = s.fbuf ∧ (fail c s).phase = .idle ∧ (fail c s).lOp = s.lOp ∧ (fail c s).lDir = s.lDir ∧
    (fail c s).lA = s.lA ∧ (fail c s).lLen = s.lLen ∧ (fail c s).lTail = s.lTail ∧ (fail c s).lEcho = s.lEcho ∧
    (fail c s).idx = s.idx ∧ (fail c s).cnt = s.cnt ∧ (fail c s).h = s.h ∧ (fail c s).nib = s.nib ∧
    (fail c s).g = s.g ∧ (fail c s).txFifo = s.txFifo ∧ (fail c s).rx = s.rx ∧ (fail c s).txWire = s.txWire ∧
    (fail c s).txDepth = s.txDepth ∧ (fail c s).lenTable = s.lenTable ∧ (fail c s).sched = s.sched ∧
    (fail c s).prog = s.prog ∧ (fail c s).readData = s.readData ∧ (fail c s).powerUp = s.powerUp :=
  ⟨rfl, rfl, rfl, rfl, rfl, rfl, rfl, rfl, rfl, rfl, rfl, rfl, rfl, rfl, rfl, rfl, rfl, rfl, rfl, rfl, rfl, rfl,
   rfl, rfl, rfl, rfl, rfl, rfl, rfl, rfl, rfl, rfl, rfl, rfl, rfl, rfl, rfl, rfl, rfl, rfl, rfl, rfl⟩

/-- Every field after RxDrain() (R11). -/
@[simp] theorem rxDrain_fields (s : State) :
    (rxDrain s).irqEn = s.irqEn ∧ (rxDrain s).echoEn = s.echoEn ∧ (rxDrain s).cmd = s.cmd ∧
    (rxDrain s).busy = s.busy ∧ (rxDrain s).done = s.done ∧ (rxDrain s).err = s.err ∧ (rxDrain s).ovr = s.ovr ∧
    (rxDrain s).errCode = s.errCode ∧ (rxDrain s).crc = s.crc ∧ (rxDrain s).lrcAcc = s.lrcAcc ∧
    (rxDrain s).flen = s.flen ∧ (rxDrain s).mbapTid = s.mbapTid ∧ (rxDrain s).mbapPid = s.mbapPid ∧
    (rxDrain s).mbapLen = s.mbapLen ∧ (rxDrain s).rxCrc = s.rxCrc ∧ (rxDrain s).garbageCnt = s.garbageCnt ∧
    (rxDrain s).skipCnt = s.skipCnt ∧ (rxDrain s).echoPend = s.echoPend ∧
    (rxDrain s).rxCount = satAdd s.rxCount s.rx.length ∧ (rxDrain s).txCount = s.txCount ∧
    (rxDrain s).fbuf = s.fbuf ∧ (rxDrain s).phase = s.phase ∧ (rxDrain s).lOp = s.lOp ∧ (rxDrain s).lDir = s.lDir ∧
    (rxDrain s).lA = s.lA ∧ (rxDrain s).lLen = s.lLen ∧ (rxDrain s).lTail = s.lTail ∧ (rxDrain s).lEcho = s.lEcho ∧
    (rxDrain s).idx = s.idx ∧ (rxDrain s).cnt = s.cnt ∧ (rxDrain s).h = s.h ∧ (rxDrain s).nib = s.nib ∧
    (rxDrain s).g = s.g ∧ (rxDrain s).txFifo = s.txFifo ∧ (rxDrain s).rx = [] ∧ (rxDrain s).txWire = s.txWire ∧
    (rxDrain s).txDepth = s.txDepth ∧ (rxDrain s).lenTable = s.lenTable ∧ (rxDrain s).sched = s.sched ∧
    (rxDrain s).prog = s.prog ∧ (rxDrain s).readData = s.readData ∧ (rxDrain s).powerUp = s.powerUp :=
  ⟨rfl, rfl, rfl, rfl, rfl, rfl, rfl, rfl, rfl, rfl, rfl, rfl, rfl, rfl, rfl, rfl, rfl, rfl, rfl, rfl, rfl, rfl,
   rfl, rfl, rfl, rfl, rfl, rfl, rfl, rfl, rfl, rfl, rfl, rfl, rfl, rfl, rfl, rfl, rfl, rfl, rfl, rfl⟩

/-- Every field after TxPush(b) (R11). -/
@[simp] theorem txPush_fields (b : Byte) (s : State) :
    (txPush b s).irqEn = s.irqEn ∧ (txPush b s).echoEn = s.echoEn ∧ (txPush b s).cmd = s.cmd ∧
    (txPush b s).busy = s.busy ∧ (txPush b s).done = s.done ∧ (txPush b s).err = s.err ∧ (txPush b s).ovr = s.ovr ∧
    (txPush b s).errCode = s.errCode ∧ (txPush b s).crc = s.crc ∧ (txPush b s).lrcAcc = s.lrcAcc ∧
    (txPush b s).flen = s.flen ∧ (txPush b s).mbapTid = s.mbapTid ∧ (txPush b s).mbapPid = s.mbapPid ∧
    (txPush b s).mbapLen = s.mbapLen ∧ (txPush b s).rxCrc = s.rxCrc ∧ (txPush b s).garbageCnt = s.garbageCnt ∧
    (txPush b s).skipCnt = s.skipCnt ∧ (txPush b s).echoPend = s.echoPend ∧ (txPush b s).rxCount = s.rxCount ∧
    (txPush b s).txCount = satAdd s.txCount 1 ∧ (txPush b s).fbuf = s.fbuf ∧ (txPush b s).phase = s.phase ∧
    (txPush b s).lOp = s.lOp ∧ (txPush b s).lDir = s.lDir ∧ (txPush b s).lA = s.lA ∧ (txPush b s).lLen = s.lLen ∧
    (txPush b s).lTail = s.lTail ∧ (txPush b s).lEcho = s.lEcho ∧ (txPush b s).idx = s.idx ∧
    (txPush b s).cnt = s.cnt ∧ (txPush b s).h = s.h ∧ (txPush b s).nib = s.nib ∧ (txPush b s).g = s.g ∧
    (txPush b s).txFifo = s.txFifo ++ [b] ∧ (txPush b s).rx = s.rx ∧ (txPush b s).txWire = s.txWire ∧
    (txPush b s).txDepth = s.txDepth ∧ (txPush b s).lenTable = s.lenTable ∧ (txPush b s).sched = s.sched ∧
    (txPush b s).prog = s.prog ∧ (txPush b s).readData = s.readData ∧ (txPush b s).powerUp = s.powerUp :=
  ⟨rfl, rfl, rfl, rfl, rfl, rfl, rfl, rfl, rfl, rfl, rfl, rfl, rfl, rfl, rfl, rfl, rfl, rfl, rfl, rfl, rfl, rfl,
   rfl, rfl, rfl, rfl, rfl, rfl, rfl, rfl, rfl, rfl, rfl, rfl, rfl, rfl, rfl, rfl, rfl, rfl, rfl, rfl⟩

/-- Every field after TxPushSerial(b) (spec/42_rtu.md R171). -/
@[simp] theorem txPushSerial_fields (b : Byte) (s : State) :
    (txPushSerial b s).irqEn = s.irqEn ∧ (txPushSerial b s).echoEn = s.echoEn ∧ (txPushSerial b s).cmd = s.cmd ∧
    (txPushSerial b s).busy = s.busy ∧ (txPushSerial b s).done = s.done ∧ (txPushSerial b s).err = s.err ∧
    (txPushSerial b s).ovr = s.ovr ∧ (txPushSerial b s).errCode = s.errCode ∧ (txPushSerial b s).crc = s.crc ∧
    (txPushSerial b s).lrcAcc = s.lrcAcc ∧ (txPushSerial b s).flen = s.flen ∧
    (txPushSerial b s).mbapTid = s.mbapTid ∧ (txPushSerial b s).mbapPid = s.mbapPid ∧
    (txPushSerial b s).mbapLen = s.mbapLen ∧ (txPushSerial b s).rxCrc = s.rxCrc ∧
    (txPushSerial b s).garbageCnt = s.garbageCnt ∧ (txPushSerial b s).skipCnt = s.skipCnt ∧
    (txPushSerial b s).echoPend = (if s.lEcho then satAdd s.echoPend 1 else s.echoPend) ∧
    (txPushSerial b s).rxCount = s.rxCount ∧ (txPushSerial b s).txCount = satAdd s.txCount 1 ∧
    (txPushSerial b s).fbuf = s.fbuf ∧ (txPushSerial b s).phase = s.phase ∧ (txPushSerial b s).lOp = s.lOp ∧
    (txPushSerial b s).lDir = s.lDir ∧ (txPushSerial b s).lA = s.lA ∧ (txPushSerial b s).lLen = s.lLen ∧
    (txPushSerial b s).lTail = s.lTail ∧ (txPushSerial b s).lEcho = s.lEcho ∧ (txPushSerial b s).idx = s.idx ∧
    (txPushSerial b s).cnt = s.cnt ∧ (txPushSerial b s).h = s.h ∧ (txPushSerial b s).nib = s.nib ∧
    (txPushSerial b s).g = s.g ∧ (txPushSerial b s).txFifo = s.txFifo ++ [b] ∧ (txPushSerial b s).rx = s.rx ∧
    (txPushSerial b s).txWire = s.txWire ∧ (txPushSerial b s).txDepth = s.txDepth ∧
    (txPushSerial b s).lenTable = s.lenTable ∧ (txPushSerial b s).sched = s.sched ∧
    (txPushSerial b s).prog = s.prog ∧ (txPushSerial b s).readData = s.readData ∧
    (txPushSerial b s).powerUp = s.powerUp :=
  ⟨rfl, rfl, rfl, rfl, rfl, rfl, rfl, rfl, rfl, rfl, rfl, rfl, rfl, rfl, rfl, rfl, rfl, rfl, rfl, rfl, rfl, rfl,
   rfl, rfl, rfl, rfl, rfl, rfl, rfl, rfl, rfl, rfl, rfl, rfl, rfl, rfl, rfl, rfl, rfl, rfl, rfl, rfl⟩

/-- Every field after an RTU.DEC error (R182). -/
@[simp] theorem drainFail_fields (c : ErrCode) (s : State) :
    (drainFail c s).irqEn = s.irqEn ∧ (drainFail c s).echoEn = s.echoEn ∧ (drainFail c s).cmd = s.cmd ∧
    (drainFail c s).busy = false ∧ (drainFail c s).done = s.done ∧ (drainFail c s).err = true ∧
    (drainFail c s).ovr = s.ovr ∧ (drainFail c s).errCode = c ∧ (drainFail c s).crc = s.crc ∧
    (drainFail c s).lrcAcc = s.lrcAcc ∧ (drainFail c s).flen = s.flen ∧ (drainFail c s).mbapTid = s.mbapTid ∧
    (drainFail c s).mbapPid = s.mbapPid ∧ (drainFail c s).mbapLen = s.mbapLen ∧ (drainFail c s).rxCrc = s.rxCrc ∧
    (drainFail c s).garbageCnt = s.garbageCnt ∧ (drainFail c s).skipCnt = s.skipCnt ∧
    (drainFail c s).echoPend = s.echoPend ∧ (drainFail c s).rxCount = satAdd s.rxCount s.rx.length ∧
    (drainFail c s).txCount = s.txCount ∧ (drainFail c s).fbuf = s.fbuf ∧ (drainFail c s).phase = .idle ∧
    (drainFail c s).lOp = s.lOp ∧ (drainFail c s).lDir = s.lDir ∧ (drainFail c s).lA = s.lA ∧
    (drainFail c s).lLen = s.lLen ∧ (drainFail c s).lTail = s.lTail ∧ (drainFail c s).lEcho = s.lEcho ∧
    (drainFail c s).idx = s.idx ∧ (drainFail c s).cnt = s.cnt ∧ (drainFail c s).h = s.h ∧
    (drainFail c s).nib = s.nib ∧ (drainFail c s).g = s.g ∧ (drainFail c s).txFifo = s.txFifo ∧
    (drainFail c s).rx = [] ∧ (drainFail c s).txWire = s.txWire ∧ (drainFail c s).txDepth = s.txDepth ∧
    (drainFail c s).lenTable = s.lenTable ∧ (drainFail c s).sched = s.sched ∧ (drainFail c s).prog = s.prog ∧
    (drainFail c s).readData = s.readData ∧ (drainFail c s).powerUp = s.powerUp :=
  ⟨rfl, rfl, rfl, rfl, rfl, rfl, rfl, rfl, rfl, rfl, rfl, rfl, rfl, rfl, rfl, rfl, rfl, rfl, rfl, rfl, rfl, rfl,
   rfl, rfl, rfl, rfl, rfl, rfl, rfl, rfl, rfl, rfl, rfl, rfl, rfl, rfl, rfl, rfl, rfl, rfl, rfl, rfl⟩

/-- Every field after `restart` (spec/43_ascii.md R213). -/
@[simp] theorem restartFrame_fields (s : State) :
    (restartFrame s).irqEn = s.irqEn ∧ (restartFrame s).echoEn = s.echoEn ∧ (restartFrame s).cmd = s.cmd ∧
    (restartFrame s).busy = s.busy ∧ (restartFrame s).done = s.done ∧ (restartFrame s).err = s.err ∧
    (restartFrame s).ovr = s.ovr ∧ (restartFrame s).errCode = s.errCode ∧ (restartFrame s).crc = s.crc ∧
    (restartFrame s).lrcAcc = 0x00#8 ∧ (restartFrame s).flen = s.flen ∧ (restartFrame s).mbapTid = s.mbapTid ∧
    (restartFrame s).mbapPid = s.mbapPid ∧ (restartFrame s).mbapLen = s.mbapLen ∧ (restartFrame s).rxCrc = s.rxCrc ∧
    (restartFrame s).garbageCnt = s.garbageCnt ∧ (restartFrame s).skipCnt = s.skipCnt ∧
    (restartFrame s).echoPend = s.echoPend ∧ (restartFrame s).rxCount = s.rxCount ∧
    (restartFrame s).txCount = s.txCount ∧ (restartFrame s).fbuf = s.fbuf ∧ (restartFrame s).phase = .hi ∧
    (restartFrame s).lOp = s.lOp ∧ (restartFrame s).lDir = s.lDir ∧ (restartFrame s).lA = s.lA ∧
    (restartFrame s).lLen = s.lLen ∧ (restartFrame s).lTail = s.lTail ∧ (restartFrame s).lEcho = s.lEcho ∧
    (restartFrame s).idx = 0#9 ∧ (restartFrame s).cnt = s.cnt ∧ (restartFrame s).h = s.h ∧
    (restartFrame s).nib = s.nib ∧ (restartFrame s).g = s.g ∧ (restartFrame s).txFifo = s.txFifo ∧
    (restartFrame s).rx = s.rx ∧ (restartFrame s).txWire = s.txWire ∧ (restartFrame s).txDepth = s.txDepth ∧
    (restartFrame s).lenTable = s.lenTable ∧ (restartFrame s).sched = s.sched ∧ (restartFrame s).prog = s.prog ∧
    (restartFrame s).readData = s.readData ∧ (restartFrame s).powerUp = s.powerUp :=
  ⟨rfl, rfl, rfl, rfl, rfl, rfl, rfl, rfl, rfl, rfl, rfl, rfl, rfl, rfl, rfl, rfl, rfl, rfl, rfl, rfl, rfl, rfl,
   rfl, rfl, rfl, rfl, rfl, rfl, rfl, rfl, rfl, rfl, rfl, rfl, rfl, rfl, rfl, rfl, rfl, rfl, rfl, rfl⟩

/-- Every field after `skip` (R213). -/
@[simp] theorem skipFrame_fields (s : State) :
    (skipFrame s).irqEn = s.irqEn ∧ (skipFrame s).echoEn = s.echoEn ∧ (skipFrame s).cmd = s.cmd ∧
    (skipFrame s).busy = s.busy ∧ (skipFrame s).done = s.done ∧ (skipFrame s).err = s.err ∧
    (skipFrame s).ovr = s.ovr ∧ (skipFrame s).errCode = s.errCode ∧ (skipFrame s).crc = s.crc ∧
    (skipFrame s).lrcAcc = s.lrcAcc ∧ (skipFrame s).flen = s.flen ∧ (skipFrame s).mbapTid = s.mbapTid ∧
    (skipFrame s).mbapPid = s.mbapPid ∧ (skipFrame s).mbapLen = s.mbapLen ∧ (skipFrame s).rxCrc = s.rxCrc ∧
    (skipFrame s).garbageCnt = s.garbageCnt ∧ (skipFrame s).skipCnt = satAdd s.skipCnt 1 ∧
    (skipFrame s).echoPend = s.echoPend ∧ (skipFrame s).rxCount = s.rxCount ∧ (skipFrame s).txCount = s.txCount ∧
    (skipFrame s).fbuf = s.fbuf ∧ (skipFrame s).phase = s.phase ∧ (skipFrame s).lOp = s.lOp ∧
    (skipFrame s).lDir = s.lDir ∧ (skipFrame s).lA = s.lA ∧ (skipFrame s).lLen = s.lLen ∧
    (skipFrame s).lTail = s.lTail ∧ (skipFrame s).lEcho = s.lEcho ∧ (skipFrame s).idx = s.idx ∧
    (skipFrame s).cnt = s.cnt ∧ (skipFrame s).h = s.h ∧ (skipFrame s).nib = s.nib ∧ (skipFrame s).g = s.g ∧
    (skipFrame s).txFifo = s.txFifo ∧ (skipFrame s).rx = s.rx ∧ (skipFrame s).txWire = s.txWire ∧
    (skipFrame s).txDepth = s.txDepth ∧ (skipFrame s).lenTable = s.lenTable ∧ (skipFrame s).sched = s.sched ∧
    (skipFrame s).prog = s.prog ∧ (skipFrame s).readData = s.readData ∧ (skipFrame s).powerUp = s.powerUp :=
  ⟨rfl, rfl, rfl, rfl, rfl, rfl, rfl, rfl, rfl, rfl, rfl, rfl, rfl, rfl, rfl, rfl, rfl, rfl, rfl, rfl, rfl, rfl,
   rfl, rfl, rfl, rfl, rfl, rfl, rfl, rfl, rfl, rfl, rfl, rfl, rfl, rfl, rfl, rfl, rfl, rfl, rfl, rfl⟩

/-- Every field after a received byte (spec/10_state.md R42). -/
@[simp] theorem envRx_fields (b : Byte) (s : State) :
    (envRx b s).irqEn = s.irqEn ∧ (envRx b s).echoEn = s.echoEn ∧ (envRx b s).cmd = s.cmd ∧
    (envRx b s).busy = s.busy ∧ (envRx b s).done = s.done ∧ (envRx b s).err = s.err ∧ (envRx b s).ovr = s.ovr ∧
    (envRx b s).errCode = s.errCode ∧ (envRx b s).crc = s.crc ∧ (envRx b s).lrcAcc = s.lrcAcc ∧
    (envRx b s).flen = s.flen ∧ (envRx b s).mbapTid = s.mbapTid ∧ (envRx b s).mbapPid = s.mbapPid ∧
    (envRx b s).mbapLen = s.mbapLen ∧ (envRx b s).rxCrc = s.rxCrc ∧ (envRx b s).garbageCnt = s.garbageCnt ∧
    (envRx b s).skipCnt = s.skipCnt ∧ (envRx b s).echoPend = s.echoPend ∧ (envRx b s).rxCount = s.rxCount ∧
    (envRx b s).txCount = s.txCount ∧ (envRx b s).fbuf = s.fbuf ∧ (envRx b s).phase = s.phase ∧
    (envRx b s).lOp = s.lOp ∧ (envRx b s).lDir = s.lDir ∧ (envRx b s).lA = s.lA ∧ (envRx b s).lLen = s.lLen ∧
    (envRx b s).lTail = s.lTail ∧ (envRx b s).lEcho = s.lEcho ∧ (envRx b s).idx = s.idx ∧ (envRx b s).cnt = s.cnt ∧
    (envRx b s).h = s.h ∧ (envRx b s).nib = s.nib ∧ (envRx b s).g = s.g ∧ (envRx b s).txFifo = s.txFifo ∧
    (envRx b s).rx = s.rx ++ [b] ∧ (envRx b s).txWire = s.txWire ∧ (envRx b s).txDepth = s.txDepth ∧
    (envRx b s).lenTable = s.lenTable ∧ (envRx b s).sched = s.sched ∧ (envRx b s).prog = s.prog ∧
    (envRx b s).readData = s.readData ∧ (envRx b s).powerUp = s.powerUp :=
  ⟨rfl, rfl, rfl, rfl, rfl, rfl, rfl, rfl, rfl, rfl, rfl, rfl, rfl, rfl, rfl, rfl, rfl, rfl, rfl, rfl, rfl, rfl,
   rfl, rfl, rfl, rfl, rfl, rfl, rfl, rfl, rfl, rfl, rfl, rfl, rfl, rfl, rfl, rfl, rfl, rfl, rfl, rfl⟩

/-- Hardware reset leaves the environment's streams, the host's program and the parameters. -/
@[simp] theorem hardReset_kept (s : State) :
    (hardReset s).rx = s.rx ∧ (hardReset s).txWire = s.txWire ∧ (hardReset s).txDepth = s.txDepth ∧
    (hardReset s).lenTable = s.lenTable ∧ (hardReset s).sched = s.sched ∧ (hardReset s).readData = s.readData ∧
    (hardReset s).prog = s.prog :=
  ⟨rfl, rfl, rfl, rfl, rfl, rfl, rfl⟩

/-- Hardware reset leaves the block idle, with nothing in its buffers. -/
@[simp] theorem hardReset_cleared (s : State) :
    (hardReset s).busy = false ∧ (hardReset s).done = false ∧ (hardReset s).err = false ∧ (hardReset s).ovr = false ∧
    (hardReset s).errCode = .none ∧ (hardReset s).phase = .idle ∧ (hardReset s).fbuf = [] ∧
    (hardReset s).txFifo = [] :=
  ⟨rfl, rfl, rfl, rfl, rfl, rfl, rfl, rfl⟩

/-- The soft reset is the hardware reset with FBUF kept (spec/70_reset_and_hazards.md R281). -/
theorem softReset_eq (s : State) : softReset s = { hardReset s with fbuf := s.fbuf, powerUp := s.powerUp } := rfl

/-- CTRL.ABORT of an idle block is nothing (spec/60_exceptions.md R262). -/
theorem abort_idle {s : State} (h : s.busy = false) : abort s = s := by simp [abort, h]

/-- CTRL.ABORT of a running command is its failure with ABORTED, with FLEN = 0 for a decoder (R262). -/
theorem abort_busy {s : State} (h : s.busy = true) :
    abort s = { fail .aborted s with flen := if decoderLatched s then 0#9 else s.flen } := by simp [abort, h]

/-- One poll of `WAIT` changes `readData` and the program only, and goes on exactly when BUSY = 0
(spec/30_encoding.md R89). -/
theorem waitPoll_eq (ops : List HostOp) (s : State) :
    waitPoll ops s = { s with readData := some (statusWord s), prog := if s.busy then s.prog else ops } := by
  have h : (statusWord s).getLsbD 0 = s.busy := by
    simp only [statusWord, bit, BitVec.getLsbD_append]
    cases s.busy <;> rfl
  simp only [waitPoll, readReg, h]

/-- A host read changes `readData` only, or is a bad access (spec/20_memory.md R62, R63). -/
theorem hostRead_eq (bits addr : Nat) (s : State) :
    (∃ w, hostRead bits addr s = .next { s with readData := some w }) ∨
    hostRead bits addr s = .fault (.hostBadAccess bits addr) := by
  unfold hostRead
  split
  · exact .inr rfl
  · exact .inl ⟨_, rfl⟩
  · exact .inl ⟨_, rfl⟩
  · split <;> exact .inl ⟨_, rfl⟩

/-- A HOST turn is the next access of the host's program, one poll of `WAIT`, or nothing (spec/20_memory.md R65). -/
theorem hostTurn_cases (s : State) :
    (s.prog = [] ∧ hostTurn s = .next s) ∨
    (∃ bits addr ops, s.prog = .read bits addr :: ops ∧ hostTurn s = hostRead bits addr { s with prog := ops }) ∨
    (∃ bits addr v ops, s.prog = .write bits addr v :: ops ∧ hostTurn s = hostWrite bits addr v { s with prog := ops }) ∨
    (∃ ops, s.prog = .wait :: ops ∧ hostTurn s = .next (waitPoll ops s)) := by
  unfold hostTurn
  split
  · exact .inl ⟨‹_›, rfl⟩
  · exact .inr (.inl ⟨_, _, _, ‹_›, rfl⟩)
  · exact .inr (.inr (.inl ⟨_, _, _, _, ‹_›, rfl⟩))
  · exact .inr (.inr (.inr ⟨_, ‹_›, rfl⟩))

/-- A step that clears no error code names a real one: every code a command fails with is not 0. -/
theorem failCodes_ne_none : ErrCode.range ≠ .none ∧ ErrCode.length ≠ .none ∧ ErrCode.unsupportedFc ≠ .none ∧
    ErrCode.overflow ≠ .none ∧ ErrCode.crcMismatch ≠ .none ∧ ErrCode.aborted ≠ .none ∧ ErrCode.illegalCmd ≠ .none := by
  decide

end Sys2Proof.Machine
end

