-- ==== Sys2Proof/Laws/Ops.lean ====
section
/-! SUPPORT. What each shared operation of a command step can answer, said once; counters; the bytes of a halfword; runs
of a command. -/

namespace Sys2Proof.Machine

/-! ## Counters -/

/-- A saturating counter as a number. -/
@[simp] theorem satAdd_toNat (c : Half) (k : Nat) : (satAdd c k).toNat = min (c.toNat + k) 0xFFFF := by
  simp only [satAdd, sat16, BitVec.toNat_ofNat]
  omega

/-- Counting nothing. -/
@[simp] theorem satAdd_zero (c : Half) : satAdd c 0 = c := by
  apply BitVec.eq_of_toNat_eq
  have := c.isLt
  rw [satAdd_toNat]
  omega

/-- Counting twice is counting the sum. -/
@[simp] theorem satAdd_satAdd (c : Half) (j k : Nat) : satAdd (satAdd c j) k = satAdd c (j + k) := by
  apply BitVec.eq_of_toNat_eq
  simp only [satAdd_toNat]
  omega

/-! ## The bytes of a halfword -/

/-- A halfword is its two bytes. -/
@[simp] theorem hiByte_append_loByte (v : Half) : hiByte v ++ loByte v = v := by
  ext i hi
  simp only [hiByte, loByte, BitVec.getElem_append, BitVec.getElem_extractLsb']
  split
  · simp [BitVec.getLsbD_eq_getElem, hi]
  · rename_i h
    simp [show 8 + (i - 8) = i by omega, hi, BitVec.getLsbD_eq_getElem]

/-- The high byte of two bytes. -/
@[simp] theorem hiByte_append (a b : Byte) : hiByte (a ++ b) = a := by
  ext i hi
  simp only [hiByte, BitVec.getElem_extractLsb', BitVec.getLsbD_append]
  simp [show ¬ (8 + i < 8) by omega, BitVec.getLsbD_eq_getElem, hi]

/-- The low byte of two bytes. -/
@[simp] theorem loByte_append (a b : Byte) : loByte (a ++ b) = b := by
  ext i hi
  simp only [loByte, BitVec.getElem_extractLsb', BitVec.getLsbD_append]
  simp [hi, BitVec.getLsbD_eq_getElem]

/-- Both bytes of a halfword set, whatever it held. -/
theorem setHiByte_setLoByte (v : Half) (a b : Byte) : setHiByte (setLoByte v b) a = a ++ b := by
  simp [setHiByte, setLoByte]

/-! ## The operations of a command step -/

/-- A step on a non-empty RX goes on with its oldest byte. -/
theorem withRx_cons {s : State} {b : Byte} {rest : List Byte} (h : s.rx = b :: rest) (act : Byte → State → Out) :
    withRx s act = act b { s with rx := rest, rxCount := satAdd s.rxCount 1 } := by
  simp [withRx, h]

/-- A step on an empty RX holds. -/
theorem withRx_nil {s : State} (h : s.rx = []) (act : Byte → State → Out) : withRx s act = .next s := by
  simp [withRx, h]

/-- A popping step holds with the state unchanged, or goes on with the byte it took. -/
theorem withRx_cases (s : State) (act : Byte → State → Out) :
    (s.rx = [] ∧ withRx s act = .next s) ∨
    ∃ b rest, s.rx = b :: rest ∧ withRx s act = act b { s with rx := rest, rxCount := satAdd s.rxCount 1 } := by
  cases h : s.rx with
  | nil => exact .inl ⟨rfl, withRx_nil h act⟩
  | cons b rest => exact .inr ⟨b, rest, rfl, withRx_cons h act⟩

/-- A pushing step with room goes on. -/
theorem withTx_room {s : State} (h : s.txFifo.length < s.txDepth) (act : State → Out) : withTx s act = act s := by
  simp [withTx, h]

/-- A pushing step without room holds. -/
theorem withTx_full {s : State} (h : s.txDepth ≤ s.txFifo.length) (act : State → Out) : withTx s act = .next s := by
  simp [withTx, Nat.not_lt.mpr h]

/-- A pushing step holds with the state unchanged, or goes on with room for a byte. -/
theorem withTx_cases (s : State) (act : State → Out) :
    (s.txDepth ≤ s.txFifo.length ∧ withTx s act = .next s) ∨ (s.txFifo.length < s.txDepth ∧ withTx s act = act s) := by
  rcases Nat.lt_or_ge s.txFifo.length s.txDepth with h | h
  · exact .inr ⟨h, withTx_room h act⟩
  · exact .inl ⟨h, withTx_full h act⟩

/-- A written FBUF byte is read. -/
theorem withByte_some {s : State} {i : Nat} {b : Byte} (h : Memory.read s.fbuf i = some b) (hi : i < 256)
    (act : Byte → Out) : withByte i s act = act b := by
  simp [withByte, Config.fbufSize, hi, h]

/-- A step that reads an FBUF byte goes on with it, or faults because it is unwritten or does not exist. -/
theorem withByte_cases (i : Nat) (s : State) (act : Byte → Out) :
    (∃ b, i < 256 ∧ Memory.read s.fbuf i = some b ∧ withByte i s act = act b) ∨
    (i < 256 ∧ Memory.read s.fbuf i = none ∧ withByte i s act = .fault (.fbufUnwritten i)) ∨
    (256 ≤ i ∧ withByte i s act = .fault (.fbufNoSuchByte i)) := by
  rcases Nat.lt_or_ge i 256 with hi | hi
  · cases h : Memory.read s.fbuf i with
    | none => exact .inr (.inl ⟨hi, rfl, by simp [withByte, Config.fbufSize, hi, h]⟩)
    | some b => exact .inl ⟨b, hi, rfl, withByte_some h hi act⟩
  · exact .inr (.inr ⟨hi, by simp [withByte, Config.fbufSize, Nat.not_lt.mpr hi]⟩)

/-- An FBUF byte that exists is stored. -/
theorem storeByte_lt {s : State} {i : Nat} {b : Byte} (hi : i < 256) (act : State → Out) :
    storeByte i b s act = act { s with fbuf := Memory.write s.fbuf i b } := by
  simp [storeByte, Config.fbufSize, hi]

/-- A step that stores an FBUF byte goes on with it stored, or faults because it does not exist. -/
theorem storeByte_cases (i : Nat) (b : Byte) (s : State) (act : State → Out) :
    (i < 256 ∧ storeByte i b s act = act { s with fbuf := Memory.write s.fbuf i b }) ∨
    (256 ≤ i ∧ storeByte i b s act = .fault (.fbufNoSuchByte i)) := by
  rcases Nat.lt_or_ge i 256 with hi | hi
  · exact .inl ⟨hi, storeByte_lt hi act⟩
  · exact .inr ⟨hi, by simp [storeByte, Config.fbufSize, Nat.not_lt.mpr hi]⟩

/-- A step that reads a range goes on with it, or faults on its first unwritten byte. -/
theorem withBytes_cases (i n : Nat) (s : State) (act : List Byte → Out) :
    (∃ bs, Memory.slice s.fbuf i n = .ok bs ∧ withBytes i n s act = act bs) ∨
    (∃ j, Memory.slice s.fbuf i n = .error j ∧ withBytes i n s act = .fault (.fbufUnwritten j)) := by
  cases h : Memory.slice s.fbuf i n with
  | ok bs => exact .inl ⟨bs, rfl, by simp [withBytes, h]⟩
  | error j => exact .inr ⟨j, rfl, by simp [withBytes, h]⟩

/-! ## Bounds -/

/-- A core of 2 to 254 bytes. -/
theorem coreLenOk_iff (n : Nat) : coreLenOk n = true ↔ 2 ≤ n ∧ n ≤ 254 := by
  simp [coreLenOk, Config.maxCore]

/-- A core that is too short or too long. -/
theorem coreLenOk_false {n : Nat} (h : n < 2 ∨ 254 < n) : coreLenOk n = false := by
  have := coreLenOk_iff n
  cases hc : coreLenOk n
  · rfl
  · rw [hc] at this
    have := this.mp rfl
    omega

/-- A range within FBUF. -/
theorem rangeOk_iff (a n : Nat) : rangeOk a n = true ↔ a + n ≤ 256 := by
  simp [rangeOk, Config.fbufSize]

/-- A range that runs past FBUF. -/
theorem rangeOk_false {a n : Nat} (h : 256 < a + n) : rangeOk a n = false := by
  simp only [rangeOk, Config.fbufSize, decide_eq_false_iff_not]
  omega

/-! ## Checksums -/

/-- One more byte in a CRC. -/
theorem crc16_snoc (bs : List Byte) (b : Byte) : crc16 (bs ++ [b]) = crcStep (crc16 bs) b := by
  simp [crc16, List.foldl_append]

/-- One more byte in a sum. -/
theorem byteSum_snoc (bs : List Byte) (b : Byte) : byteSum (bs ++ [b]) = byteSum bs + b := by
  simp [byteSum, List.foldl_append]

/-- The LRC of a sum is its negative. -/
theorem lrcOfSum_eq_neg (a : Byte) : lrcOfSum a = -a := by
  apply BitVec.eq_of_toNat_eq
  simp only [lrcOfSum, BitVec.toNat_ofNat, BitVec.toNat_neg]
  omega

/-! ## Runs of a command -/

/-- A run that takes a first step. -/
theorem execN_succ {i : Instr} {k : Nat} {s t : State} (h : exec i s = .next t) : execN i (k + 1) s = execN i k t := by
  simp [execN, h]

/-- A run in two parts. -/
theorem execN_add {i : Instr} {j k : Nat} {s t : State} (h : execN i j s = .next t) :
    execN i (j + k) s = execN i k t := by
  induction j generalizing s with
  | zero =>
    simp [execN] at h
    simp [h]
  | succ j ih =>
    rw [show j + 1 + k = (j + k) + 1 by omega]
    cases he : exec i s with
    | next u =>
      rw [execN_succ he] at h ⊢
      exact ih h
    | fault f => simp [execN, he] at h
    | refused r => simp [execN, he] at h

/-- A command takes no step in phase IDLE (spec/30_encoding.md R86). -/
theorem exec_idle (i : Instr) {s : State} (h : s.phase = .idle) : exec i s = .next s := by
  cases i <;>
    simp [exec, execNop, execCrcInit, execCrcByte, execCrcRange, execLrcInit, execLrcByte, execLrcRange, execTcpEnc,
      execTcpDec, execRtuEnc, execRtuDec, execAsciiEnc, execAsciiDec, h]

end Sys2Proof.Machine
end

