-- ==== Sys2Proof/Laws/PerInstr.lean ====
section
/-! SUPPORT. For each command: its word lies in its own row of the opcode map (spec/30_encoding.md R83, R87). -/

namespace Sys2Proof.Laws.RowMatch

/-- The encoding of a well-formed command sets no bit that its row fixes to another value. -/
def Statement (i : Instr) : Prop := WellFormed i → (opRow i).hits (encode i) = true

/-- A number that fits a field, as the field's bits. -/
theorem ofNat_eq_field {k n : Nat} (h : n < 2 ^ k) : BitVec.ofNat 32 n = (BitVec.ofNat k n).setWidth 32 := by
  apply BitVec.eq_of_toNat_eq
  simp only [BitVec.toNat_ofNat, BitVec.toNat_setWidth, Nat.mod_eq_of_lt h]

/-- START and LEN lie outside the bits the CRC.RANGE row fixes. -/
theorem range_fields : (∀ s : BitVec 8, (s.setWidth 32 <<< 8) &&& 0xFE0000FF#32 = 0#32) ∧
    ∀ n : BitVec 9, (n.setWidth 32 <<< 16) &&& 0xFE0000FF#32 = 0#32 := ⟨by decide, by decide⟩

/-- START, LEN and TAIL lie outside the bits the LRC.RANGE row fixes. -/
theorem tail_fields : (∀ s : BitVec 8, (s.setWidth 32 <<< 8) &&& 0xE00000FF#32 = 0#32) ∧
    (∀ n : BitVec 9, (n.setWidth 32 <<< 16) &&& 0xE00000FF#32 = 0#32) ∧
    ∀ t : BitVec 4, (t.setWidth 32 <<< 25) &&& 0xE00000FF#32 = 0#32 := ⟨by decide, by decide, by decide⟩

theorem nop : Statement .nop := fun _ => by decide

theorem crcInit : Statement .crcInit := fun _ => by decide

theorem crcByte (d : Byte) : Statement (.crcByte d) := fun _ => by revert d; decide

theorem crcRange (start len : Nat) : Statement (.crcRange start len) := fun h => by
  have hb : start ≤ 255 ∧ len ≤ 511 := by
    unfold WellFormed Instr.wellFormed at h
    simpa using h
  simp only [opRow, encode, OpRow.hits, beq_iff_eq, BitVec.and_or_distrib_right]
  rw [ofNat_eq_field (k := 8) (n := start) (by omega), ofNat_eq_field (k := 9) (n := len) (by omega),
    range_fields.1, range_fields.2]
  decide

theorem lrcInit : Statement .lrcInit := fun _ => by decide

theorem lrcByte (d : Byte) : Statement (.lrcByte d) := fun _ => by revert d; decide

theorem lrcRange (start len tail : Nat) : Statement (.lrcRange start len tail) := fun h => by
  have hb : (start ≤ 255 ∧ len ≤ 511) ∧ tail ≤ 15 := by
    unfold WellFormed Instr.wellFormed at h
    simpa using h
  simp only [opRow, encode, OpRow.hits, beq_iff_eq, BitVec.and_or_distrib_right]
  rw [ofNat_eq_field (k := 8) (n := start) (by omega), ofNat_eq_field (k := 9) (n := len) (by omega),
    ofNat_eq_field (k := 4) (n := tail) (by omega), tail_fields.1, tail_fields.2.1, tail_fields.2.2]
  decide

theorem tcpEnc : Statement .tcpEnc := fun _ => by decide

theorem tcpDec : Statement .tcpDec := fun _ => by decide

theorem rtuEnc : Statement .rtuEnc := fun _ => by decide

theorem rtuDec (dir : Dir) : Statement (.rtuDec dir) := fun _ => by cases dir <;> decide

theorem asciiEnc : Statement .asciiEnc := fun _ => by decide

theorem asciiDec : Statement .asciiDec := fun _ => by decide

end Sys2Proof.Laws.RowMatch
end

