-- ==== Sys2Proof/Tests/Slice0.lean ====
section
/-! SUPPORT. The model's own tests: ill-formed commands, words written out from spec/30_encoding.md R81 and R83, one-step
tests with expected values from spec/95_test_vectors.md and the rules' examples, and for each statement with
hypotheses a witness that meets them. -/

namespace Sys2Proof.Tests
open Sys2Proof Sys2Proof.Machine

/-! ## Helpers -/

/-- The state after reset with the command `i` issued, and the sequencer put at phase `p`. -/
def running (i : Instr) (p : Phase) : State := { issue (encode i) State.reset with phase := p }

/-- The state with the host's program `ops` and HOST's turn next. -/
def hosting (ops : List HostOp) (s : State) : State := { s with prog := ops, sched := [.host] }

/-- The next state, if there is one. -/
def after : Out → Option State
  | .next t => some t
  | .fault _ => none
  | .refused _ => none

/-- The fault, if there is one. -/
def faultOf : Out → Option Fault
  | .next _ => none
  | .fault f => some f
  | .refused _ => none

/-! ## WellFormed refuses what does not fit (R87) -/

theorem test_illformed_crcRange_start : Instr.wellFormed (.crcRange 256 0) = false := by decide
theorem test_illformed_crcRange_len : Instr.wellFormed (.crcRange 0 512) = false := by decide
theorem test_illformed_lrcRange_start : Instr.wellFormed (.lrcRange 256 0 0) = false := by decide
theorem test_illformed_lrcRange_len : Instr.wellFormed (.lrcRange 0 512 0) = false := by decide
theorem test_illformed_lrcRange_tail : Instr.wellFormed (.lrcRange 0 0 16) = false := by decide
theorem test_wellformed_widest : Instr.wellFormed (.lrcRange 255 511 15) = true := by decide

/-! ## Words bit by bit: 31:29 reserved, 28:25 TAIL, 24:16 LEN, 15:8 DATA or START, 7:5 reserved, 4 DIR, 3:0 OP (R81) -/

theorem test_word_nop : decode 0b000_0000_000000000_00000000_000_0_0000#32 = .ok .nop := by decide
theorem test_word_crcInit : decode 0b000_0000_000000000_00000000_000_0_0001#32 = .ok .crcInit := by decide
theorem test_word_crcByte : decode 0b000_0000_000000000_10000001_000_0_0010#32 = .ok (.crcByte 0x81#8) := by decide
theorem test_word_crcRange : decode 0b000_0000_100000010_00000011_000_0_0011#32 = .ok (.crcRange 3 258) := by decide
theorem test_word_lrcInit : decode 0b000_0000_000000000_00000000_000_0_0100#32 = .ok .lrcInit := by decide
theorem test_word_lrcByte : decode 0b000_0000_000000000_01000010_000_0_0101#32 = .ok (.lrcByte 0x42#8) := by decide
theorem test_word_lrcRange : decode 0b000_1001_000000111_00000101_000_0_0110#32 = .ok (.lrcRange 5 7 9) := by decide
theorem test_word_tcpEnc : decode 0b000_0000_000000000_00000000_000_0_0111#32 = .ok .tcpEnc := by decide
theorem test_word_tcpDec : decode 0b000_0000_000000000_00000000_000_0_1000#32 = .ok .tcpDec := by decide
theorem test_word_rtuEnc : decode 0b000_0000_000000000_00000000_000_0_1001#32 = .ok .rtuEnc := by decide
theorem test_word_rtuDec_req : decode 0b000_0000_000000000_00000000_000_0_1010#32 = .ok (.rtuDec .req) := by decide
theorem test_word_rtuDec_rsp : decode 0b000_0000_000000000_00000000_000_1_1010#32 = .ok (.rtuDec .rsp) := by decide
theorem test_word_asciiEnc : decode 0b000_0000_000000000_00000000_000_0_1011#32 = .ok .asciiEnc := by decide
theorem test_word_asciiDec : decode 0b000_0000_000000000_00000000_000_0_1100#32 = .ok .asciiDec := by decide

/-- Vectors E-13 and E-14. -/
theorem test_word_upper_bits : decode 0xFFFFFF02#32 = .error .reservedBit ∧
    decode 0x01FF0103#32 = .ok (.crcRange 1 511) := by decide

theorem test_decodeTableWord : decodeTableWord 32 0x0000001A = some (.rtuDec .rsp) ∧ decodeTableWord 32 0xD = none := by
  decide

/-- A command word placed for the next fetch is the command the next step runs. -/
theorem test_withFetchWord : (after (step (State.reset.withFetchWord 32 0x00000102))).map (fun t => (t.crc, t.done, t.busy))
    = some (0x807E#16, true, false) := by decide

/-! ## One step of each command -/

/-- R103: STATUS = 0x2 afterwards. -/
theorem test_nop_done : (after (exec .nop (running .nop .init))).map statusWord = some 0x002#32 := by decide

/-- Vector C-17. -/
theorem test_crcInit : (after (exec .crcInit { running .crcInit .init with crc := 0x1234#16 })).map (fun t => t.crc)
    = some 0xFFFF#16 := by decide

/-- Vector C-4. -/
theorem test_crcByte : (after (exec (.crcByte 0x01#8) (running (.crcByte 0x01#8) .init))).map (fun t => (t.crc, statusWord t))
    = some (0x807E#16, 0x002#32) := by decide

/-- Vector C-6, the third byte: a zero byte is data. -/
theorem test_crcByte_zero : (after (exec (.crcByte 0x00#8) { running (.crcByte 0x00#8) .init with crc := 0x2140#16 })).map
    (fun t => t.crc) = some 0xF020#16 := by decide

/-- Vector C-9: RANGE, CRC unchanged. -/
theorem test_crcRange_refused : (after (exec (.crcRange 250 7) { running (.crcRange 250 7) .init with crc := 0x1234#16 })).map
    (fun t => (statusWord t, t.crc)) = some (0x024#32, 0x1234#16) := by decide

/-- Vector C-16: an unwritten byte. -/
theorem test_crcRange_unwritten :
    faultOf (exec (.crcRange 0 1) { running (.crcRange 0 1) .run with cnt := 1#9 }) = some (.fbufUnwritten 0) := by decide

/-- Vector L-1. -/
theorem test_lrcInit : (after (exec .lrcInit { running .lrcInit .init with lrcAcc := 0x33#8 })).map
    (fun t => (t.lrcAcc, lrcReg t)) = some (0x00#8, 0x00#8) := by decide

/-- Vector L-7: the sum wraps. -/
theorem test_lrcByte_wraps : (after (exec (.lrcByte 0x01#8) { running (.lrcByte 0x01#8) .init with lrcAcc := 0xFF#8 })).map
    (fun t => (t.lrcAcc, lrcReg t)) = some (0x00#8, 0x00#8) := by decide

/-- R108's example. -/
theorem test_lrcByte : (after (exec (.lrcByte 0x0E#8) (running (.lrcByte 0x0E#8) .init))).map (fun t => lrcReg t)
    = some 0xF2#8 := by decide

/-- Vector L-5: TAIL > LEN, LRC_ACC unchanged. -/
theorem test_lrcRange_tail : (after (exec (.lrcRange 0 2 3) { running (.lrcRange 0 2 3) .init with lrcAcc := 0x33#8 })).map
    (fun t => (statusWord t, t.lrcAcc)) = some (0x024#32, 0x33#8) := by decide

/-- Vector L-6: nothing is summed. -/
theorem test_lrcRange_empty : (after (exec (.lrcRange 5 3 3) (running (.lrcRange 5 3 3) .init))).map (fun t => (t.cnt, t.phase))
    = some (0#9, .run) := by decide

/-- Vector T-3: FLEN = 255, MBAP_LEN kept. -/
theorem test_tcpEnc_length : (after (exec .tcpEnc { running .tcpEnc .init with flen := 255#9, mbapLen := 0x0037#16 })).map
    (fun t => (statusWord t, t.mbapLen, t.txFifo)) = some (0x034#32, 0x0037#16, []) := by decide

/-- Vector T-2: the protocol id sent is 0 whatever MBAP_PID holds. -/
theorem test_tcpEnc_pid : (after (exec .tcpEnc { running .tcpEnc .hdr with h := 2#3, mbapPid := 0x1234#16 })).map
    (fun t => (t.txFifo, t.h)) = some ([0x00#8], 3#3) := by decide

/-- Vector T-9's fourth header byte: the low byte of the protocol id. -/
theorem test_tcpDec_pid : (after (exec .tcpDec { running .tcpDec .hdr with h := 3#3, mbapPid := 0xAB00#16, rx := [0xCD#8] })).map
    (fun t => (t.mbapPid, t.rxCount)) = some (0xABCD#16, 1#16) := by decide

/-- Vector T-7: a length field of 1; RX is not drained. -/
theorem test_tcpDec_length : (after (exec .tcpDec { running .tcpDec .hdr with h := 5#3, rx := [0x01#8, 0xAA#8, 0xBB#8] })).map
    (fun t => (statusWord t, t.mbapLen, t.rx)) = some (0x034#32, 0x0001#16, [0xAA#8, 0xBB#8]) := by decide

/-- Vector R-H3: the INIT step drains RX and clears ECHO_PEND. -/
theorem test_rtuEnc_flush : (after (exec .rtuEnc
    { running .rtuEnc .init with flen := 2#9, echoPend := 5#16, rx := [0xAA#8, 0xBB#8] })).map
    (fun t => (t.rxCount, t.echoPend, t.rx)) = some (2#16, 0#16, []) := by decide

/-- Vector R-1: the low CRC byte goes first. -/
theorem test_rtuEnc_crcLo : (after (exec .rtuEnc { running .rtuEnc .crcLo with crc := 0xCDC5#16 })).map (fun t => t.txFifo)
    = some [0xC5#8] := by decide

/-- Vector R-E2: FC 9 has no length; RX is drained. -/
theorem test_rtuDec_unsupported : (after (exec (.rtuDec .req)
    { running (.rtuDec .req) .fc with crc := 0x807E#16, rxCount := 1#16, rx := [0x09#8, 0x00#8, 0x00#8, 0x12#8] })).map
    (fun t => (statusWord t, t.crc, t.rxCount, t.rx)) = some (0x044#32, 0x26C0#16, 5#16, []) := by decide

/-- Vector R-10: an FC 7 request has no payload. -/
theorem test_rtuDec_empty_payload : (after (exec (.rtuDec .req) { running (.rtuDec .req) .fc with rx := [0x07#8] })).map
    (fun t => (t.phase, t.g)) = some (.crcLo, some (.fixed 0)) := by decide

/-- Vector A-7. -/
theorem test_asciiEnc_length : (after (exec .asciiEnc { running .asciiEnc .init with flen := 1#9 })).map statusWord
    = some 0x034#32 := by decide

/-- Vector A-4: upper case. -/
theorem test_asciiEnc_digit : (after (exec .asciiEnc { running .asciiEnc .hi with fbuf := [(0, 0xF7#8)] })).map
    (fun t => t.txFifo) = some [0x46#8] := by decide

/-- Vector A-D2: a garbage byte. -/
theorem test_asciiDec_garbage : (after (exec .asciiDec { running .asciiDec .hunt with rx := [0x78#8] })).map
    (fun t => (t.garbageCnt, t.phase)) = some (1#16, .hunt) := by decide

/-- Vector A-D9: two bytes are too short. -/
theorem test_asciiDec_short : (after (exec .asciiDec { running .asciiDec .hi with idx := 2#9, rx := [0x0D#8] })).map
    (fun t => (t.skipCnt, t.phase, t.err)) = some (1#16, .hunt, false) := by decide

/-! ## Checksums and the host -/

/-- Vectors C-2 and C-3. -/
theorem test_crc16 : crc16 [] = 0xFFFF#16 ∧ crc16 [0x00#8] = 0x40BF#16 ∧ crc16 [0xFF#8] = 0x00FF#16 ∧
    crc16 [0x41#8] = 0x707F#16 := by decide

/-- Vector L-9. -/
theorem test_lrc : lrc [0x80#8, 0x80#8] = 0x00#8 ∧ lrc [0xFF#8] = 0x01#8 ∧ lrc [0x01#8] = 0xFF#8 ∧ lrc [] = 0x00#8 := by
  decide

/-- Vector E-4. -/
theorem test_illegal_word : (after (hostWrite 32 0x004 0x0000000D#32 State.reset)).map (fun t => (statusWord t, t.cmd))
    = some (0x014#32, 0x0000000D#32) := by decide

/-- Vector C-18's issue: the counters are cleared. -/
theorem test_issue_clears_counts : (after (hostWrite 32 0x004 0#32 { State.reset with rxCount := 3#16, txCount := 4#16 })).map
    (fun t => (t.rxCount, t.txCount)) = some (0#16, 0#16) := by decide

/-- R63: an unwritten byte read again with no step between returns the same value. -/
theorem test_unwritten_read_again : ∀ t, hostRead 8 0x105 State.reset = .next t → hostRead 8 0x105 t = .next t := by
  intro t h
  injection h with h
  subst h
  rfl

/-- R89: WAIT polls again while BUSY reads 1, and ends when it reads 0. -/
theorem test_wait : (after (step (hosting (run .nop).tail (running .nop .init)))).map (fun t => t.prog) = some [.wait] ∧
    (after (step (hosting (run .nop).tail State.reset))).map (fun t => t.prog) = some [] := by decide

/-- R88: `CMD NOP` issues the command. -/
theorem test_cmd : (after (step (hosting (run .nop) State.reset))).map (fun t => (t.busy, t.phase, t.prog)) =
    some (true, .init, [.wait]) := by decide

/-- R262: a decoder aborted before its INIT step leaves FLEN = 0, an aborted encoder leaves FLEN. -/
theorem test_abort_flen : (after (hostWrite 32 0x000 0x4#32 { running .asciiDec .init with flen := 9#9 })).map
      (fun t => (statusWord t, t.flen)) = some (0x074#32, 0#9) ∧
    (after (hostWrite 32 0x000 0x4#32 { running .rtuEnc .core with flen := 9#9 })).map
      (fun t => (statusWord t, t.flen)) = some (0x074#32, 9#9) := by decide

/-! ## Witnesses: for each statement, states and operands that meet the hypotheses of each of its clauses -/

theorem witness_DecodeOfEncodeIsTheCommand : WellFormed (.lrcRange 255 511 15) ∧ WellFormed (.crcRange 255 511) ∧
    WellFormed (.crcByte 0xFF#8) ∧ WellFormed (.rtuDec .rsp) := by decide

theorem witness_LegalWordIsEncodingOfItsCommand : decode 0x1FFFFF06#32 = .ok (.lrcRange 255 511 15) := by decide

theorem witness_IllegalWordRaisesIllegalCmd : 0xD ≤ (opField 0xFFFFFFFD#32).toNat ∧ State.reset.busy = false ∧
    (∀ r ∈ opcodeTable, r.hits 0x00000010#32 = false) := by decide

theorem witness_AssemblerGivesTheWord : 255 < 256 := by decide

theorem witness_CmdWriteIssues : (running .nop .init).busy = true ∧ State.reset.busy = false ∧
    decode 0x0000000D#32 = .error .reservedOpcode ∧ decode 0x0000000C#32 = .ok .asciiDec := by decide

theorem witness_IssuedCommandIsFetched : State.reset.busy = false ∧ decode 0x0000001A#32 = .ok (.rtuDec .rsp) ∧
    ∃ t, hostWrite 32 0x004 0x0000001A#32 State.reset = .next t := ⟨rfl, by decide, _, rfl⟩

theorem witness_StepRunsTheLatchedCommand : (running .tcpDec .init).busy = true ∧
    decode (latchedWord (running .tcpDec .init)) = .ok .tcpDec ∧ (running .tcpDec .init).sched = [] ∧
    { running .tcpDec .init with sched := [.block] }.sched = .block :: [] := by decide

theorem witness_IdleBlockHostAndEnvironmentTurns : State.reset.busy = false ∧ State.reset.sched = [] ∧
    { State.reset with sched := [.block] }.sched = .block :: [] ∧
    (∀ op ∈ [HostOp.read 8 0x1FF, .write 32 0x000 0x8#32, .wait],
      (hosting [op] State.reset).sched = .host :: [] ∧ (hosting [op] State.reset).prog = op :: []) ∧
    ((hosting [] State.reset).sched = .host :: [] ∧ (hosting [] State.reset).prog = []) ∧
    ({ State.reset with sched := [.envTake] }.sched = .envTake :: [] ∧ State.reset.txFifo = []) ∧
    { State.reset with sched := [.envRx 0x3A#8] }.sched = .envRx 0x3A#8 :: [] ∧
    { State.reset with sched := [.envTake], txFifo := [0x3A#8] }.sched = .envTake :: [] ∧
    { State.reset with sched := [.envTake], txFifo := [0x3A#8] }.txFifo = 0x3A#8 :: [] := by decide

theorem witness_NopCompletes : (running .nop .init).phase = .init ∧ State.reset.busy = false := by decide

theorem witness_CrcInitAndByteComplete : (running .crcInit .init).phase = .init ∧
    (running (.crcByte 0xFF#8) .init).phase = .init := by decide

theorem witness_LrcInitAndByteComplete : (running .lrcInit .init).phase = .init ∧
    (∃ t, exec .lrcInit (running .lrcInit .init) = .next t) ∧ (running (.lrcByte 0xFF#8) .init).phase = .init :=
  ⟨by decide, ⟨_, rfl⟩, by decide⟩

/-- A range command before its last byte, FBUF[255]. -/
def rangeState (i : Instr) : State := { running i .run with idx := 255#9, cnt := 1#9, fbuf := [(255, 0x5A#8)] }

/-- The hypotheses of a byte step of a range command on the FBUF byte `b`, none if it is unwritten. -/
abbrev ByteStep (s : State) (b : Option Byte) : Prop :=
  s.phase = .run ∧ s.cnt ≠ 0#9 ∧ s.idx.toNat < 256 ∧ Memory.read s.fbuf s.idx.toNat = b

theorem witness_CrcRangeSteps : ((running (.crcRange 255 2) .init).phase = .init ∧ 256 < 255 + 2) ∧
    ((running (.crcRange 255 1) .init).phase = .init ∧ 255 + 1 ≤ 256) ∧ ByteStep (rangeState (.crcRange 255 1)) (some 0x5A#8) ∧
    ((running (.crcRange 0 0) .run).phase = .run ∧ (running (.crcRange 0 0) .run).cnt = 0#9) ∧
    ByteStep { rangeState (.crcRange 255 1) with fbuf := [] } none := by decide

theorem witness_CrcRangeComputesCrc16 :
    let s := { rangeState (.crcRange 255 1) with phase := .init }
    s.phase = .init ∧ 255 + 1 ≤ 256 ∧ Memory.slice s.fbuf 255 1 = .ok [0x5A#8] := by decide

theorem witness_LrcRangeSteps : ((running (.lrcRange 255 2 0) .init).phase = .init ∧ (256 < 255 + 2 ∨ 2 < 0)) ∧
    ((running (.lrcRange 0 2 3) .init).phase = .init ∧ (256 < 0 + 2 ∨ 2 < 3)) ∧
    ((running (.lrcRange 255 1 1) .init).phase = .init ∧ 255 + 1 ≤ 256 ∧ 1 ≤ 1) ∧
    ByteStep (rangeState (.lrcRange 255 1 0)) (some 0x5A#8) ∧
    ((running (.lrcRange 0 0 0) .run).phase = .run ∧ (running (.lrcRange 0 0 0) .run).cnt = 0#9) ∧
    ByteStep { rangeState (.lrcRange 255 1 0) with fbuf := [] } none := by decide

theorem witness_LrcRangeComputesLrc :
    let s := { running (.lrcRange 0 2 1) .init with fbuf := [(0, 0x5A#8)] }
    s.phase = .init ∧ 0 + 2 ≤ 256 ∧ 1 ≤ 2 ∧ Memory.slice s.fbuf 0 (2 - 1) = .ok [0x5A#8] := by decide

theorem witness_ChecksumsDetectSingleBitErrors : 7 < 8 := by decide

theorem witness_ChecksumCommandsFrame : (∃ t, exec .nop (running .nop .init) = .next t) ∧
    (∃ t, exec .crcInit (running .crcInit .init) = .next t) ∧
    (∃ t, exec (.crcByte 1) (running (.crcByte 1) .init) = .next t) ∧
    (∃ t, exec (.crcRange 0 0) (running (.crcRange 0 0) .run) = .next t) ∧
    (∃ t, exec .lrcInit (running .lrcInit .init) = .next t) ∧
    (∃ t, exec (.lrcByte 1) (running (.lrcByte 1) .init) = .next t) ∧
    (∃ t, exec (.lrcRange 0 0 0) (running (.lrcRange 0 0 0) .run) = .next t) :=
  ⟨⟨_, rfl⟩, ⟨_, rfl⟩, ⟨_, rfl⟩, ⟨_, rfl⟩, ⟨_, rfl⟩, ⟨_, rfl⟩, ⟨_, rfl⟩⟩

/-- A two-byte core. -/
def core2 : List Byte := [0x01#8, 0x07#8]

/-- An encoder before its first byte. -/
def encState (i : Instr) (p : Phase) : State := { running i p with flen := 2#9, fbuf := [(0, 0x01#8), (1, 0x07#8)] }

/-- An encoder about to check FLEN. -/
def atLen (i : Instr) (n : BitVec 9) : State := { running i .init with flen := n }

/-- The hypotheses of the LENGTH clause of an encoder. -/
abbrev BadLen (s : State) : Prop := s.phase = .init ∧ (s.flen.toNat < 2 ∨ 254 < s.flen.toNat)

/-- The hypotheses of the INIT clause of an encoder. -/
abbrev GoodLen (s : State) : Prop := s.phase = .init ∧ 2 ≤ s.flen.toNat ∧ s.flen.toNat ≤ 254

/-- The hypotheses of a clause that sends the FBUF byte `b`, none if it is unwritten. -/
abbrev PushStep (s : State) (p : Phase) (b : Option Byte) : Prop :=
  s.phase = p ∧ s.txFifo.length < s.txDepth ∧ s.idx.toNat < 256 ∧ Memory.read s.fbuf s.idx.toNat = b

theorem witness_TcpEncSteps : BadLen (atLen .tcpEnc 1#9) ∧ BadLen (atLen .tcpEnc 255#9) ∧ GoodLen (atLen .tcpEnc 2#9) ∧
    GoodLen (atLen .tcpEnc 254#9) ∧
    (let s := { encState .tcpEnc .hdr with h := 5#3, mbapLen := 0x00FE#16 }
     s.phase = .hdr ∧ s.txFifo.length < s.txDepth ∧
     [hiByte s.mbapTid, loByte s.mbapTid, 0x00#8, 0x00#8, hiByte s.mbapLen, loByte s.mbapLen][s.h.toNat]? = some 0xFE#8) ∧
    PushStep (encState .tcpEnc .body) .body (some 0x01#8) ∧
    PushStep { encState .tcpEnc .body with idx := 255#9 } .body none := by decide

theorem witness_TcpEncSendsTheFrame : (encState .tcpEnc .init).phase = .init ∧
    (encState .tcpEnc .init).flen.toNat = core2.length ∧ 2 ≤ core2.length ∧ core2.length ≤ 254 ∧
    Holds (encState .tcpEnc .init) core2.length core2 ∧
    (encState .tcpEnc .init).txFifo.length + (core2.length + 6) ≤ (encState .tcpEnc .init).txDepth := by decide

/-- TCP.DEC with one header byte or one body byte to come. -/
def tcpDecState (p : Phase) (h : BitVec 3) (b : Byte) : State :=
  { running .tcpDec p with h := h, mbapLen := 0x0002#16, idx := 1#9, rx := [b] }

theorem witness_TcpDecSteps : (running .tcpDec .init).phase = .init ∧
    (∀ h ∈ [0#3, 4#3], (tcpDecState .hdr h 0x00#8).phase = .hdr ∧ (tcpDecState .hdr h 0x00#8).rx = 0x00#8 :: [] ∧
      (tcpDecState .hdr h 0x00#8).h.toNat < 5) ∧
    (∀ b ∈ [0x02#8, 0xFE#8], (tcpDecState .hdr 5#3 b).phase = .hdr ∧ (tcpDecState .hdr 5#3 b).rx = b :: [] ∧
      (tcpDecState .hdr 5#3 b).h = 5#3 ∧ coreLenOk (hiByte (tcpDecState .hdr 5#3 b).mbapLen ++ b).toNat = true) ∧
    (∀ b ∈ [0x01#8, 0xFF#8], (tcpDecState .hdr 5#3 b).phase = .hdr ∧ (tcpDecState .hdr 5#3 b).rx = b :: [] ∧
      (tcpDecState .hdr 5#3 b).h = 5#3 ∧ ((hiByte (tcpDecState .hdr 5#3 b).mbapLen ++ b).toNat < 2 ∨
        254 < (hiByte (tcpDecState .hdr 5#3 b).mbapLen ++ b).toNat)) ∧
    ((tcpDecState .body 6#3 0x2B#8).phase = .body ∧ (tcpDecState .body 6#3 0x2B#8).rx = 0x2B#8 :: [] ∧
      (tcpDecState .body 6#3 0x2B#8).idx.toNat < 256) := by decide

theorem witness_TcpDecReceivesTheFrame :
    let s := { running .tcpDec .init with
      rx := [0x12#8, 0x34#8, 0xAB#8, 0xCD#8, 0x00#8, 0x02#8, 0x01#8, 0x07#8, 0xEE#8] }
    s.phase = .init ∧ (2#16).toNat = core2.length ∧ 2 ≤ core2.length ∧ core2.length ≤ 254 ∧
    s.rx = [hiByte 0x1234#16, loByte 0x1234#16, hiByte 0xABCD#16, loByte 0xABCD#16, hiByte 2#16, loByte 2#16] ++ core2 ++
      [0xEE#8] := by decide

theorem witness_TcpCommandsFrame : (∃ t, exec .tcpEnc (encState .tcpEnc .body) = .next t) ∧
    (∃ t, exec .tcpDec (tcpDecState .body 6#3 0x2B#8) = .next t) := ⟨⟨_, rfl⟩, ⟨_, rfl⟩⟩

theorem witness_RtuEncSteps : BadLen (atLen .rtuEnc 1#9) ∧ BadLen (atLen .rtuEnc 255#9) ∧ GoodLen (atLen .rtuEnc 2#9) ∧
    GoodLen (atLen .rtuEnc 254#9) ∧ PushStep (encState .rtuEnc .core) .core (some 0x01#8) ∧
    PushStep { encState .rtuEnc .core with idx := 255#9 } .core none ∧
    ((encState .rtuEnc .crcLo).phase = .crcLo ∧ (encState .rtuEnc .crcLo).txFifo.length < (encState .rtuEnc .crcLo).txDepth) ∧
    ((encState .rtuEnc .crcHi).phase = .crcHi ∧
      (encState .rtuEnc .crcHi).txFifo.length < (encState .rtuEnc .crcHi).txDepth) := by decide

theorem witness_RtuEncSendsTheFrame : (encState .rtuEnc .init).phase = .init ∧
    (encState .rtuEnc .init).flen.toNat = core2.length ∧ 2 ≤ core2.length ∧ core2.length ≤ 254 ∧
    Holds (encState .rtuEnc .init) core2.length core2 ∧
    (encState .rtuEnc .init).txFifo.length + (core2.length + 2) ≤ (encState .rtuEnc .init).txDepth := by decide

/-- TCP.DEC before a length field of 1 (vector T-7). -/
def tcpBad : State := tcpDecState .hdr 5#3 0x01#8

theorem tcpBad_inv : MachineInv tcpBad where
  fbufWf := by decide
  idleIffNotBusy := by decide
  notDoneAndErr := by decide
  busyQuiet := by decide
  codeIffErr := by decide
  depthPos := by decide
  fifoFits := by decide
  running := fun _ => ⟨by decide, .tcpDec, by decide, .inr ⟨by decide, .inl ⟨by decide, by decide⟩⟩⟩

theorem witness_TcpDecSteps_error : MachineInv tcpBad ∧ fetch tcpBad = .run .tcpDec ∧
    ∃ t, exec .tcpDec tcpBad = .next t ∧ t.err = true := ⟨tcpBad_inv, by decide, _, rfl, rfl⟩

/-- RTU.DEC with bytes to come. -/
def rtuDecState (p : Phase) (rx : List Byte) : State :=
  { running (.rtuDec .req) p with echoPend := 1#16, rx := rx }

theorem witness_RtuDecHeadSteps : (rtuDecState .init []).phase = .init ∧
    ((rtuDecState .echo [0x55#8]).phase = .echo ∧ (rtuDecState .echo [0x55#8]).rx = 0x55#8 :: []) ∧
    ((rtuDecState .unit [0x01#8]).phase = .unit ∧ (rtuDecState .unit [0x01#8]).rx = 0x01#8 :: []) ∧
    ((rtuDecState .fc [0x09#8]).phase = .fc ∧ (rtuDecState .fc [0x09#8]).rx = 0x09#8 :: [] ∧
      lookupLen (rtuDecState .fc [0x09#8]).lenTable .req 0x09#8 = .unsupported) ∧
    ((rtuDecState .fc [0x07#8]).phase = .fc ∧ (rtuDecState .fc [0x07#8]).rx = 0x07#8 :: [] ∧
      lookupLen (rtuDecState .fc [0x07#8]).lenTable .req 0x07#8 ≠ .unsupported) := by decide

/-- RTU.DEC in BODY at index `i`, before the first payload byte. -/
def rtuBodyState (i : BitVec 9) : State :=
  { rtuDecState .body [0x00#8] with idx := i, g := some (.fixed 4), fbuf := [(0, 0x01#8), (1, 0x03#8)] }

theorem witness_RtuDecTailSteps :
    ((rtuBodyState 254#9).rx = 0x00#8 :: [] ∧ (rtuBodyState 254#9).phase = .body ∧ (rtuBodyState 254#9).idx.toNat = 254) ∧
    (let s := rtuBodyState 2#9
     s.rx = 0x00#8 :: [] ∧ s.phase = .body ∧ 2 ≤ s.idx.toNat ∧ s.idx.toNat < 254 ∧ s.g = some (.fixed 4) ∧
     Memory.slice s.fbuf 2 (s.idx.toNat - 2) = .ok []) ∧
    ((rtuDecState .crcLo [0xC5#8]).rx = 0xC5#8 :: [] ∧ (rtuDecState .crcLo [0xC5#8]).phase = .crcLo) ∧
    (∀ b ∈ [0xCD#8, 0xCC#8],
      let s := { rtuDecState .crcHi [b] with crc := 0xCDC5#16, rxCrc := 0x00C5#16 }
      s.rx = b :: [] ∧ s.phase = .crcHi ∧
      ((b = 0xCD#8 ∧ (b ++ loByte s.rxCrc : Half) = s.crc) ∨ (b = 0xCC#8 ∧ (b ++ loByte s.rxCrc : Half) ≠ s.crc))) := by decide

/-- Vector R-10, one byte at a time. -/
theorem crc16_core2 : crc16 core2 = 0xE241#16 := by
  have h1 : crcStep crcInitValue 0x01#8 = 0x807E#16 := by decide
  have h2 : crcStep 0x807E#16 0x07#8 = 0xE241#16 := by decide
  simp only [crc16, core2, List.foldl_cons, List.foldl_nil, h1, h2]

/-- RTU.DEC req with an echo byte, the frame of vector R-10 and one byte more to come. -/
def rtuFrameState : State := rtuDecState .init [0x55#8, 0x01#8, 0x07#8, 0x41#8, 0xE2#8, 0x99#8]

theorem rtuFrameState_rx : rtuFrameState.rx = [0x55#8] ++ rtuFrame (0x01#8 :: 0x07#8 :: []) ++ [0x99#8] := by
  have h : crc16 [0x01#8, 0x07#8] = 0xE241#16 := crc16_core2
  simp only [rtuFrame, h]
  decide

theorem witness_RtuDecReceivesTheFrame : rtuFrameState.phase = .init ∧
    [0x55#8].length = rtuFrameState.echoPend.toNat ∧
    rtuFrameState.rx = [0x55#8] ++ rtuFrame (0x01#8 :: 0x07#8 :: []) ++ [0x99#8] ∧
    lookupLen rtuFrameState.lenTable .req 0x07#8 ≠ .unsupported ∧
    requiredLen (lookupLen rtuFrameState.lenTable .req 0x07#8) [] = some ([] : List Byte).length ∧
    ([] : List Byte).length + 2 ≤ 254 := ⟨by decide, by decide, rtuFrameState_rx, by decide, by decide, by decide⟩

/-- RTU.DEC req before the last CRC byte of vector R-10, `01 07 41 E2`. -/
def rtuGood : State :=
  { running (.rtuDec .req) .crcHi with
    crc := 0xE241#16, rxCrc := 0x0041#16, idx := 2#9, g := some (.fixed 0), fbuf := [(0, 0x01#8), (1, 0x07#8)],
    rx := [0xE2#8] }

theorem rtuGood_inv : MachineInv rtuGood where
  fbufWf := by decide
  idleIffNotBusy := by decide
  notDoneAndErr := by decide
  busyQuiet := by decide
  codeIffErr := by decide
  depthPos := by decide
  fifoFits := by decide
  running := fun _ => ⟨by decide, .rtuDec .req, by decide, .inr ⟨by decide, .inr (.inr (.inr
    ⟨.inr (.inr rfl), rfl, rfl, 0x01#8, 0x07#8, [], rfl, crc16_core2.symm, by decide, by decide, fun _ => by decide⟩))⟩⟩

/-- The same with a wrong last byte; the invariant does not read RX. -/
def rtuBad : State := { rtuGood with rx := [0xE3#8] }

theorem rtuBad_inv : MachineInv rtuBad :=
  ⟨rtuGood_inv.1, rtuGood_inv.2, rtuGood_inv.3, rtuGood_inv.4, rtuGood_inv.5, rtuGood_inv.6, rtuGood_inv.7,
    rtuGood_inv.8⟩

theorem witness_RtuDecHandsOnOnlyGoodFrames :
    (MachineInv rtuGood ∧ fetch rtuGood = .run (.rtuDec .req) ∧
      ∃ t, exec (.rtuDec .req) rtuGood = .next t ∧ t.done = true) ∧
    (MachineInv rtuBad ∧ fetch rtuBad = .run (.rtuDec .req) ∧
      ∃ t, exec (.rtuDec .req) rtuBad = .next t ∧ t.err = true) :=
  ⟨⟨rtuGood_inv, by decide, _, rfl, rfl⟩, rtuBad_inv, by decide, _, rfl, rfl⟩

theorem witness_RequiredLenIsStable : requiredLen .meiObjects [0x0E, 0x01, 0x01, 0x00, 0x00, 0x01, 0x00, 0x01, 0x41] = some 9 ∧
    requiredLen (.counted 0 .two) [0x00, 0x01, 0x12] = some 3 ∧ requiredLen (.counted 4 .one) [0, 0, 0, 0, 0] = some 5 ∧
    requiredLen (.fixed 0) [] = some ([] : List Byte).length ∧
    requiredLen (.fixed 0) ([] ++ []) = some (([] : List Byte) ++ []).length ∧
    ([] : List Byte).length < 0 + 1 ∧ [0x01#8].length < 0 + 2 ∧ ([0, 0, 0, 0, 0] : List Byte).length < 6 ∧
    ([0, 0, 0, 0, 0] : List Byte).length = 5 ∧ ([0, 0, 0, 0, 0, 1, 0] : List Byte).length < 6 + 2 := by decide

theorem witness_DefaultLengthTable : 0x80 ≤ (0x80#8 : Byte).toNat ∧ 0x80 ≤ (0xFF#8 : Byte).toNat ∧
    (0x7F#8 : Byte).toNat < 0x80 ∧
    (0x7F#8 : Byte).toNat ∉ [1, 2, 3, 4, 5, 6, 7, 8, 11, 12, 15, 16, 17, 20, 21, 22, 23, 24, 43] := by decide

theorem witness_RtuCommandsFrame : (∃ t, exec .rtuEnc (encState .rtuEnc .core) = .next t) ∧
    (∃ t, exec (.rtuDec .req) (rtuBodyState 2#9) = .next t) := ⟨⟨_, rfl⟩, ⟨_, rfl⟩⟩

theorem witness_HexDigitsRoundTrip : hexVal 0x39#8 = some 9#4 ∧ hexVal 0x66#8 = some 15#4 := by decide

theorem witness_AsciiEncSteps : BadLen (atLen .asciiEnc 1#9) ∧ BadLen (atLen .asciiEnc 255#9) ∧
    GoodLen (atLen .asciiEnc 2#9) ∧ GoodLen (atLen .asciiEnc 254#9) ∧
    (∀ p ∈ [Phase.colon, .lrcHi, .lrcLo, .cr, .lf],
      (encState .asciiEnc p).phase = p ∧ (encState .asciiEnc p).txFifo.length < (encState .asciiEnc p).txDepth) ∧
    PushStep (encState .asciiEnc .hi) .hi (some 0x01#8) ∧ PushStep (encState .asciiEnc .lo) .lo (some 0x01#8) ∧
    PushStep { encState .asciiEnc .hi with idx := 255#9 } .hi none ∧
    PushStep { encState .asciiEnc .lo with idx := 255#9 } .lo none := by decide

theorem witness_AsciiEncSendsTheFrame : (encState .asciiEnc .init).phase = .init ∧
    (encState .asciiEnc .init).flen.toNat = core2.length ∧ 2 ≤ core2.length ∧ core2.length ≤ 254 ∧
    Holds (encState .asciiEnc .init) core2.length core2 ∧
    (encState .asciiEnc .init).txFifo.length + (2 * core2.length + 5) ≤ (encState .asciiEnc .init).txDepth := by decide

/-- ASCII.DEC with one character to come and `i` bytes decoded. -/
def asciiState (p : Phase) (c : Byte) (i : BitVec 9) : State :=
  { running .asciiDec p with idx := i, rx := [c], fbuf := [(0, 0x01#8), (1, 0x00#8), (2, 0xFF#8)] }

theorem witness_AsciiDecHuntSteps : (running .asciiDec .init).phase = .init ∧
    ((asciiState .echo 0x55#8 0#9).rx = 0x55#8 :: [] ∧ (asciiState .echo 0x55#8 0#9).phase = .echo) ∧
    ((asciiState .hunt 0x3A#8 0#9).rx = 0x3A#8 :: [] ∧ (asciiState .hunt 0x3A#8 0#9).phase = .hunt) ∧
    (∀ c ∈ [0x0D#8, 0x0A#8], (asciiState .hunt c 0#9).rx = c :: [] ∧ (asciiState .hunt c 0#9).phase = .hunt ∧
      (c = 0x0D#8 ∨ c = 0x0A#8)) ∧
    (∀ c ∈ [0x39#8, 0x3B#8], (asciiState .hunt c 0#9).rx = c :: [] ∧ (asciiState .hunt c 0#9).phase = .hunt ∧ c ≠ 0x3A#8 ∧
      c ≠ 0x0D#8 ∧ c ≠ 0x0A#8) := by decide

theorem witness_AsciiDecFrameSteps :
    ((asciiState .hi 0x46#8 254#9).rx = 0x46#8 :: [] ∧ (asciiState .hi 0x46#8 254#9).phase = .hi ∧
      hexVal 0x46#8 = some 15#4) ∧
    ((asciiState .lo 0x30#8 254#9).rx = 0x30#8 :: [] ∧ (asciiState .lo 0x30#8 254#9).phase = .lo ∧
      hexVal 0x30#8 = some 0#4 ∧ (asciiState .lo 0x30#8 254#9).idx.toNat < 255) ∧
    (∀ c ∈ [0x0D#8, 0x0A#8],
      let s := asciiState .hi c 3#9
      s.rx = c :: [] ∧ s.phase = .hi ∧ (c = 0x0D#8 ∨ c = 0x0A#8) ∧ 3 ≤ s.idx.toNat ∧ s.idx.toNat ≤ 256 ∧
      s.lrcAcc = 0x00#8 ∧ Memory.read s.fbuf (s.idx.toNat - 1) = some 0xFF#8) := by decide

theorem witness_AsciiDecSkipSteps :
    (let s := asciiState .hi 0x0A#8 2#9
     s.rx = 0x0A#8 :: [] ∧ s.phase = .hi ∧ (0x0A#8 = 0x0D#8 ∨ 0x0A#8 = 0x0A#8) ∧ (s.idx.toNat < 3 ∨ s.lrcAcc ≠ 0x00#8)) ∧
    ((asciiState .hi 0x47#8 1#9).rx = 0x47#8 :: [] ∧ (asciiState .hi 0x47#8 1#9).phase = .hi ∧ 0x47#8 ≠ 0x3A#8 ∧
      0x47#8 ≠ 0x0D#8 ∧ 0x47#8 ≠ 0x0A#8 ∧ hexVal 0x47#8 = none) ∧
    (∀ c ∈ [0x47#8, 0x0D#8, 0x0A#8], (asciiState .lo c 1#9).rx = c :: [] ∧ (asciiState .lo c 1#9).phase = .lo ∧
      c ≠ 0x3A#8 ∧ hexVal c = none) ∧
    ((asciiState .lo 0x30#8 255#9).rx = 0x30#8 :: [] ∧ (asciiState .lo 0x30#8 255#9).phase = .lo ∧
      hexVal 0x30#8 = some 0#4 ∧ (asciiState .lo 0x30#8 255#9).idx.toNat = 255) ∧
    (∀ p ∈ [Phase.hi, .lo], (asciiState p 0x3A#8 1#9).rx = 0x3A#8 :: [] ∧
      ((asciiState p 0x3A#8 1#9).phase = .hi ∨ (asciiState p 0x3A#8 1#9).phase = .lo)) := by decide

/-- Vector A-D10: ":0100FF" and CR. -/
theorem witness_AsciiDecResynchronises :
    let s := { running .asciiDec .lo with rx := [0x3A#8, 0x30#8, 0x31#8, 0x30#8, 0x30#8, 0x46#8, 0x46#8, 0x0D#8, 0x0A#8] }
    (s.phase = .hunt ∨ s.phase = .hi ∨ s.phase = .lo) ∧
    s.rx = 0x3A#8 :: ([0x30#8, 0x31#8, 0x30#8, 0x30#8, 0x46#8, 0x46#8] ++ 0x0D#8 :: [0x0A#8]) ∧
    hexBytes [0x30#8, 0x31#8, 0x30#8, 0x30#8, 0x46#8, 0x46#8] = some ([0x01#8, 0x00#8] ++ [lrc [0x01#8, 0x00#8]]) ∧
    2 ≤ [0x01#8, 0x00#8].length ∧ [0x01#8, 0x00#8].length ≤ 254 ∧ (0x0D#8 = 0x0D#8 ∨ 0x0D#8 = 0x0A#8) := by decide

theorem witness_AsciiDecReceivesTheFrame :
    let s := { running .asciiDec .init with
      echoPend := 1#16
      rx := [0x55#8, 0x5A#8, 0x3A#8, 0x30#8, 0x31#8, 0x30#8, 0x30#8, 0x46#8, 0x46#8, 0x0D#8, 0x0A#8] }
    s.phase = .init ∧ [0x55#8].length = s.echoPend.toNat ∧ 0x3A#8 ∉ [0x5A#8] ∧
    s.rx = [0x55#8] ++ [0x5A#8] ++ asciiFrame [0x01#8, 0x00#8] ++ [] ∧ 2 ≤ [0x01#8, 0x00#8].length ∧
    [0x01#8, 0x00#8].length ≤ 254 := by decide

/-- ASCII.DEC before the CR of vector A-D10. -/
def asciiGood : State := asciiState .hi 0x0D#8 3#9

theorem asciiGood_inv : MachineInv asciiGood where
  fbufWf := by decide
  idleIffNotBusy := by decide
  notDoneAndErr := by decide
  busyQuiet := by decide
  codeIffErr := by decide
  depthPos := by decide
  fifoFits := by decide
  running := fun _ => ⟨by decide, .asciiDec, by decide, .inr ⟨by decide, .inr (.inr
    ⟨.inl rfl, rfl, by decide, [0x01#8, 0x00#8, 0xFF#8], rfl, by decide⟩)⟩⟩

theorem witness_AsciiDecHandsOnOnlyGoodFrames : MachineInv asciiGood ∧ fetch asciiGood = .run .asciiDec ∧
    ∃ t, exec .asciiDec asciiGood = .next t ∧ t.done = true :=
  ⟨asciiGood_inv, by decide, _, rfl, rfl⟩

theorem witness_AsciiCommandsFrame : (∃ t, exec .asciiEnc (encState .asciiEnc .lo) = .next t) ∧
    (∃ t, exec .asciiDec (asciiState .lo 0x30#8 0#9) = .next t) := ⟨⟨_, rfl⟩, ⟨_, rfl⟩⟩

theorem witness_StreamStepsHold : (running .tcpDec .hdr).rx = [] ∧ (running .tcpDec .hdr).phase = .hdr ∧
    (running (.rtuDec .rsp) .crcHi).rx = [] ∧ (running (.rtuDec .rsp) .crcHi).phase ∈ [.echo, .unit, .fc, .body, .crcLo, .crcHi] ∧
    (running .asciiDec .lo).rx = [] ∧ (running .asciiDec .lo).phase ∈ [.echo, .hunt, .hi, .lo] ∧
    (let s := { running .asciiEnc .lf with txDepth := 1, txFifo := [0x3A#8] }
     s.txDepth ≤ s.txFifo.length ∧ s.phase ∈ [.colon, .hi, .lo, .lrcHi, .lrcLo, .cr, .lf]) ∧
    (let s := { running .rtuEnc .core with txDepth := 1, txFifo := [0x3A#8] }
     s.txDepth ≤ s.txFifo.length ∧ s.phase ∈ [.core, .crcLo, .crcHi]) ∧
    (let s := { running .tcpEnc .body with txDepth := 1, txFifo := [0x3A#8] }
     s.txDepth ≤ s.txFifo.length ∧ (s.phase = .hdr ∨ s.phase = .body)) := by decide

theorem witness_BadAccessExactly :
    let good (bits addr : Nat) := (addr < 0x100 ∧ bits = 32 ∧ addr % 4 = 0) ∨ (0x100 ≤ addr ∧ addr ≤ 0x1FF ∧ bits = 8)
    good 32 0x0FC ∧ good 8 0x100 ∧ good 8 0x1FF ∧ ¬ good 32 0x002 ∧ ¬ good 16 0x000 ∧ ¬ good 32 0x100 ∧ ¬ good 8 0x200 := by
  decide

theorem witness_HostReadsReturnTheRegisters : (0x044 ≤ 0x044 ∧ 0x0FC ≤ 0x0FF ∧ 0x0FC % 4 = 0) ∧ 255 < 256 ∧
    Memory.read (rangeState .nop).fbuf 255 = some 0x5A#8 ∧ Memory.read State.reset.fbuf 255 = none ∧
    ∃ t, hostRead 8 0x1FF State.reset = .next t := ⟨by decide, by decide, by decide, by decide, _, rfl⟩

theorem witness_BusyWritesAreDropped : (running .nop .init).busy = true ∧ 0x034 ∈ [0x004, 0x00C, 0x010, 0x018, 0x01C, 0x02C, 0x030, 0x034] ∧
    255 < 256 ∧ 0x040 ∈ [0x014, 0x020, 0x024, 0x028, 0x038, 0x03C, 0x040] ∧ 0x0FC ≤ 0x0FF ∧ 0x0FC % 4 = 0 := by decide

theorem witness_IdleWritesTakeEffect : State.reset.busy = false ∧ 255 < 256 ∧ 254 ≠ 255 := by decide

theorem witness_AbortEndsTheCommand : (0x4#32 : Word).getLsbD 3 = false ∧ (0x4#32 : Word).getLsbD 2 = true ∧
    (running .asciiDec .hunt).busy = true ∧ (0x3#32 : Word).getLsbD 3 = false ∧ (0x3#32 : Word).getLsbD 2 = false ∧
    State.reset.busy = false := by decide

theorem witness_ResetsGiveTheResetValues : { running .tcpDec .hdr with sched := [.hardReset] }.sched = .hardReset :: [] ∧
    (0xC#32 : Word).getLsbD 3 = true := by decide

theorem witness_OnlyTheHostClearsDoneErrOvr :
    (let s := hosting [.write 32 0x008 0x2#32] { State.reset with done := true }
     ∃ t, step s = .next t ∧ s.done = true ∧ t.done = false) ∧
    (let s := hosting [.write 32 0x004 0x0#32] { State.reset with err := true, errCode := .range }
     ∃ t, step s = .next t ∧ s.err = true ∧ t.err = false) ∧
    (let s := hosting [.write 32 0x000 0x8#32] { State.reset with ovr := true }
     ∃ t, step s = .next t ∧ s.ovr = true ∧ t.ovr = false) :=
  ⟨⟨_, rfl, rfl, rfl⟩, ⟨_, rfl, rfl, rfl⟩, ⟨_, rfl, rfl, rfl⟩⟩

theorem witness_StreamsAreFirstInFirstOut : ∃ t, step (encState .tcpEnc .body) = .next t := ⟨_, rfl⟩

theorem witness_ParametersAreFixedAndNothingIsRefused : ∃ t, step rtuGood = .next t := ⟨_, rfl⟩

theorem witness_InvariantHoldsAtReset : 1 ≤ 1 := by decide

theorem witness_EveryStepKeepsTheInvariant : MachineInv rtuGood ∧ ∃ t, step rtuGood = .next t :=
  ⟨rtuGood_inv, _, rfl⟩

/-- CRC.RANGE 0, 1 before its one byte, which nothing has written (vector C-16). -/
def unwrittenState : State := { running (.crcRange 0 1) .run with cnt := 1#9 }

theorem unwrittenState_inv : MachineInv unwrittenState where
  fbufWf := by decide
  idleIffNotBusy := by decide
  notDoneAndErr := by decide
  busyQuiet := by decide
  codeIffErr := by decide
  depthPos := by decide
  fifoFits := by decide
  running := fun _ => ⟨by decide, .crcRange 0 1, by decide, .inr ⟨rfl, by decide, by decide, by decide, [], rfl, by decide⟩⟩

/-- The invariant reads neither the schedule nor the host's program. -/
def badAccessState : State := hosting [.read 32 0x002] rtuGood

theorem badAccessState_inv : MachineInv badAccessState :=
  ⟨rtuGood_inv.1, rtuGood_inv.2, rtuGood_inv.3, rtuGood_inv.4, rtuGood_inv.5, rtuGood_inv.6, rtuGood_inv.7,
    rtuGood_inv.8⟩

theorem witness_OnlyTheSpecifiedFaults : (MachineInv unwrittenState ∧ step unwrittenState = .fault (.fbufUnwritten 0)) ∧
    (MachineInv badAccessState ∧ step badAccessState = .fault (.hostBadAccess 32 0x002)) :=
  ⟨⟨unwrittenState_inv, rfl⟩, badAccessState_inv, rfl⟩

theorem witness_MachineRunIsCommandRun : rtuGood.sched = [] ∧ fetch rtuGood = .run (.rtuDec .req) := by decide

/-- An encoder before its INIT step, one place in the TX FIFO and that one taken. -/
def fullEncState (i : Instr) (sched : List Turn) : State :=
  { encState i .init with txDepth := 1, txFifo := [0x55#8], sched := sched }

theorem witness_EncodersSendTheFrameUnderAnySchedule : ∀ i ∈ [Instr.tcpEnc, .rtuEnc, .asciiEnc],
    let s := fullEncState i [.block, .envRx 0x00#8, .envTake]
    fetch s = .run i ∧ s.phase = .init ∧ s.flen.toNat = core2.length ∧ 2 ≤ core2.length ∧ core2.length ≤ 254 ∧
    Holds s core2.length core2 ∧ 1 ≤ s.txDepth ∧ s.txFifo.length ≤ s.txDepth ∧
    ∀ turn ∈ s.sched, turn = .block ∨ turn = .envTake ∨ turn = .envRx 0x00#8 := by decide

theorem witness_EncodersSendTheFrameUnderAnySchedule_taken :
    let frame := tcpFrame State.reset.mbapTid core2
    let s := fullEncState .tcpEnc (List.replicate (frame.length + 1) [Turn.envTake, .block]).flatten
    fetch s = .run .tcpEnc ∧ s.phase = .init ∧ s.mbapTid = State.reset.mbapTid ∧ Holds s core2.length core2 ∧
    s.txFifo.length ≤ s.txDepth ∧ s.sched = (List.replicate (frame.length + 1) [Turn.envTake, .block]).flatten := by
  decide

end Sys2Proof.Tests
end

