-- ==== Sys2Proof/Proofs/HostAccess.lean ====
section
/-! Which host accesses are legal, and what `hostRead` and `hostWrite` answer to a legal and to a bad one
(spec/20_memory.md R62). -/

namespace Sys2Proof.Machine

/-- The accesses R62 allows: 32 bits at a multiple of 4 among the registers, 8 bits in FBUF. -/
def LegalAccess (bits addr : Nat) : Prop :=
  (addr < 0x100 ∧ bits = 32 ∧ addr % 4 = 0) ∨ (0x100 ≤ addr ∧ addr ≤ 0x1FF ∧ bits = 8)

/-- The address decoder has no target exactly for the accesses R62 forbids. -/
theorem hostTarget_eq_none_iff (bits addr : Nat) : hostTarget bits addr = none ↔ ¬ LegalAccess bits addr := by
  unfold hostTarget LegalAccess
  split
  case isTrue hreg =>
    split
    · split <;> simp [*]
    · simp only [true_iff]; omega
  case isFalse hreg =>
    split
    · split <;> simp only [reduceCtorEq, true_iff, false_iff] <;> omega
    · simp only [true_iff]; omega

/-- A read without a target is a bad access. -/
theorem hostRead_of_target_none {bits addr : Nat} (s : State) (h : hostTarget bits addr = none) :
    hostRead bits addr s = .fault (.hostBadAccess bits addr) := by
  simp only [hostRead, h]

/-- A write without a target is a bad access. -/
theorem hostWrite_of_target_none {bits addr : Nat} (v : Word) (s : State) (h : hostTarget bits addr = none) :
    hostWrite bits addr v s = .fault (.hostBadAccess bits addr) := by
  simp only [hostWrite, h]

/-- A read with a target is answered, an unwritten FBUF byte with its free value (log 5). -/
theorem hostRead_next_of_target {bits addr : Nat} (s : State) (h : hostTarget bits addr ≠ none) :
    ∃ t, hostRead bits addr s = .next t := by
  unfold hostRead
  split
  · contradiction
  · exact ⟨_, rfl⟩
  · exact ⟨_, rfl⟩
  · split <;> exact ⟨_, rfl⟩

/-- A write with a target is answered, busy or not. -/
theorem hostWrite_next_of_target {bits addr : Nat} (v : Word) (s : State) (h : hostTarget bits addr ≠ none) :
    ∃ t, hostWrite bits addr v s = .next t := by
  unfold hostWrite
  split
  · contradiction
  all_goals exact ⟨_, rfl⟩

/-- Settles O46: reads and writes fault exactly without a target, and `hostTarget` has one exactly for R62's accesses. -/
theorem badAccessExactly : Obligations.BadAccessExactly := by
  intro s bits addr v good
  constructor
  · intro hbad
    have hnone := (hostTarget_eq_none_iff bits addr).mpr hbad
    exact ⟨hostRead_of_target_none s hnone, hostWrite_of_target_none v s hnone⟩
  · intro hgood
    have hsome : hostTarget bits addr ≠ none := fun h => (hostTarget_eq_none_iff bits addr).mp h hgood
    exact ⟨hostRead_next_of_target s hsome, hostWrite_next_of_target v s hsome⟩

end Sys2Proof.Machine
end

