-- ==== Sys2Proof/Proofs/IllegalWord.lean ====
section
/-! Which words the decoder refuses, and what the issue of a refused word does (spec/30_encoding.md R83 to R85). -/

namespace Sys2Proof

/-- Every command's row stands in the opcode map: a row does not depend on the operands (R83). -/
theorem opRow_mem_opcodeTable (i : Instr) : opRow i ∈ opcodeTable := by
  cases i <;> simp [opcodeTable, opRow]

/-- Every row of the opcode map fixes the whole of OP, to a value below the reserved ones (R83). -/
theorem opcodeTable_fixes_opField : ∀ r ∈ opcodeTable, opField r.mask = 0xF#4 ∧ (opField r.fixed).toNat < 0xD := by
  decide

/-- A word that matches a row has the OP that the row fixes. -/
theorem OpRow.hits_opField {r : OpRow} {w : Word} (hmask : opField r.mask = 0xF#4) (h : r.hits w = true) :
    opField w = opField r.fixed := by
  have hw : w &&& r.mask = r.fixed := beq_iff_eq.mp h
  calc opField w = opField w &&& opField r.mask := by rw [hmask]; exact BitVec.and_allOnes.symm
    _ = opField (w &&& r.mask) := BitVec.extractLsb'_and.symm
    _ = opField r.fixed := by rw [hw]

/-- A word with a reserved OP matches no row (R84). -/
theorem hits_eq_false_of_reserved_opField {w : Word} (hop : 0xD ≤ (opField w).toNat) {r : OpRow}
    (hr : r ∈ opcodeTable) : r.hits w = false := by
  obtain ⟨hmask, hfixed⟩ := opcodeTable_fixes_opField r hr
  refine Bool.eq_false_iff.mpr fun h => ?_
  rw [OpRow.hits_opField hmask h] at hop
  omega

/-- `accept` answers its own command and only when the word matches that command's row. -/
theorem accept_eq_ok_iff {w : Word} {i j : Instr} : accept w i = .ok j ↔ i = j ∧ (opRow i).hits w = true := by
  unfold accept
  split <;> simp [*]

/-- A word accepted as some command matches the row of that command. -/
theorem opRow_hits_of_accept {w : Word} {i j : Instr} (h : accept w j = .ok i) : (opRow i).hits w = true := by
  obtain ⟨rfl, hit⟩ := accept_eq_ok_iff.mp h
  exact hit

/-- A decoded word matches the row of its command (R83). -/
theorem opRow_hits_of_decode {w : Word} {i : Instr} (h : decode w = .ok i) : (opRow i).hits w = true := by
  unfold decode at h
  split at h
  case h_14 => contradiction -- the reserved values of OP
  all_goals exact opRow_hits_of_accept h

/-- A word that matches no row is not decoded to any command (R84). -/
theorem decode_error_of_no_hit {w : Word} (h : ∀ r ∈ opcodeTable, r.hits w = false) : ∃ e, decode w = .error e := by
  cases hd : decode w with
  | error e => exact ⟨e, rfl⟩
  | ok i => exact absurd (opRow_hits_of_decode hd) (Bool.eq_false_iff.mp (h _ (opRow_mem_opcodeTable i)))

namespace Machine

/-- The issue of a word the decoder refuses only raises ILLEGAL_CMD (R85). -/
theorem issue_of_decode_error {w : Word} {e : Reject} (h : decode w = .error e) (s : State) :
    issue w s = { s with cmd := w, done := false, err := true, errCode := .illegalCmd } := by
  simp only [issue, h]

/-- A write to CMD while idle is an issue (R85). -/
theorem hostWrite_cmd_of_idle {s : State} (h : s.busy = false) (w : Word) :
    hostWrite 32 0x004 w s = .next (issue w s) := by
  have hreg : hostWrite 32 0x004 w s = .next (unlessBusy s (issue w)) := rfl
  simp [hreg, unlessBusy, h]

/-- Settles O4: every row fixes OP below 0xD, and a word outside every row decodes to no command, so its issue raises
the error and nothing else. -/
theorem illegalWordRaisesIllegalCmd : Obligations.IllegalWordRaisesIllegalCmd := by
  constructor
  · intro w hop r hr
    exact hits_eq_false_of_reserved_opField hop hr
  · intro w s hidle hnone
    obtain ⟨e, he⟩ := decode_error_of_no_hit hnone
    rw [hostWrite_cmd_of_idle hidle, issue_of_decode_error he]

end Machine

end Sys2Proof
end


-- ==== Sys2Proof/Proofs/ChecksumBytes.lean ====
section
/-! The commands that complete in their INIT step: NOP and the checksum commands on no FBUF byte
(spec/40_checksum.md R103 to R105, R107, R108). -/

namespace Sys2Proof.Machine

/-! ## The INIT step of each command -/

section InitStep
variable {s : State} (h : s.phase = .init)
include h

/-- R103. -/
theorem exec_nop_of_init : exec .nop s = .next (complete s) := by
  simp only [exec, execNop, h]

/-- R104. -/
theorem exec_crcInit_of_init : exec .crcInit s = .next (complete { s with crc := crcInitValue }) := by
  simp only [exec, execCrcInit, h]

/-- R105. -/
theorem exec_crcByte_of_init (d : Byte) :
    exec (.crcByte d) s = .next (complete { s with crc := crcStep s.crc d }) := by
  simp only [exec, execCrcByte, h]

/-- R107. -/
theorem exec_lrcInit_of_init : exec .lrcInit s = .next (complete { s with lrcAcc := 0x00#8 }) := by
  simp only [exec, execLrcInit, h]

/-- R108. -/
theorem exec_lrcByte_of_init (d : Byte) :
    exec (.lrcByte d) s = .next (complete { s with lrcAcc := s.lrcAcc + d }) := by
  simp only [exec, execLrcByte, h]

end InitStep

/-! ## The issue of a legal word -/

/-- The issue of a word the decoder accepts clears the flags of the last command and latches the word's fields
(spec/30_encoding.md R85). -/
theorem issue_of_decode_ok {w : Word} {i : Instr} (h : decode w = .ok i) (s : State) :
    issue w s = { s with
      cmd := w, done := false, err := false, errCode := .none, rxCount := 0#16, txCount := 0#16,
      lOp := opField w, lDir := dirField w, lA := dataField w, lLen := lenField w, lTail := tailField w,
      lEcho := s.echoEn, busy := true, phase := .init } := by
  simp only [issue, h]

/-- NOP is the one command whose word is 0 (spec/40_checksum.md R103). -/
theorem decode_nop_word : decode 0x00000000#32 = .ok .nop := by decide

/-! ## The LRC register -/

/-- With the sum 0 the LRC register reads 0: the two's complement of 0 does not carry (spec/10_state.md R27). -/
theorem readReg_lrc_of_lrcAcc_zero {s : State} (h : s.lrcAcc = 0x00#8) : readReg .lrc s = 0#32 := by
  simp only [readReg, lrcReg, lrcOfSum_eq_neg, h, BitVec.neg_zero, BitVec.setWidth_zero]

/-- The LRC sum of two bytes is their sum as numbers, modulo 256 (spec/40_checksum.md R108). -/
theorem byte_add_eq_ofNat_mod (a b : Byte) : a + b = BitVec.ofNat 8 ((a.toNat + b.toNat) % 256) := by
  apply BitVec.eq_of_toNat_eq
  simp only [BitVec.toNat_add, BitVec.toNat_ofNat, Nat.reducePow, Nat.mod_mod]

/-! ## The obligations -/

/-- Settles O11: the word 0 decodes to NOP, so its issue clears the flags and goes to INIT, whose step completes. -/
theorem nopCompletes : Obligations.NopCompletes := by
  refine ⟨rfl, fun s hinit => exec_nop_of_init hinit, fun s hidle => ⟨_, hostWrite_cmd_of_idle hidle _, ?_⟩⟩
  rw [issue_of_decode_ok decode_nop_word]
  exact ⟨rfl, rfl, rfl, rfl, rfl, rfl, exec_nop_of_init rfl⟩

/-- Settles O12: both commands complete in their INIT step; the three values of crcStep are computed. -/
theorem crcInitAndByteComplete : Obligations.CrcInitAndByteComplete := by
  have hvalues : crcStep 0xFFFF#16 0x00#8 = 0x40BF#16 ∧ crcStep 0x0000#16 0x00#8 = 0x0000#16 ∧
      crcStep 0xFFFF#16 0x01#8 = 0x807E#16 := by decide
  exact ⟨rfl, fun s hinit => exec_crcInit_of_init hinit, fun d => rfl,
    fun d s hinit => exec_crcByte_of_init hinit d, hvalues⟩

/-- Settles O13: both commands complete in their INIT step; a cleared sum reads as LRC 0, and the addition of bytes
wraps modulo 256. -/
theorem lrcInitAndByteComplete : Obligations.LrcInitAndByteComplete := by
  refine ⟨rfl, fun s hinit => ⟨exec_lrcInit_of_init hinit, fun t hstep => ?_⟩, fun d => rfl, fun d s hinit => ?_⟩
  · rw [exec_lrcInit_of_init hinit] at hstep
    cases hstep
    exact readReg_lrc_of_lrcAcc_zero rfl
  · rw [← byte_add_eq_ofNat_mod]
    exact exec_lrcByte_of_init hinit d

end Sys2Proof.Machine
end


-- ==== Sys2Proof/Proofs/RtuDecSteps.lean ====
section
/-! The block steps of RTU.DEC, one lemma for each outcome of each phase (spec/42_rtu.md R173, R178, R180 to R183). -/

namespace Sys2Proof.Machine

/-! ## Storing a payload byte -/

/-- The payload of a core that ends before index `n`, with the byte stored at `n` (R173). -/
theorem slice_payload_write {m : Memory} {n : Nat} {payload : List Byte} (b : Byte) (hn : 2 ≤ n)
    (h : Memory.slice m 2 (n - 2) = .ok payload) :
    Memory.slice (Memory.write m n b) 2 (n + 1 - 2) = .ok (payload ++ [b]) := by
  have hw := Memory.slice_write_next b h
  rwa [show 2 + (n - 2) = n by omega, show n - 2 + 1 = n + 1 - 2 by omega] at hw

/-- IDX does not wrap within a core. -/
theorem idx_succ_toNat {i : BitVec 9} (h : i.toNat < 254) : (i + 1#9).toNat = i.toNat + 1 := by
  bv_omega

/-! ## The steps up to the function code -/

section Steps
variable (dir : Dir) {s : State}

/-- INIT (R173). -/
theorem exec_rtuDec_init (h : s.phase = .init) :
    exec (.rtuDec dir) s = .next { s with
      flen := 0#9, crc := 0xFFFF#16, idx := 0#9, phase := if 0 < s.echoPend.toNat then .echo else .unit } := by
  simp only [exec, execRtuDec, h, crcInitValue]

variable {b : Byte} {rest : List Byte} (hrx : s.rx = b :: rest)
include hrx

/-- An echo byte is dropped; the last one ends the phase (R172). -/
theorem exec_rtuDec_echo (h : s.phase = .echo) :
    exec (.rtuDec dir) s = .next { s with
      rx := rest, rxCount := satAdd s.rxCount 1, echoPend := s.echoPend - 1#16,
      phase := if s.echoPend = 1#16 then .unit else .echo } := by
  have hlast : s.echoPend - 1#16 = 0#16 ↔ s.echoPend = 1#16 := sub_eq_zero
  simp only [exec, execRtuDec, h, withRx_cons hrx, hlast]
  split <;> rfl

/-- The unit id is core byte 0 (R173). -/
theorem exec_rtuDec_unit (h : s.phase = .unit) :
    exec (.rtuDec dir) s = .next { s with
      rx := rest, rxCount := satAdd s.rxCount 1, fbuf := Memory.write s.fbuf 0 b, crc := crcStep s.crc b,
      idx := 1#9, phase := .fc } := by
  simp only [exec, execRtuDec, h, withRx_cons hrx, storeByte_lt (show 0 < 256 by decide)]

/-- An unsupported function code is stored, then RX is drained and the command fails (R180). -/
theorem exec_rtuDec_fc_unsupported (h : s.phase = .fc) (hspec : lookupLen s.lenTable dir b = .unsupported) :
    exec (.rtuDec dir) s = .next { s with
      rx := [], rxCount := satAdd (satAdd s.rxCount 1) rest.length, fbuf := Memory.write s.fbuf 1 b,
      crc := crcStep s.crc b, idx := 2#9, g := some .unsupported, busy := false, err := true,
      errCode := .unsupportedFc, phase := .idle } := by
  simp only [exec, execRtuDec, h, withRx_cons hrx, storeByte_lt (show 1 < 256 by decide), hspec, if_true,
    drainFail, fail, rxDrain]

/-- A supported function code is core byte 1; an empty payload ends there (R173, R178). -/
theorem exec_rtuDec_fc_supported (h : s.phase = .fc) (hspec : lookupLen s.lenTable dir b ≠ .unsupported) :
    exec (.rtuDec dir) s = .next { s with
      rx := rest, rxCount := satAdd s.rxCount 1, fbuf := Memory.write s.fbuf 1 b, crc := crcStep s.crc b,
      idx := 2#9, g := some (lookupLen s.lenTable dir b),
      phase := if requiredLen (lookupLen s.lenTable dir b) [] = some 0 then .crcLo else .body } := by
  simp only [exec, execRtuDec, h, withRx_cons hrx, storeByte_lt (show 1 < 256 by decide), if_neg hspec]
  split <;> rfl

/-! ## The steps from the payload on -/

/-- The byte after a core of MAX_CORE bytes is popped and not stored (R181). -/
theorem exec_rtuDec_body_overflow (h : s.phase = .body) (hidx : s.idx.toNat = 254) :
    exec (.rtuDec dir) s = .next { s with
      rx := [], rxCount := satAdd (satAdd s.rxCount 1) rest.length, busy := false, err := true,
      errCode := .overflow, phase := .idle } := by
  simp only [exec, execRtuDec, h, withRx_cons hrx, hidx, Config.maxCore, if_true, drainFail, fail, rxDrain]

/-- A payload byte is stored; the payload ends when it has the length required of it (R173, R178). -/
theorem exec_rtuDec_body_byte {spec : LenSpec} {payload : List Byte} (h : s.phase = .body) (hlo : 2 ≤ s.idx.toNat)
    (hhi : s.idx.toNat < 254) (hg : s.g = some spec)
    (hpayload : Memory.slice s.fbuf 2 (s.idx.toNat - 2) = .ok payload) :
    exec (.rtuDec dir) s = .next { s with
      rx := rest, rxCount := satAdd s.rxCount 1, fbuf := Memory.write s.fbuf s.idx.toNat b,
      crc := crcStep s.crc b, idx := s.idx + 1#9,
      phase := if requiredLen spec (payload ++ [b]) = some (payload ++ [b]).length then .crcLo else .body } := by
  have hroom : s.idx.toNat ≠ Config.maxCore := Nat.ne_of_lt hhi
  have hread := slice_payload_write b hlo hpayload
  have hlen := Memory.slice_length hread
  rw [← idx_succ_toNat hhi] at hread hlen
  simp only [exec, execRtuDec, h, withRx_cons hrx, if_neg hroom, storeByte_lt (Nat.lt_trans hhi (by decide)), hg,
    withBytes, hread, hlen]
  split <;> rfl

/-- The first CRC byte is the low one (R173). -/
theorem exec_rtuDec_crcLo (h : s.phase = .crcLo) :
    exec (.rtuDec dir) s = .next { s with
      rx := rest, rxCount := satAdd s.rxCount 1, rxCrc := hiByte s.rxCrc ++ b, phase := .crcHi } := by
  simp only [exec, execRtuDec, h, withRx_cons hrx, setLoByte]

/-- A frame whose CRC is right completes the command (R173). -/
theorem exec_rtuDec_crcHi_match (h : s.phase = .crcHi) (hcrc : b ++ loByte s.rxCrc = s.crc) :
    exec (.rtuDec dir) s = .next { s with
      rx := rest, rxCount := satAdd s.rxCount 1, rxCrc := b ++ loByte s.rxCrc, flen := s.idx, busy := false,
      done := true, phase := .idle } := by
  simp only [exec, execRtuDec, h, withRx_cons hrx, setHiByte, if_pos hcrc, complete]

/-- A frame whose CRC is wrong drains RX and fails (R182, R183). -/
theorem exec_rtuDec_crcHi_mismatch (h : s.phase = .crcHi) (hcrc : b ++ loByte s.rxCrc ≠ s.crc) :
    exec (.rtuDec dir) s = .next { s with
      rx := [], rxCount := satAdd (satAdd s.rxCount 1) rest.length, rxCrc := b ++ loByte s.rxCrc, busy := false,
      err := true, errCode := .crcMismatch, phase := .idle } := by
  simp only [exec, execRtuDec, h, withRx_cons hrx, setHiByte, if_neg hcrc, drainFail, fail, rxDrain]

end Steps

/-! ## The obligations -/

/-- Settles O28: the steps of INIT, ECHO, UNIT and the two outcomes of FC. -/
theorem rtuDecHeadSteps : Obligations.RtuDecHeadSteps := fun dir _ =>
  ⟨exec_rtuDec_init dir,
   fun _ _ hphase hrx => exec_rtuDec_echo dir hrx hphase,
   fun _ _ hphase hrx => exec_rtuDec_unit dir hrx hphase,
   fun _ _ hphase hrx => exec_rtuDec_fc_unsupported dir hrx hphase,
   fun _ _ hphase hrx => exec_rtuDec_fc_supported dir hrx hphase⟩

/-- Settles O29: the two outcomes of BODY, the step of CRC_LO and the two outcomes of CRC_HI. -/
theorem rtuDecTailSteps : Obligations.RtuDecTailSteps := fun dir _ _ _ hrx =>
  ⟨exec_rtuDec_body_overflow dir hrx,
   fun _ _ hphase => exec_rtuDec_body_byte dir hrx hphase,
   exec_rtuDec_crcLo dir hrx,
   exec_rtuDec_crcHi_match dir hrx,
   exec_rtuDec_crcHi_mismatch dir hrx⟩

end Sys2Proof.Machine
end


-- ==== Sys2Proof/Proofs/HexDigits.lean ====
section
/-! The hex digits that ASCII frames are written in: their values, and that reading gives back what was sent
(spec/43_ascii.md R212). -/

namespace Sys2Proof.Machine

/-! ## One digit -/

/-- The character of a digit: '0' to '9', then 'A' to 'F'. -/
theorem hexU_toNat (v : BitVec 4) :
    (hexU v).toNat = if v.toNat < 10 then 0x30 + v.toNat else 0x41 + (v.toNat - 10) := by
  have hv := v.isLt
  unfold hexU
  split <;> exact Nat.mod_eq_of_lt (by omega)

/-- A character is a hex digit of either case. -/
def IsHexDigit (c : Byte) : Prop :=
  (0x30 ≤ c.toNat ∧ c.toNat ≤ 0x39) ∨ (0x41 ≤ c.toNat ∧ c.toNat ≤ 0x46) ∨ (0x61 ≤ c.toNat ∧ c.toNat ≤ 0x66)

/-- The digits of either case are the characters with a value. -/
theorem hexVal_isSome_iff (c : Byte) : (hexVal c).isSome = true ↔ IsHexDigit c := by
  unfold hexVal IsHexDigit
  split_ifs with hdec hupper hlower
  · simp [hdec]
  · simp [hupper]
  · simp [hlower]
  · simp [hdec, hupper, hlower]

/-- The value of a digit, by the last character of its range. -/
theorem hexVal_toNat {c : Byte} {v : BitVec 4} (h : hexVal c = some v) :
    v.toNat = if c.toNat ≤ 0x39 then c.toNat - 0x30 else if c.toNat ≤ 0x46 then c.toNat - 0x41 + 10
      else c.toNat - 0x61 + 10 := by
  unfold hexVal at h
  split_ifs at h with hdec hupper hlower
  · cases h
    rw [if_pos hdec.2]
    exact Nat.mod_eq_of_lt (by omega)
  · cases h
    rw [if_neg (by omega), if_pos hupper.2]
    exact Nat.mod_eq_of_lt (by omega)
  · cases h
    rw [if_neg (by omega), if_neg (by omega)]
    exact Nat.mod_eq_of_lt (by omega)

/-- The digit sent for a value is a digit. -/
theorem hexU_isHexDigit (v : BitVec 4) : IsHexDigit (hexU v) := by
  have hv := v.isLt
  unfold IsHexDigit
  rw [hexU_toNat]
  split <;> omega

/-- Reading a sent digit gives back its value. -/
@[simp] theorem hexVal_hexU (v : BitVec 4) : hexVal (hexU v) = some v := by
  obtain ⟨w, hw⟩ := Option.isSome_iff_exists.mp ((hexVal_isSome_iff _).mpr (hexU_isHexDigit v))
  have hvalue : w.toNat = v.toNat := by
    have hv := v.isLt
    rw [hexVal_toNat hw, hexU_toNat]
    by_cases hdigit : v.toNat < 10
    · rw [if_pos hdigit, if_pos (by omega)]
      omega
    · rw [if_neg hdigit, if_neg (by omega), if_pos (by omega)]
      omega
  rw [hw, BitVec.eq_of_toNat_eq hvalue]

/-! ## The two digits of a byte -/

/-- A byte is its two nibbles. -/
@[simp] theorem hiNibble_append_loNibble (b : Byte) : hiNibble b ++ loNibble b = b :=
  (BitVec.extractLsb'_append_extractLsb'_eq_extractLsb' (start₂ := 4) rfl).trans BitVec.extractLsb'_eq_self

/-- Two nibbles as a number. -/
theorem nibbles_append_eq_ofNat (h l : BitVec 4) : h ++ l = BitVec.ofNat 8 (h.toNat * 16 + l.toNat) := by
  have hh := h.isLt
  have hl := l.isLt
  apply BitVec.eq_of_toNat_eq
  rw [BitVec.toNat_append, ← Nat.shiftLeft_add_eq_or_of_lt hl, Nat.shiftLeft_eq]
  exact (Nat.mod_eq_of_lt (by omega)).symm

/-- Two digits stand for the byte of their values. -/
theorem hexBytes_pair {c0 c1 : Byte} {h l : BitVec 4} (h0 : hexVal c0 = some h) (h1 : hexVal c1 = some l) :
    hexBytes [c0, c1] = some [h ++ l] := by
  simp only [hexBytes, h0, h1]

/-- Reading the two digits of a byte gives back the byte. -/
theorem hexBytes_hexPair (b : Byte) : hexBytes (hexPair b) = some [b] := by
  have hread := hexBytes_pair (hexVal_hexU (hiNibble b)) (hexVal_hexU (loNibble b))
  rwa [hiNibble_append_loNibble] at hread

/-- Settles O35: each digit's value, then the pair of digits of a byte. -/
theorem hexDigitsRoundTrip : Obligations.HexDigitsRoundTrip :=
  ⟨hexU_toNat, fun _ _ => hexVal_toNat, hexVal_isSome_iff, hexVal_hexU, fun b => ⟨rfl, hexBytes_hexPair b⟩,
    fun _ _ h l h0 h1 => nibbles_append_eq_ofNat h l ▸ hexBytes_pair h0 h1⟩

end Sys2Proof.Machine
end


-- ==== Sys2Proof/Proofs/AsciiDecHunt.lean ====
section
/-! The block steps of ASCII.DEC outside a frame, one lemma for each outcome of each phase, and the saturation of the
counters (spec/43_ascii.md R213, R215; spec/00_scope.md R11). -/

namespace Sys2Proof.Machine

/-! ## Saturation -/

/-- A counter at its maximum stays there. -/
theorem satAdd_max (k : Nat) : satAdd 0xFFFF#16 k = 0xFFFF#16 := by
  apply BitVec.eq_of_toNat_eq
  rw [satAdd_toNat]
  exact Nat.min_eq_right (Nat.le_add_right _ k)

/-! ## Frame ends -/

/-- CR and LF are the frame ends (R214). -/
theorem isFrameEnd_iff (c : Byte) : isFrameEnd c = true ↔ c = 0x0D#8 ∨ c = 0x0A#8 := by
  simp only [isFrameEnd, chCR, chLF, Bool.or_eq_true, beq_iff_eq]

/-- A frame end does not start a frame (R214). -/
theorem ne_chColon_of_isFrameEnd {c : Byte} (h : isFrameEnd c = true) : c ≠ chColon := by
  rintro rfl
  contradiction

/-! ## The steps -/

section Steps
variable {s : State}

/-- INIT (R213). -/
theorem exec_asciiDec_init (h : s.phase = .init) :
    exec .asciiDec s = .next { s with flen := 0#9, phase := if 0 < s.echoPend.toNat then .echo else .hunt } := by
  simp only [exec, execAsciiDec, h]

variable {c : Byte} {rest : List Byte} (hrx : s.rx = c :: rest)
include hrx

/-- An echo byte is dropped; the last one ends the phase (R172). -/
theorem exec_asciiDec_echo (h : s.phase = .echo) :
    exec .asciiDec s = .next { s with
      rx := rest, rxCount := satAdd s.rxCount 1, echoPend := s.echoPend - 1#16,
      phase := if s.echoPend = 1#16 then .hunt else .echo } := by
  have hlast : s.echoPend - 1#16 = 0#16 ↔ s.echoPend = 1#16 := sub_eq_zero
  simp only [exec, execAsciiDec, h, withRx_cons hrx, hlast]
  split <;> rfl

/-- A colon starts a frame (R213). -/
theorem exec_asciiDec_hunt_colon (h : s.phase = .hunt) (hc : c = chColon) :
    exec .asciiDec s = .next { s with
      rx := rest, rxCount := satAdd s.rxCount 1, idx := 0#9, lrcAcc := 0x00#8, phase := .hi } := by
  simp only [exec, execAsciiDec, h, withRx_cons hrx, if_pos hc, restartFrame]

/-- A frame end between frames is discarded uncounted (R215). -/
theorem exec_asciiDec_hunt_frameEnd (h : s.phase = .hunt) (hc : isFrameEnd c = true) :
    exec .asciiDec s = .next { s with rx := rest, rxCount := satAdd s.rxCount 1 } := by
  simp only [exec, execAsciiDec, h, withRx_cons hrx, if_neg (ne_chColon_of_isFrameEnd hc), if_pos hc]

/-- Every other byte between frames is discarded and counted (R215). -/
theorem exec_asciiDec_hunt_garbage (h : s.phase = .hunt) (hcolon : c ≠ chColon) (hend : ¬ isFrameEnd c = true) :
    exec .asciiDec s = .next { s with
      rx := rest, rxCount := satAdd s.rxCount 1, garbageCnt := satAdd s.garbageCnt 1 } := by
  simp only [exec, execAsciiDec, h, withRx_cons hrx, if_neg hcolon, if_neg hend]

end Steps

/-- Settles O38: the saturation of the counters, then the steps of INIT, of ECHO and of a hunted byte's three classes. -/
theorem asciiDecHuntSteps : Obligations.AsciiDecHuntSteps := by
  refine ⟨fun c k => ⟨satAdd_toNat c k, satAdd_max k⟩, fun s => ⟨exec_asciiDec_init, fun c rest hrx => ?_⟩⟩
  refine ⟨exec_asciiDec_echo hrx, exec_asciiDec_hunt_colon hrx, fun hphase hend => ?_, fun hphase hcolon hcr hlf => ?_⟩
  · exact exec_asciiDec_hunt_frameEnd hrx hphase ((isFrameEnd_iff c).mpr hend)
  · have hend : ¬ isFrameEnd c = true := fun h => ((isFrameEnd_iff c).mp h).elim hcr hlf
    exact exec_asciiDec_hunt_garbage hrx hphase hcolon hend

end Sys2Proof.Machine
end

