-- ==== Sys2Proof/Proofs/Encoding.lean ====
section
/-! The decoder and the encoder are inverse to each other, and a legal word lies in exactly one row of the opcode map
(spec/30_encoding.md R81 to R83, R87). -/

namespace Sys2Proof

/-! ## Fields of a word -/

/-- A field put in its place in an otherwise empty word. -/
def placed {n : Nat} (x : BitVec n) (k : Nat) : Word := x.setWidth 32 <<< k

/-- The bits of a word that the field of `n` bits at place `k` takes. -/
def fieldMask (k n : Nat) : Word := placed (BitVec.allOnes n) k

theorem getElem_placed {n k j : Nat} (x : BitVec n) (hj : j < 32) :
    (placed x k)[j] = (decide (k ≤ j) && x.getLsbD (j - k)) := by
  rw [placed, BitVec.getElem_shiftLeft]
  by_cases h : j < k
  · simp [h, Nat.not_le.mpr h]
  · simp [h, Nat.not_lt.mp h]

/-- The field read where it was put. -/
theorem extractLsb'_placed_same {n k : Nat} (x : BitVec n) (hk : k + n ≤ 32) : (placed x k).extractLsb' k n = x := by
  ext j hj
  rw [BitVec.getElem_extractLsb', BitVec.getLsbD_eq_getElem (by omega), getElem_placed]
  simp [hj, BitVec.getLsbD_eq_getElem]

/-- A field read beside where it was put is 0. -/
theorem extractLsb'_placed_beside {n k j m : Nat} (x : BitVec n) (h : j + m ≤ k ∨ k + n ≤ j) (hj : j + m ≤ 32) :
    (placed x k).extractLsb' j m = 0#m := by
  ext i hi
  rw [BitVec.getElem_extractLsb', BitVec.getLsbD_eq_getElem (by omega), getElem_placed]
  rcases h with h | h
  · simp [show ¬ k ≤ j + i by omega]
  · simp [BitVec.getLsbD_of_ge x (j + i - k) (by omega)]

/-- A field read from a word and put back is the word's bits of that field. -/
theorem placed_extractLsb' {k n : Nat} (w : Word) : placed (w.extractLsb' k n) k = w &&& fieldMask k n := by
  ext j hj
  rw [getElem_placed, BitVec.getElem_and, fieldMask, getElem_placed, BitVec.getLsbD_extractLsb',
    BitVec.getLsbD_allOnes]
  by_cases h : k ≤ j
  · simp [h, show k + (j - k) = j by omega, BitVec.getLsbD_eq_getElem hj, Bool.and_comm]
  · simp [h]

/-- A row's fixed bits and the rest of a word that matches it are the word. -/
theorem OpRow.fixed_or_rest {r : OpRow} {w m : Word} (h : r.hits w = true) (hm : r.mask ||| m = BitVec.allOnes 32) :
    r.fixed ||| w &&& m = w := by
  have hw : w &&& r.mask = r.fixed := beq_iff_eq.mp h
  rw [← hw, ← BitVec.and_or_distrib_left, hm, BitVec.and_allOnes]

/-! ## The words of the commands with operands -/

theorem wellFormed_crcRange_iff {a n : Nat} : WellFormed (.crcRange a n) ↔ a ≤ 255 ∧ n ≤ 511 := by
  simp [WellFormed, Instr.wellFormed]

theorem wellFormed_lrcRange_iff {a n t : Nat} : WellFormed (.lrcRange a n t) ↔ a ≤ 255 ∧ n ≤ 511 ∧ t ≤ 15 := by
  simp [WellFormed, Instr.wellFormed, and_assoc]

/-- START and LEN in their fields (R81). -/
theorem encode_crcRange {a n : Nat} (h : WellFormed (.crcRange a n)) :
    encode (.crcRange a n) = 0x00000003#32 ||| placed (BitVec.ofNat 8 a) 8 ||| placed (BitVec.ofNat 9 n) 16 := by
  obtain ⟨ha, hn⟩ := wellFormed_crcRange_iff.mp h
  simp only [encode, placed, ← Laws.RowMatch.ofNat_eq_field (k := 8) (n := a) (by omega),
    ← Laws.RowMatch.ofNat_eq_field (k := 9) (n := n) (by omega)]

/-- START, LEN and TAIL in their fields (R81). -/
theorem encode_lrcRange {a n t : Nat} (h : WellFormed (.lrcRange a n t)) :
    encode (.lrcRange a n t) = 0x00000006#32 ||| placed (BitVec.ofNat 8 a) 8 ||| placed (BitVec.ofNat 9 n) 16
      ||| placed (BitVec.ofNat 4 t) 25 := by
  obtain ⟨ha, hn, ht⟩ := wellFormed_lrcRange_iff.mp h
  simp only [encode, placed, ← Laws.RowMatch.ofNat_eq_field (k := 8) (n := a) (by omega),
    ← Laws.RowMatch.ofNat_eq_field (k := 9) (n := n) (by omega),
    ← Laws.RowMatch.ofNat_eq_field (k := 4) (n := t) (by omega)]

/-- A decoded field as a number is a number's encoding of it. -/
theorem ofNat_toNat_shift {n k : Nat} (x : BitVec n) : BitVec.ofNat 32 x.toNat <<< k = placed x k := by
  rw [BitVec.ofNat_toNat, placed]

/-! ## From command to word and back -/

/-- A command whose word has its own OP and gives back its own operands is decoded from it. -/
theorem decode_encode_of_accept {i : Instr} (hi : WellFormed i) (h : decode (encode i) = accept (encode i) i) :
    decode (encode i) = .ok i := by
  have hits : (opRow i).hits (encode i) = true := by
    cases i
    case nop => exact Laws.RowMatch.nop hi
    case crcInit => exact Laws.RowMatch.crcInit hi
    case crcByte d => exact Laws.RowMatch.crcByte d hi
    case crcRange a n => exact Laws.RowMatch.crcRange a n hi
    case lrcInit => exact Laws.RowMatch.lrcInit hi
    case lrcByte d => exact Laws.RowMatch.lrcByte d hi
    case lrcRange a n t => exact Laws.RowMatch.lrcRange a n t hi
    case tcpEnc => exact Laws.RowMatch.tcpEnc hi
    case tcpDec => exact Laws.RowMatch.tcpDec hi
    case rtuEnc => exact Laws.RowMatch.rtuEnc hi
    case rtuDec dir => exact Laws.RowMatch.rtuDec dir hi
    case asciiEnc => exact Laws.RowMatch.asciiEnc hi
    case asciiDec => exact Laws.RowMatch.asciiDec hi
  rw [h]
  exact accept_eq_ok_iff.mpr ⟨rfl, hits⟩

/-- A word with its operands in their fields has the OP and the operands that it was made of. -/
theorem decode_encode_crcByte (d : Byte) : decode (encode (.crcByte d)) = accept (encode (.crcByte d)) (.crcByte d) := by
  have hw : encode (.crcByte d) = 0x00000002#32 ||| placed d 8 := rfl
  have hop : opField (encode (.crcByte d)) = 0x2#4 := by
    simp (disch := omega) [hw, opField, BitVec.extractLsb'_or, extractLsb'_placed_beside]
  have hdata : dataField (encode (.crcByte d)) = d := by
    simp (disch := omega) [hw, dataField, BitVec.extractLsb'_or, extractLsb'_placed_same]
  simp only [decode, hop, hdata]
  rfl

theorem decode_encode_lrcByte (d : Byte) : decode (encode (.lrcByte d)) = accept (encode (.lrcByte d)) (.lrcByte d) := by
  have hw : encode (.lrcByte d) = 0x00000005#32 ||| placed d 8 := rfl
  have hop : opField (encode (.lrcByte d)) = 0x5#4 := by
    simp (disch := omega) [hw, opField, BitVec.extractLsb'_or, extractLsb'_placed_beside]
  have hdata : dataField (encode (.lrcByte d)) = d := by
    simp (disch := omega) [hw, dataField, BitVec.extractLsb'_or, extractLsb'_placed_same]
  simp only [decode, hop, hdata]
  rfl

theorem decode_encode_crcRange {a n : Nat} (h : WellFormed (.crcRange a n)) :
    decode (encode (.crcRange a n)) = accept (encode (.crcRange a n)) (.crcRange a n) := by
  have hw := encode_crcRange h
  have hop : opField (encode (.crcRange a n)) = 0x3#4 := by
    simp (disch := omega) [hw, opField, BitVec.extractLsb'_or, extractLsb'_placed_beside]
  have hdata : dataField (encode (.crcRange a n)) = BitVec.ofNat 8 a := by
    simp (disch := omega) [hw, dataField, BitVec.extractLsb'_or, extractLsb'_placed_same, extractLsb'_placed_beside]
  have hlen : lenField (encode (.crcRange a n)) = BitVec.ofNat 9 n := by
    simp (disch := omega) [hw, lenField, BitVec.extractLsb'_or, extractLsb'_placed_same, extractLsb'_placed_beside]
  obtain ⟨ha, hn⟩ := wellFormed_crcRange_iff.mp h
  simp only [decode, hop, hdata, hlen, BitVec.toNat_ofNat, Nat.mod_eq_of_lt (show a < 2 ^ 8 by omega),
    Nat.mod_eq_of_lt (show n < 2 ^ 9 by omega)]

theorem decode_encode_lrcRange {a n t : Nat} (h : WellFormed (.lrcRange a n t)) :
    decode (encode (.lrcRange a n t)) = accept (encode (.lrcRange a n t)) (.lrcRange a n t) := by
  have hw := encode_lrcRange h
  have hop : opField (encode (.lrcRange a n t)) = 0x6#4 := by
    simp (disch := omega) [hw, opField, BitVec.extractLsb'_or, extractLsb'_placed_beside]
  have hdata : dataField (encode (.lrcRange a n t)) = BitVec.ofNat 8 a := by
    simp (disch := omega) [hw, dataField, BitVec.extractLsb'_or, extractLsb'_placed_same, extractLsb'_placed_beside]
  have hlen : lenField (encode (.lrcRange a n t)) = BitVec.ofNat 9 n := by
    simp (disch := omega) [hw, lenField, BitVec.extractLsb'_or, extractLsb'_placed_same, extractLsb'_placed_beside]
  have htail : tailField (encode (.lrcRange a n t)) = BitVec.ofNat 4 t := by
    simp (disch := omega) [hw, tailField, BitVec.extractLsb'_or, extractLsb'_placed_same, extractLsb'_placed_beside]
  obtain ⟨ha, hn, ht⟩ := wellFormed_lrcRange_iff.mp h
  simp only [decode, hop, hdata, hlen, htail, BitVec.toNat_ofNat, Nat.mod_eq_of_lt (show a < 2 ^ 8 by omega),
    Nat.mod_eq_of_lt (show n < 2 ^ 9 by omega), Nat.mod_eq_of_lt (show t < 2 ^ 4 by omega)]

/-- Settles O1: the operands are read back from the fields they were put in, and the word lies in its own row. -/
theorem decodeOfEncodeIsTheCommand : Obligations.DecodeOfEncodeIsTheCommand := by
  intro i hi
  cases i
  case crcByte d => exact decode_encode_of_accept hi (decode_encode_crcByte d)
  case crcRange a n => exact decode_encode_of_accept hi (decode_encode_crcRange hi)
  case lrcByte d => exact decode_encode_of_accept hi (decode_encode_lrcByte d)
  case lrcRange a n t => exact decode_encode_of_accept hi (decode_encode_lrcRange hi)
  case rtuDec dir => cases dir <;> decide
  all_goals decide

/-! ## From word to command and back -/

/-- The DIR bit of the direction that a bit stands for is that bit. -/
theorem Dir.toBit_ofBit : ∀ b : BitVec 1, (Dir.ofBit b).toBit = b := by decide

/-- The decoder's operands fit their fields. -/
theorem wellFormed_of_decode {w : Word} {i : Instr} (h : decode w = .ok i) : WellFormed i := by
  have hdata := (dataField w).isLt
  have hlen := (lenField w).isLt
  have htail := (tailField w).isLt
  unfold decode at h
  split at h
  case h_14 => contradiction -- the reserved values of OP
  all_goals obtain ⟨rfl, -⟩ := accept_eq_ok_iff.mp h
  case h_4 => exact wellFormed_crcRange_iff.mpr (by omega)
  case h_7 => exact wellFormed_lrcRange_iff.mpr (by omega)
  all_goals rfl

/-- A word that matches the row of a command without operands is that command's word. -/
theorem eq_fixed_of_hits {r : OpRow} {w : Word} (h : r.hits w = true) (hm : r.mask = BitVec.allOnes 32) :
    r.fixed = w := by
  rw [← beq_iff_eq.mp h, hm, BitVec.and_allOnes]

/-- A decoded word is its command's word. -/
theorem encode_of_decode {w : Word} {i : Instr} (h : decode w = .ok i) : encode i = w := by
  unfold decode at h
  split at h
  case h_14 => contradiction -- the reserved values of OP
  all_goals obtain ⟨rfl, hit⟩ := accept_eq_ok_iff.mp h
  case h_3 | h_6 => -- CRC.BYTE, LRC.BYTE
    have := OpRow.fixed_or_rest (m := fieldMask 8 8) hit (by simp only [opRow]; decide)
    rwa [← placed_extractLsb'] at this
  case h_4 => -- CRC.RANGE
    have := OpRow.fixed_or_rest (m := fieldMask 8 8 ||| fieldMask 16 9) hit (by simp only [opRow]; decide)
    rw [BitVec.and_or_distrib_left, ← placed_extractLsb', ← placed_extractLsb', ← BitVec.or_assoc] at this
    simp only [encode, ofNat_toNat_shift]
    exact this
  case h_7 => -- LRC.RANGE
    have := OpRow.fixed_or_rest (m := fieldMask 8 8 ||| fieldMask 16 9 ||| fieldMask 25 4) hit (by simp only [opRow]; decide)
    rw [BitVec.and_or_distrib_left, BitVec.and_or_distrib_left, ← placed_extractLsb', ← placed_extractLsb',
      ← placed_extractLsb', ← BitVec.or_assoc, ← BitVec.or_assoc] at this
    simp only [encode, ofNat_toNat_shift]
    exact this
  case h_11 => -- RTU.DEC
    have := OpRow.fixed_or_rest (m := fieldMask 4 1) hit (by simp only [opRow]; decide)
    rw [← placed_extractLsb'] at this
    rwa [encode, Dir.toBit_ofBit]
  all_goals exact eq_fixed_of_hits hit rfl

/-- Settles O2: each row fixes every bit outside its command's fields, and the fields are the operands. -/
theorem legalWordIsEncodingOfItsCommand : Obligations.LegalWordIsEncodingOfItsCommand := fun _ _ h =>
  ⟨wellFormed_of_decode h, encode_of_decode h, opRow_hits_of_decode h⟩

/-! ## One row -/

/-- Every row is the row of a command. -/
theorem exists_opRow_of_mem : ∀ r ∈ opcodeTable, ∃ i, r = opRow i := by
  simp only [opcodeTable, List.forall_mem_cons, List.not_mem_nil, false_implies, implies_true, and_true]
  exact ⟨⟨_, rfl⟩, ⟨_, rfl⟩, ⟨_, rfl⟩, ⟨_, rfl⟩, ⟨_, rfl⟩, ⟨_, rfl⟩, ⟨_, rfl⟩, ⟨_, rfl⟩, ⟨_, rfl⟩, ⟨_, rfl⟩,
    ⟨_, rfl⟩, ⟨_, rfl⟩, ⟨_, rfl⟩⟩

/-- A word that matches a row is legal: OP picks that row, and its operands do not matter to the row. -/
theorem decode_ok_of_hits {w : Word} {r : OpRow} (hr : r ∈ opcodeTable) (h : r.hits w = true) :
    ∃ i, decode w = .ok i := by
  have hop := OpRow.hits_opField (opcodeTable_fixes_opField r hr).1 h
  obtain ⟨i, rfl⟩ := exists_opRow_of_mem r hr
  cases i
  all_goals
    simp only [decode, hop]
    exact ⟨_, accept_eq_ok_iff.mpr ⟨rfl, h⟩⟩

/-- The rows fix OP to different values, in the order of the map. -/
theorem opcodeTable_pairwise : opcodeTable.Pairwise (fun r r' => opField r.fixed ≠ opField r'.fixed) := by decide

/-- Rows that fix OP to different values and all to the same value are at most one. -/
theorem length_le_one_of_same_opField {c : BitVec 4} : ∀ {rows : List OpRow},
    rows.Pairwise (fun r r' => opField r.fixed ≠ opField r'.fixed) → (∀ r ∈ rows, opField r.fixed = c) →
    rows.length ≤ 1
  | [], _, _ => Nat.zero_le _
  | [_], _, _ => Nat.le_refl _
  | r :: r' :: _, hpair, hsame =>
    absurd ((hsame r (by simp)).trans (hsame r' (by simp)).symm) ((List.pairwise_cons.mp hpair).1 r' (by simp))

/-- At most one row matches a word: the rows that do fix OP to the word's. -/
theorem hits_length_le_one (w : Word) : (opcodeTable.filter (fun r => r.hits w)).length ≤ 1 := by
  refine length_le_one_of_same_opField (c := opField w) (opcodeTable_pairwise.filter _) fun r hr => ?_
  obtain ⟨hmem, hit⟩ := List.mem_filter.mp hr
  exact (OpRow.hits_opField (opcodeTable_fixes_opField r hmem).1 hit).symm

/-- Settles O3: a legal word is one that matches a row, and no word matches two. -/
theorem legalExactlyWhenOneRowMatches : Obligations.LegalExactlyWhenOneRowMatches := by
  intro w
  have hle := hits_length_le_one w
  constructor
  · rintro ⟨i, hi⟩
    have hmem : opRow i ∈ opcodeTable.filter (fun r => r.hits w) :=
      List.mem_filter.mpr ⟨opRow_mem_opcodeTable i, opRow_hits_of_decode hi⟩
    have := List.length_pos_of_mem hmem
    omega
  · intro h
    obtain ⟨r, hr⟩ := List.exists_mem_of_length_pos (by omega : 0 < (opcodeTable.filter (fun r => r.hits w)).length)
    obtain ⟨hmem, hit⟩ := List.mem_filter.mp hr
    exact decode_ok_of_hits hmem hit

/-! ## Written words -/

/-- Settles O5: each word is decoded by computation. -/
theorem sampleWordsDecode : Obligations.SampleWordsDecode := by
  unfold Obligations.SampleWordsDecode
  decide

namespace Machine

/-- A command as its mnemonic and operands is parsed as itself (R87). -/
theorem parseCommand_operands (i : Instr) : parseCommand (mnemonic i) (operands i) = some i := by
  cases i
  case crcByte d | lrcByte d =>
    have hd : d.toNat ≤ 255 := Nat.le_of_lt_succ d.isLt
    simp [parseCommand, mnemonic, operands, dataCommand, hd]
  case rtuDec dir => cases dir <;> rfl
  all_goals rfl

/-- A data byte above 255 is refused (R87). -/
theorem dataCommand_eq_none (mk : Byte → Instr) {d : Nat} (h : 255 < d) : dataCommand mk d = none :=
  if_neg (Nat.not_le.mpr h)

/-- Settles O6: a written command is parsed as itself, and the assembler then asks whether it is well formed. -/
theorem assemblerGivesTheWord : Obligations.AssemblerGivesTheWord := by
  refine ⟨fun i => ?_, fun s n => rfl, fun d hd => ?_⟩
  · simp only [assemble, parseCommand_operands]
  · have hcrc : parseCommand "CRC.BYTE" [.num d] = dataCommand .crcByte d := rfl
    have hlrc : parseCommand "LRC.BYTE" [.num d] = dataCommand .lrcByte d := rfl
    simp [assemble, hcrc, hlrc, dataCommand_eq_none _ hd]

end Machine

end Sys2Proof
end

