-- ==== Sys2Proof/Proofs/Issue.lean ====
section
/-! The issue of a command word and what the next block turn finds: the latches hold the word
(spec/30_encoding.md R85). -/

namespace Sys2Proof

/-! ## The latches -/

/-- The bits that no command uses (R84). -/
def reservedBits : Word := 0xE00000E0#32

/-- Every row fixes the reserved bits to 0. -/
theorem opcodeTable_reservedBits : ∀ r ∈ opcodeTable,
    r.mask &&& reservedBits = reservedBits ∧ r.fixed &&& reservedBits = 0#32 := by decide

/-- The reserved bits of a legal word are 0. -/
theorem reservedBits_of_decode {w : Word} {i : Instr} (h : decode w = .ok i) : w &&& reservedBits = 0#32 := by
  have hit : w &&& (opRow i).mask = (opRow i).fixed := beq_iff_eq.mp (opRow_hits_of_decode h)
  obtain ⟨hmask, hfixed⟩ := opcodeTable_reservedBits _ (opRow_mem_opcodeTable i)
  rw [← hmask, ← BitVec.and_assoc, hit, hfixed]

/-- A word is its fields and the reserved bits between them. -/
theorem word_eq_append (w : Word) :
    w.extractLsb' 29 3 ++ tailField w ++ lenField w ++ dataField w ++ w.extractLsb' 5 3 ++ dirField w ++ opField w
      = w := by
  rw [tailField, lenField, dataField, dirField, opField,
    BitVec.extractLsb'_append_extractLsb'_eq_extractLsb' (show 29 = 25 + 4 from rfl),
    BitVec.extractLsb'_append_extractLsb'_eq_extractLsb' (show 25 = 16 + 9 from rfl),
    BitVec.extractLsb'_append_extractLsb'_eq_extractLsb' (show 16 = 8 + 8 from rfl),
    BitVec.extractLsb'_append_extractLsb'_eq_extractLsb' (show 8 = 5 + 3 from rfl),
    BitVec.extractLsb'_append_extractLsb'_eq_extractLsb' (show 5 = 4 + 1 from rfl),
    BitVec.extractLsb'_append_extractLsb'_eq_extractLsb' (show 4 = 0 + 4 from rfl), BitVec.extractLsb'_eq_self]

/-- A word whose reserved bits are 0 is its fields with zeros between them. -/
theorem fields_append {w : Word} (h : w &&& reservedBits = 0#32) :
    0#3 ++ tailField w ++ lenField w ++ dataField w ++ 0#3 ++ dirField w ++ opField w = w := by
  have hhigh : w.extractLsb' 29 3 = 0#3 := by
    have : (w &&& reservedBits).extractLsb' 29 3 = 0#3 := by rw [h]; rfl
    rwa [BitVec.extractLsb'_and, show reservedBits.extractLsb' 29 3 = BitVec.allOnes 3 from rfl,
      BitVec.and_allOnes] at this
  have hmid : w.extractLsb' 5 3 = 0#3 := by
    have : (w &&& reservedBits).extractLsb' 5 3 = 0#3 := by rw [h]; rfl
    rwa [BitVec.extractLsb'_and, show reservedBits.extractLsb' 5 3 = BitVec.allOnes 3 from rfl,
      BitVec.and_allOnes] at this
  have hw := word_eq_append w
  rwa [hhigh, hmid] at hw

namespace Machine

/-- The latches hold the word that was issued. -/
theorem latchedWord_issue {w : Word} {i : Instr} (h : decode w = .ok i) (s : State) :
    latchedWord (issue w s) = w := by
  rw [issue_of_decode_ok h]
  exact fields_append (reservedBits_of_decode h)

/-! ## Fetch -/

theorem fetch_of_idle {s : State} (h : s.busy = false) : fetch s = .idle := by
  simp [fetch, h]

/-- The running command is the one that the latches hold (log 11). -/
theorem fetch_eq_run_iff {s : State} {i : Instr} :
    fetch s = .run i ↔ s.busy = true ∧ decode (latchedWord s) = .ok i := by
  unfold fetch
  cases hbusy : s.busy
  · simp
  · cases hdecode : decode (latchedWord s) <;> simp

/-! ## A host write of CMD -/

/-- A guarded write while busy sets OVR only (spec/60_exceptions.md R256). -/
theorem unlessBusy_of_busy {s : State} (h : s.busy = true) (act : State → State) :
    unlessBusy s act = { s with ovr := true } := by
  simp [unlessBusy, h]

/-- A guarded write while idle takes effect. -/
theorem unlessBusy_of_idle {s : State} (h : s.busy = false) (act : State → State) : unlessBusy s act = act s := by
  simp [unlessBusy, h]

/-- A register is written at its address (spec/20_memory.md R61). -/
theorem hostWrite_reg (r : HostReg) (v : Word) (s : State) : hostWrite 32 r.addr v s = .next (writeReg r v s) := by
  cases r <;> rfl

/-- Settles O7: the guard of CMD drops the write while busy; otherwise it is an issue, of a refused or a legal word. -/
theorem cmdWriteIssues : Obligations.CmdWriteIssues := by
  refine fun w s => ⟨fun hbusy => ?_, fun e hidle he => ?_, fun i hidle hi => ?_⟩
  · exact (hostWrite_reg .cmd w s).trans (congrArg Host.Outcome.next (unlessBusy_of_busy hbusy _))
  · rw [hostWrite_cmd_of_idle hidle, issue_of_decode_error he]
  · rw [hostWrite_cmd_of_idle hidle, issue_of_decode_ok hi]
    rfl

/-- Settles O8: the issue latches the word, and the fetch decodes the latched word. -/
theorem issuedCommandIsFetched : Obligations.IssuedCommandIsFetched := by
  intro w i s t hidle hi hwrite
  rw [hostWrite_cmd_of_idle hidle] at hwrite
  cases hwrite
  have hlatched := latchedWord_issue hi s
  have hissue := issue_of_decode_ok hi s
  refine ⟨hlatched, fetch_eq_run_iff.mpr ⟨?_, ?_⟩, ?_⟩
  · rw [hissue]
  · rw [hlatched, hi]
  · rw [hissue]

end Machine

end Sys2Proof
end

