-- ==== Sys2Proof/Proofs/Turns.lean ====
section
/-! What each agent's turn does (spec/20_memory.md R65, R66; spec/30_encoding.md R86, R88, R89). -/

namespace Sys2Proof.Machine

/-- With the schedule used up the step is the block's (log 2). -/
theorem step_of_sched_nil {s : State} (h : s.sched = []) : step s = blockTurn s := by
  simp only [step, h]

/-- The step is the turn of the agent that comes first. -/
theorem step_of_sched_cons {s : State} {turn : Turn} {rest : List Turn} (h : s.sched = turn :: rest) :
    step s = agentTurn turn { s with sched := rest } := by
  simp only [step, h]

/-- A block turn of a running command is a block step of it. -/
theorem blockTurn_of_run {s : State} {i : Instr} (h : fetch s = .run i) : blockTurn s = exec i s := by
  simp only [blockTurn, h]

/-- A block turn while idle changes nothing (spec/20_memory.md R67). -/
theorem blockTurn_of_idle {s : State} (h : s.busy = false) : blockTurn s = .next s := by
  simp only [blockTurn, fetch_of_idle h]

/-- Settles O9: the fetch reads neither the schedule nor CMD. -/
theorem stepRunsTheLatchedCommand : Obligations.StepRunsTheLatchedCommand := by
  refine fun s i hbusy hi => ⟨fun hsched => ?_, fun rest hsched => ?_⟩
  · rw [step_of_sched_nil hsched, blockTurn_of_run (fetch_eq_run_iff.mpr ⟨hbusy, hi⟩)]
  · have hfetch : fetch { s with sched := rest } = .run i := fetch_eq_run_iff.mpr ⟨hbusy, hi⟩
    rw [step_of_sched_cons hsched]
    exact blockTurn_of_run hfetch

section HostTurn
variable {s : State} {rest : List Turn} (hsched : s.sched = .host :: rest)
include hsched

/-- A HOST turn is the program's next access, taken from the program. -/
theorem step_host_read {bits addr : Nat} {ops : List HostOp} (hprog : s.prog = .read bits addr :: ops) :
    step s = hostRead bits addr { s with sched := rest, prog := ops } := by
  simp only [step_of_sched_cons hsched, agentTurn, hostTurn, hprog]

theorem step_host_write {bits addr : Nat} {v : Word} {ops : List HostOp}
    (hprog : s.prog = .write bits addr v :: ops) :
    step s = hostWrite bits addr v { s with sched := rest, prog := ops } := by
  simp only [step_of_sched_cons hsched, agentTurn, hostTurn, hprog]

/-- A poll of `WAIT` leaves it in the program while BUSY = 1 (spec/30_encoding.md R89). -/
theorem step_host_wait {ops : List HostOp} (hprog : s.prog = .wait :: ops) :
    step s = .next { s with
      sched := rest, readData := some (statusWord s), prog := if s.busy then .wait :: ops else ops } := by
  simp only [step_of_sched_cons hsched, agentTurn, hostTurn, hprog, waitPoll_eq]
  rfl

/-- With its program done HOST has nothing to do (log 10). -/
theorem step_host_done (hprog : s.prog = []) : step s = .next { s with sched := rest } := by
  simp only [step_of_sched_cons hsched, agentTurn, hostTurn, hprog]

end HostTurn

/-- The environment takes the oldest byte of the TX FIFO onto the wire (spec/10_state.md R43). -/
theorem envTake_cons {s : State} {b : Byte} {bs : List Byte} (h : s.txFifo = b :: bs) :
    envTake s = { s with txFifo := bs, txWire := s.txWire ++ [b] } := by
  simp only [envTake, h]

/-- With an empty TX FIFO there is nothing to take (log 10). -/
theorem envTake_nil {s : State} (h : s.txFifo = []) : envTake s = s := by
  simp only [envTake, h]

/-- Settles O10: the idle block, the four turns of HOST and the turns of the environment. -/
theorem idleBlockHostAndEnvironmentTurns : Obligations.IdleBlockHostAndEnvironmentTurns := by
  refine fun s rest => ⟨fun hidle hsched => ?_, fun hidle hsched => ?_, fun hsched => ?_, fun b hsched => ?_,
    fun b bs hsched hfifo => ?_, fun hsched hfifo => ?_⟩
  · rw [step_of_sched_nil hsched, blockTurn_of_idle hidle]
  · rw [step_of_sched_cons hsched]
    exact blockTurn_of_idle hidle
  · exact ⟨fun _ _ _ => step_host_read hsched, fun _ _ _ _ => step_host_write hsched, fun _ => step_host_wait hsched,
      step_host_done hsched⟩
  · rw [step_of_sched_cons hsched]
    rfl
  · rw [step_of_sched_cons hsched]
    exact congrArg Host.Outcome.next (envTake_cons (s := { s with sched := rest }) hfifo)
  · rw [step_of_sched_cons hsched]
    exact congrArg Host.Outcome.next (envTake_nil (s := { s with sched := rest }) hfifo)

end Sys2Proof.Machine
end

