-- ==== Sys2Proof/Proofs/HostRegisters.lean ====
section
/-! The host's reads and writes of every register and of FBUF, STATUS bit by bit, abort and the two resets
(spec/10_state.md R21 to R44; spec/20_memory.md R61 to R63). -/

namespace Sys2Proof.Machine

/-! ## Addresses -/

/-- The registers' addresses end at 0x040 (R61). -/
theorem HostReg.addr_le (r : HostReg) : r.addr ≤ 0x040 := by
  cases r <;> decide

/-- Above them is reserved, up to FBUF. -/
theorem hostTarget_reserved {a : Nat} (hlo : 0x044 ≤ a) (hhi : a ≤ 0x0FF) (h4 : a % 4 = 0) :
    hostTarget 32 a = some .reserved := by
  have hnone : hostRegs.find? (fun r => r.addr == a) = none := by
    refine List.find?_eq_none.mpr fun r _ => ?_
    have := r.addr_le
    simp only [beq_iff_eq]
    omega
  simp only [hostTarget, if_pos (show a < 0x100 by omega), h4, and_self, if_true, hnone]

/-- FBUF byte `i` is at 0x100 + i. -/
theorem hostTarget_fbuf {i : Nat} (hi : i < 256) : hostTarget 8 (0x100 + i) = some (.fbuf i) := by
  simp only [hostTarget, if_neg (show ¬ 0x100 + i < 0x100 by omega), if_pos (show 0x100 + i ≤ 0x1FF by omega), if_true,
    Nat.add_sub_cancel_left]

/-! ## Reads -/

/-- A register is read at its address. -/
theorem hostRead_reg (r : HostReg) (s : State) :
    hostRead 32 r.addr s = .next { s with readData := some (readReg r s) } := by
  cases r <;> rfl

/-- CTRL reads IRQ_EN and ECHO_EN, and 0 elsewhere (spec/10_state.md R22). -/
theorem ctrlWord_eq (s : State) :
    ctrlWord s = (if s.irqEn then 0x1#32 else 0x0#32) ||| (if s.echoEn then 0x2#32 else 0x0#32) := by
  unfold ctrlWord bit
  cases s.irqEn <;> cases s.echoEn <;> rfl

/-- LRC reads the two's complement of the sum (spec/10_state.md R27). -/
theorem lrcReg_setWidth (s : State) : (lrcReg s).setWidth 32 = BitVec.ofNat 32 ((256 - s.lrcAcc.toNat) % 256) := by
  apply BitVec.eq_of_toNat_eq
  simp only [lrcReg, lrcOfSum, BitVec.toNat_setWidth, BitVec.toNat_ofNat]
  omega

/-- What a register reads as does not depend on what was read before. -/
theorem readReg_readData (r : HostReg) (s : State) (x : Option Word) :
    readReg r { s with readData := x } = readReg r s := by
  cases r <;> rfl

/-- A read again with no step between returns the same (spec/20_memory.md R63). -/
theorem hostRead_again {bits addr : Nat} {s t : State} (h : hostRead bits addr s = .next t) :
    hostRead bits addr t = .next t := by
  unfold hostRead at h ⊢
  split at h
  case h_1 => contradiction
  case h_2 r htarget =>
    cases h
    simp only [readReg_readData]
  case h_3 htarget => cases h; rfl
  case h_4 i htarget =>
    split at h
    all_goals
      rename_i hread
      cases h
      simp only [hread]

/-- Settles O47: each register at its address, the reserved offsets, FBUF, and reading again. -/
theorem hostReadsReturnTheRegisters : Obligations.HostReadsReturnTheRegisters := by
  refine fun s => ⟨fun a v hav => ?_, fun a hlo hhi h4 => ?_, fun i b hi hread => ?_, fun i hi hread => ?_,
    fun bits addr t => hostRead_again⟩
  · simp only [List.mem_cons, Prod.mk.injEq, List.not_mem_nil, or_false] at hav
    rcases hav with ⟨rfl, rfl⟩ | ⟨rfl, rfl⟩ | ⟨rfl, rfl⟩ | ⟨rfl, rfl⟩ | ⟨rfl, rfl⟩ | ⟨rfl, rfl⟩ | ⟨rfl, rfl⟩ |
      ⟨rfl, rfl⟩ | ⟨rfl, rfl⟩ | ⟨rfl, rfl⟩ | ⟨rfl, rfl⟩ | ⟨rfl, rfl⟩ | ⟨rfl, rfl⟩ | ⟨rfl, rfl⟩ | ⟨rfl, rfl⟩ |
      ⟨rfl, rfl⟩ | ⟨rfl, rfl⟩
    · rw [← ctrlWord_eq]; exact hostRead_reg .ctrl s
    · exact hostRead_reg .cmd s
    · exact hostRead_reg .status s
    · exact hostRead_reg .crc s
    · exact hostRead_reg .lrcAcc s
    · rw [← lrcReg_setWidth]; exact hostRead_reg .lrc s
    · exact hostRead_reg .flen s
    · exact hostRead_reg .mbapTid s
    · exact hostRead_reg .mbapPid s
    · exact hostRead_reg .mbapLen s
    · exact hostRead_reg .rxCrc s
    · exact hostRead_reg .garbageCnt s
    · exact hostRead_reg .skipCnt s
    · exact hostRead_reg .echoPend s
    · exact hostRead_reg .rxCount s
    · exact hostRead_reg .txCount s
    · exact hostRead_reg .id s
  · simp only [hostRead, hostTarget_reserved hlo hhi h4]
  · simp only [hostRead, hostTarget_fbuf hi, hread]
  · exact ⟨Config.freeByte s.powerUp i, by simp only [hostRead, hostTarget_fbuf hi, hread]⟩

/-! ## Writes -/

/-- The registers that a running command guards (spec/60_exceptions.md R256). -/
def busyGuarded : List HostReg := [.cmd, .crc, .lrcAcc, .flen, .mbapTid, .garbageCnt, .skipCnt, .echoPend]

/-- The registers that no write changes (spec/10_state.md R21). -/
def readOnly : List HostReg := [.lrc, .mbapPid, .mbapLen, .rxCrc, .rxCount, .txCount, .id]

theorem exists_busyGuarded_addr : ∀ a ∈ [0x004, 0x00C, 0x010, 0x018, 0x01C, 0x02C, 0x030, 0x034],
    ∃ r ∈ busyGuarded, r.addr = a := by decide

theorem exists_readOnly_addr : ∀ a ∈ [0x014, 0x020, 0x024, 0x028, 0x038, 0x03C, 0x040],
    ∃ r ∈ readOnly, r.addr = a := by decide

/-- A guarded write while busy is dropped with OVR. -/
theorem writeReg_of_busy {r : HostReg} (hr : r ∈ busyGuarded) {s : State} (hbusy : s.busy = true) (v : Word) :
    writeReg r v s = { s with ovr := true } := by
  simp only [busyGuarded, List.mem_cons, List.not_mem_nil, or_false] at hr
  rcases hr with rfl | rfl | rfl | rfl | rfl | rfl | rfl | rfl <;>
    simp only [writeReg, unlessBusy_of_busy hbusy]

/-- A write to a read-only register is ignored. -/
theorem writeReg_of_readOnly {r : HostReg} (hr : r ∈ readOnly) (v : Word) (s : State) : writeReg r v s = s := by
  simp only [readOnly, List.mem_cons, List.not_mem_nil, or_false] at hr
  rcases hr with rfl | rfl | rfl | rfl | rfl | rfl | rfl <;> rfl

/-- A write of an FBUF byte is guarded as the registers are (log 6). -/
theorem hostWrite_fbuf {i : Nat} (hi : i < 256) (v : Word) (s : State) :
    hostWrite 8 (0x100 + i) v s =
      .next (unlessBusy s fun s => { s with fbuf := Memory.write s.fbuf i (v.setWidth 8) }) := by
  simp only [hostWrite, hostTarget_fbuf hi]

/-- Settles O48: the guarded registers and FBUF while busy, the read-only registers, the reserved offsets. -/
theorem busyWritesAreDropped : Obligations.BusyWritesAreDropped := by
  refine fun s v => ⟨fun hbusy => ⟨fun a ha => ?_, fun i hi => ?_⟩, fun a ha => ?_, fun a hlo hhi h4 => ?_⟩
  · obtain ⟨r, hr, rfl⟩ := exists_busyGuarded_addr a ha
    rw [hostWrite_reg, writeReg_of_busy hr hbusy]
  · rw [hostWrite_fbuf hi, unlessBusy_of_busy hbusy]
  · obtain ⟨r, hr, rfl⟩ := exists_readOnly_addr a ha
    rw [hostWrite_reg, writeReg_of_readOnly hr]
  · simp only [hostWrite, hostTarget_reserved hlo hhi h4]

/-- Settles O49: each guard lets the write through, and a register's low bits are a field of the data. -/
theorem idleWritesTakeEffect : Obligations.IdleWritesTakeEffect := by
  intro s v hidle
  have hcrc := hostWrite_reg .crc v s
  have hacc := hostWrite_reg .lrcAcc v s
  have hflen := hostWrite_reg .flen v s
  have htid := hostWrite_reg .mbapTid v s
  have hgarbage := hostWrite_reg .garbageCnt v s
  have hskip := hostWrite_reg .skipCnt v s
  have hecho := hostWrite_reg .echoPend v s
  simp only [writeReg, unlessBusy_of_idle hidle] at hcrc hacc hflen htid hgarbage hskip hecho
  simp only [← BitVec.setWidth_eq_extractLsb' (show 16 ≤ 32 by omega),
    ← BitVec.setWidth_eq_extractLsb' (show 8 ≤ 32 by omega), ← BitVec.setWidth_eq_extractLsb' (show 9 ≤ 32 by omega)]
  refine ⟨hcrc, hacc, hflen, htid, hgarbage, hskip, hecho, fun i hi => ?_⟩
  refine ⟨{ s with fbuf := Memory.write s.fbuf i (v.setWidth 8) }, ?_, rfl, Memory.read_write_same .., fun k hk =>
    Memory.read_write_other hk⟩
  rw [hostWrite_fbuf hi, unlessBusy_of_idle hidle]

/-! ## STATUS -/

/-- The bits of a word put together as STATUS is. -/
theorem statusBits : ∀ (irq ovr err done busy : Bool) (code : BitVec 4),
    let w : Word := 0#23 ++ bit irq ++ code ++ bit ovr ++ bit err ++ bit done ++ bit busy
    w.getLsbD 0 = busy ∧ w.getLsbD 1 = done ∧ w.getLsbD 2 = err ∧ w.getLsbD 3 = ovr ∧ w.extractLsb' 4 4 = code ∧
      w.getLsbD 8 = irq ∧ w.extractLsb' 9 23 = 0#23 := by decide

/-- A STATUS write as its write-one-to-clear bits (spec/10_state.md R24). -/
theorem writeStatus_eq (v : Word) (s : State) :
    writeStatus v s = { s with
      done := if v.getLsbD 1 then false else s.done, err := if v.getLsbD 2 then false else s.err,
      errCode := if v.getLsbD 2 then .none else s.errCode, ovr := if v.getLsbD 3 then false else s.ovr } := by
  have hclear (b c : Bool) : (b && !c) = if c then false else b := by cases b <;> cases c <;> rfl
  simp only [writeStatus, hclear]

/-- Settles O50: STATUS is its bits put together, and a write clears the bits written with 1. -/
theorem statusReadAndWrite : Obligations.StatusReadAndWrite := by
  refine ⟨⟨rfl, rfl, rfl, rfl, rfl, rfl, rfl, rfl⟩, fun s v => ⟨statusBits .., ?_⟩⟩
  rw [← writeStatus_eq]
  exact hostWrite_reg .status v s

/-! ## CTRL: abort and soft reset -/

/-- CTRL with SRST = 1 is the soft reset (spec/70_reset_and_hazards.md R281). -/
theorem writeCtrl_of_srst {v : Word} (h : v.getLsbD 3 = true) (s : State) : writeCtrl v s = softReset s := by
  simp only [writeCtrl, h, if_true]

/-- CTRL with SRST = 0 writes IRQ_EN and ECHO_EN, and aborts if ABORT = 1 (spec/10_state.md R22). -/
theorem writeCtrl_of_not_srst {v : Word} (h : v.getLsbD 3 = false) (s : State) :
    writeCtrl v s =
      if v.getLsbD 2 then abort { s with irqEn := v.getLsbD 0, echoEn := v.getLsbD 1 }
      else { s with irqEn := v.getLsbD 0, echoEn := v.getLsbD 1 } := by
  simp only [writeCtrl, h, Bool.false_eq_true, if_false]

/-- The decoders by their OP (spec/30_encoding.md R83). -/
theorem decoderLatched_iff (s : State) : decoderLatched s = true ↔ s.lOp ∈ [0x8#4, 0xA#4, 0xC#4] := by
  simp [decoderLatched, or_assoc]

/-- Settles O51: an abort of a busy block is a failure, and of an idle one nothing. -/
theorem abortEndsTheCommand : Obligations.AbortEndsTheCommand := by
  refine fun s v hsrst => ⟨fun habort hbusy => ?_, fun hnot => ?_⟩
  · have hwrite : writeCtrl v s = abort { s with irqEn := v.getLsbD 0, echoEn := v.getLsbD 1 } := by
      rw [writeCtrl_of_not_srst hsrst, if_pos habort]
    rw [abort_busy (s := { s with irqEn := v.getLsbD 0, echoEn := v.getLsbD 1 }) hbusy] at hwrite
    simp only [decoderLatched_iff] at hwrite
    exact (hostWrite_reg .ctrl v s).trans (congrArg Host.Outcome.next hwrite)
  · have hwrite : writeCtrl v s = { s with irqEn := v.getLsbD 0, echoEn := v.getLsbD 1 } := by
      rw [writeCtrl_of_not_srst hsrst]
      rcases hnot with hnot | hidle
      · rw [hnot]; rfl
      · rw [abort_idle (s := { s with irqEn := v.getLsbD 0, echoEn := v.getLsbD 1 }) hidle, ite_self]
    exact (hostWrite_reg .ctrl v s).trans (congrArg Host.Outcome.next hwrite)

/-- After a reset CRC reads 0xFFFF, ID its word, and every other register 0 (spec/10_state.md R44). -/
theorem readReg_hardReset (r : HostReg) (s : State) :
    readReg r (hardReset s) = if r = .crc then 0x0000FFFF#32 else if r = .id then 0x4D424631#32 else 0#32 := by
  have hreset : readReg r (hardReset s) = readReg r State.reset := by cases r <;> rfl
  rw [hreset]
  cases r <;> decide

/-- Settles O52: both resets are the reset state with what is not the block's kept. -/
theorem resetsGiveTheResetValues : Obligations.ResetsGiveTheResetValues := by
  refine fun s rest => ⟨fun hsched => ?_, fun v hsrst => ?_⟩
  · refine ⟨hardReset { s with sched := rest }, step_of_sched_cons hsched, rfl, fun r => readReg_hardReset r _,
      fun k => rfl, rfl, rfl, rfl, rfl, rfl, rfl, rfl, rfl, rfl, rfl, rfl, rfl, rfl, rfl⟩
  · exact (hostWrite_reg .ctrl v s).trans (congrArg Host.Outcome.next (writeCtrl_of_srst hsrst s))

end Sys2Proof.Machine
end

