-- ==== Sys2Proof/Proofs/StepRules.lean ====
section
/-! How a command step that is built from the shared operations can answer: with a next state or with a fault
(spec/00_scope.md R11). And what every command step has in common, whichever command it is. -/

namespace Sys2Proof.Machine

/-! ## Steps that answer a next state -/

section Next
variable {s t : State} {i n : Nat} {b : Byte}

/-- A popping step that answers holds or goes on with the byte it took. -/
theorem withRx_next {act : Byte → State → Out} (h : withRx s act = .next t) :
    t = s ∨ ∃ b rest, s.rx = b :: rest ∧ act b { s with rx := rest, rxCount := satAdd s.rxCount 1 } = .next t := by
  rcases withRx_cases s act with ⟨-, hw⟩ | ⟨b, rest, hrx, hw⟩
  · exact .inl (Host.Outcome.next.inj (h.symm.trans hw))
  · exact .inr ⟨b, rest, hrx, hw ▸ h⟩

/-- A pushing step that answers holds or goes on with room for a byte. -/
theorem withTx_next {act : State → Out} (h : withTx s act = .next t) :
    t = s ∨ s.txFifo.length < s.txDepth ∧ act s = .next t := by
  rcases withTx_cases s act with ⟨-, hw⟩ | ⟨hroom, hw⟩
  · exact .inl (Host.Outcome.next.inj (h.symm.trans hw))
  · exact .inr ⟨hroom, hw ▸ h⟩

/-- A step that reads an FBUF byte and answers found it written. -/
theorem withByte_next {act : Byte → Out} (h : withByte i s act = .next t) :
    ∃ b, i < 256 ∧ Memory.read s.fbuf i = some b ∧ act b = .next t := by
  rcases withByte_cases i s act with ⟨b, hi, hb, hw⟩ | ⟨-, -, hw⟩ | ⟨-, hw⟩ <;> rw [hw] at h
  · exact ⟨b, hi, hb, h⟩
  · contradiction
  · contradiction

/-- A step that stores an FBUF byte and answers stored one that exists. -/
theorem storeByte_next {act : State → Out} (h : storeByte i b s act = .next t) :
    i < 256 ∧ act { s with fbuf := Memory.write s.fbuf i b } = .next t := by
  rcases storeByte_cases i b s act with ⟨hi, hw⟩ | ⟨-, hw⟩ <;> rw [hw] at h
  · exact ⟨hi, h⟩
  · contradiction

/-- A step that reads a range and answers found it written. -/
theorem withBytes_next {act : List Byte → Out} (h : withBytes i n s act = .next t) :
    ∃ bs, Memory.slice s.fbuf i n = .ok bs ∧ act bs = .next t := by
  rcases withBytes_cases i n s act with ⟨bs, hbs, hw⟩ | ⟨j, -, hw⟩ <;> rw [hw] at h
  · exact ⟨bs, hbs, h⟩
  · contradiction

end Next

/-! ## Steps that fault -/

section Fault
variable {s : State} {f : Fault} {i n : Nat} {b : Byte}

theorem withRx_fault {act : Byte → State → Out} (h : withRx s act = .fault f) :
    ∃ b rest, s.rx = b :: rest ∧ act b { s with rx := rest, rxCount := satAdd s.rxCount 1 } = .fault f := by
  rcases withRx_cases s act with ⟨-, hw⟩ | ⟨b, rest, hrx, hw⟩ <;> rw [hw] at h
  · contradiction
  · exact ⟨b, rest, hrx, h⟩

theorem withTx_fault {act : State → Out} (h : withTx s act = .fault f) : act s = .fault f := by
  rcases withTx_cases s act with ⟨-, hw⟩ | ⟨-, hw⟩ <;> rw [hw] at h
  · contradiction
  · exact h

/-- A step that goes on to a next state with every FBUF byte faults only on an unwritten or missing one. -/
theorem withByte_fault {act : Byte → Out} (hact : ∀ b, act b ≠ .fault f) (hi : i < 256)
    (h : withByte i s act = .fault f) : f = .fbufUnwritten i ∧ Memory.read s.fbuf i = none := by
  rcases withByte_cases i s act with ⟨b, -, -, hw⟩ | ⟨-, hb, hw⟩ | ⟨hge, -⟩
  · exact absurd (hw ▸ h) (hact b)
  · rw [hw] at h
    exact ⟨(Host.Outcome.fault.inj h).symm, hb⟩
  · omega

theorem storeByte_fault {act : State → Out} (hi : i < 256) (h : storeByte i b s act = .fault f) :
    act { s with fbuf := Memory.write s.fbuf i b } = .fault f := by
  rwa [storeByte_lt hi] at h

theorem withBytes_fault {act : List Byte → Out} {bs : List Byte} (hbs : Memory.slice s.fbuf i n = .ok bs)
    (h : withBytes i n s act = .fault f) : act bs = .fault f := by
  simpa only [withBytes, hbs] using h

end Fault

/-! ## What every command step has in common -/

/-- How a step leaves BUSY, DONE, ERR, ERRCODE and PHASE: the command goes on, completes or fails. -/
inductive Flags (s t : State) : Prop where
  | goesOn (busy : t.busy = s.busy) (done : t.done = s.done) (err : t.err = s.err) (code : t.errCode = s.errCode)
      (phase : t.phase = .idle ↔ s.phase = .idle)
  | completes (busy : t.busy = false) (done : t.done = true) (err : t.err = s.err) (code : t.errCode = s.errCode)
      (phase : t.phase = .idle)
  | fails (busy : t.busy = false) (done : t.done = s.done) (err : t.err = true) (code : t.errCode ≠ .none)
      (phase : t.phase = .idle)

/-- What a step of any command keeps: everything but the registers that some command writes, the bytes already in the
TX FIFO, the order of RX, the canonical form of FBUF. -/
structure BlockStep (s t : State) : Prop where
  frame : t = { s with
    busy := t.busy, done := t.done, err := t.err, errCode := t.errCode, crc := t.crc, lrcAcc := t.lrcAcc,
    flen := t.flen, mbapTid := t.mbapTid, mbapPid := t.mbapPid, mbapLen := t.mbapLen, rxCrc := t.rxCrc,
    garbageCnt := t.garbageCnt, skipCnt := t.skipCnt, echoPend := t.echoPend, rxCount := t.rxCount,
    txCount := t.txCount, fbuf := t.fbuf, phase := t.phase, idx := t.idx, cnt := t.cnt, h := t.h, nib := t.nib,
    g := t.g, txFifo := t.txFifo, rx := t.rx }
  flags : Flags s t
  fifo : t.txFifo = s.txFifo ∨ s.txFifo.length < s.txDepth ∧ ∃ b, t.txFifo = s.txFifo ++ [b]
  rx : t.rx <:+ s.rx
  fbuf : Memory.wf s.fbuf → Memory.wf t.fbuf

/-- A step that holds. -/
theorem BlockStep.hold (s : State) : BlockStep s s :=
  ⟨rfl, .goesOn rfl rfl rfl rfl Iff.rfl, .inl rfl, List.suffix_rfl, id⟩

/-- A step that pops leaves the rest of RX. -/
theorem suffix_of_rx {s : State} {b : Byte} {rest : List Byte} (h : s.rx = b :: rest) : rest <:+ s.rx :=
  h ▸ List.suffix_cons b rest

end Sys2Proof.Machine
end

