-- ==== Sys2Proof/Proofs/ChecksumLaws.lean ====
section
/-! The two checksums as functions of a byte list: a single-bit error changes them, and a frame with its checksum has
residue 0 (spec/40_checksum.md R100 to R102, R112). -/

namespace Sys2Proof.Machine

/-! ## CRC rounds are injective -/

/-- The bit that a round shifts out comes back as its top bit. -/
theorem getLsbD_crcRound_top (c : Half) : (crcRound c).getLsbD 15 = c.getLsbD 0 := by
  unfold crcRound
  split
  case isTrue h => rw [h, BitVec.getLsbD_xor, BitVec.getLsbD_ushiftRight, BitVec.getLsbD_of_ge c _ (by omega)]; rfl
  case isFalse h =>
    rw [Bool.not_eq_true] at h
    rw [h, BitVec.getLsbD_ushiftRight, BitVec.getLsbD_of_ge c _ (by omega)]

/-- Two halfwords with the same bit 0 and the same upper bits are the same. -/
theorem eq_of_ushiftRight_one {c d : Half} (h0 : c.getLsbD 0 = d.getLsbD 0) (h : c >>> 1 = d >>> 1) : c = d := by
  apply BitVec.eq_of_getLsbD_eq
  intro j _
  cases j with
  | zero => exact h0
  | succ j =>
    have hj : (c >>> 1).getLsbD j = (d >>> 1).getLsbD j := by rw [h]
    simpa only [BitVec.getLsbD_ushiftRight, Nat.add_comm] using hj

theorem crcRound_injective : Function.Injective crcRound := by
  intro c d h
  have h0 : c.getLsbD 0 = d.getLsbD 0 := by rw [← getLsbD_crcRound_top, ← getLsbD_crcRound_top, h]
  refine eq_of_ushiftRight_one h0 ?_
  unfold crcRound at h
  rw [← h0] at h
  split at h
  · exact (BitVec.xor_left_inj _).mp h
  · exact h

theorem crcRounds_injective (k : Nat) : Function.Injective (crcRounds k) := by
  induction k with
  | zero => exact fun _ _ h => h
  | succ k ih => exact fun _ _ h => crcRound_injective (ih h)

/-- A CRC step forgets nothing of the CRC so far. -/
theorem crcStep_injective_left (b : Byte) : Function.Injective (crcStep · b) := fun _ _ h =>
  (BitVec.xor_left_inj _).mp (crcRounds_injective 8 h)

/-- A CRC step forgets nothing of the byte. -/
theorem crcStep_injective_right (c : Half) : Function.Injective (crcStep c) := by
  intro a b h
  have hwide : a.setWidth 16 = b.setWidth 16 := (BitVec.xor_right_inj _).mp (crcRounds_injective 8 h)
  simpa using congrArg (BitVec.setWidth 8) hwide

/-! ## Single-bit errors -/

/-- A fold whose steps forget nothing of the accumulator forgets nothing of the first one. -/
theorem foldl_injective {α β : Type} {f : α → β → α} (hf : ∀ b, Function.Injective (f · b)) (ys : List β) :
    Function.Injective (ys.foldl f) := by
  induction ys with
  | nil => exact fun _ _ h => h
  | cons y ys ih => exact fun _ _ h => hf y (ih h)

/-- A flipped bit makes another byte. -/
theorem flip_ne (b : Byte) {k : Nat} (hk : k < 8) : b ^^^ (1#8 <<< k) ≠ b := by
  intro h
  have hbit : (b ^^^ (1#8 <<< k)).getLsbD k = b.getLsbD k := by rw [h]
  simp [hk] at hbit

/-- Settles O18: each step of both folds forgets nothing, so that one different byte makes a different checksum. -/
theorem checksumsDetectSingleBitErrors : Obligations.ChecksumsDetectSingleBitErrors := by
  refine fun xs ys b k hk => ⟨fun h => flip_ne b hk ?_, fun h => flip_ne b hk ?_⟩
  · simp only [crc16, List.foldl_append, List.foldl_cons] at h
    exact crcStep_injective_right _ (foldl_injective crcStep_injective_left ys h)
  · simp only [lrc, lrcOfSum_eq_neg, byteSum, List.foldl_append, List.foldl_cons] at h
    exact add_left_cancel (foldl_injective add_left_injective ys (BitVec.neg_inj.mp h))

/-! ## Residues -/

/-- Rounds that shift out only zeros are a shift. -/
theorem crcRounds_eq_ushiftRight (k : Nat) (c : Half) (h : ∀ j < k, c.getLsbD j = false) :
    crcRounds k c = c >>> k := by
  induction k generalizing c with
  | zero => rw [BitVec.ushiftRight_zero]; rfl
  | succ k ih =>
    have hround : crcRound c = c >>> 1 := if_neg (by rw [h 0 (by omega)]; decide)
    have hlow : ∀ j < k, (c >>> 1).getLsbD j = false := fun j hj => by
      rw [BitVec.getLsbD_ushiftRight]
      exact h (1 + j) (by omega)
    rw [crcRounds, hround, ih _ hlow, ← BitVec.shiftRight_add, Nat.add_comm]

/-- The low byte of a CRC, taken into it, leaves the high byte. -/
theorem crcStep_loByte (c : Half) : crcStep c (loByte c) = (hiByte c).setWidth 16 := by
  have hlow : ∀ j < 8, (c ^^^ (loByte c).setWidth 16).getLsbD j = false := fun j hj => by
    simp [loByte, hj, show j < 16 by omega]
  rw [crcStep, crcRounds_eq_ushiftRight 8 _ hlow]
  apply BitVec.eq_of_getLsbD_eq
  intro j hj
  simp only [BitVec.getLsbD_ushiftRight, BitVec.getLsbD_xor, BitVec.getLsbD_setWidth, loByte, hiByte,
    BitVec.getLsbD_extractLsb', hj, decide_true, Bool.true_and]
  rcases Nat.lt_or_ge j 8 with h8 | h8
  · simp [h8]
  · simp [Nat.not_lt.mpr h8, BitVec.getLsbD_of_ge c (8 + j) (by omega)]

/-- A byte taken into a CRC that is that byte leaves 0. -/
theorem crcStep_self (b : Byte) : crcStep (b.setWidth 16) b = 0x0000#16 := by
  rw [crcStep, BitVec.xor_self, crcRounds_eq_ushiftRight 8 _ fun j _ => BitVec.getLsbD_zero]
  rfl

/-- A byte sum as a number. -/
theorem foldl_add_toNat (bs : List Byte) (a : Byte) :
    (bs.foldl (· + ·) a).toNat = (a.toNat + (bs.map BitVec.toNat).sum) % 256 := by
  induction bs generalizing a with
  | nil =>
    have := a.isLt
    simp only [List.foldl_nil, List.map_nil, List.sum_nil]
    omega
  | cons b bs ih =>
    rw [List.foldl_cons, ih, BitVec.toNat_add, List.map_cons, List.sum_cons]
    omega

/-- Settles O19: the low CRC byte leaves the high one, which leaves 0; the LRC is what the sum lacks to 256. -/
theorem checksumResiduesAreZero : Obligations.ChecksumResiduesAreZero := by
  intro bs
  constructor
  · rw [rtuFrame, show [loByte (crc16 bs), hiByte (crc16 bs)] = [loByte (crc16 bs)] ++ [hiByte (crc16 bs)] from rfl,
      ← List.append_assoc, crc16_snoc, crc16_snoc, crcStep_loByte, crcStep_self]
  · have hsum : (byteSum bs).toNat = (0 + (bs.map BitVec.toNat).sum) % 256 := foldl_add_toNat bs 0#8
    simp only [lrc, lrcOfSum, BitVec.toNat_ofNat, hsum]
    omega

end Sys2Proof.Machine
end

