-- ==== Sys2Proof/Proofs/ChecksumRange.lean ====
section
/-! The range commands step by step and as a whole, and the frame of all checksum commands
(spec/40_checksum.md R103 to R111). -/

namespace Sys2Proof.Machine

/-! ## The steps of CRC.RANGE -/

section CrcRange
variable (a n : Nat) {s : State}

theorem exec_crcRange_refuse (h : s.phase = .init) (hrange : rangeOk a n = false) :
    exec (.crcRange a n) s = .next (fail .range s) := by
  simp only [exec, execCrcRange, h, hrange, Bool.false_eq_true, if_false]

theorem exec_crcRange_start (h : s.phase = .init) (hrange : rangeOk a n = true) :
    exec (.crcRange a n) s =
      .next { s with crc := 0xFFFF#16, idx := BitVec.ofNat 9 a, cnt := BitVec.ofNat 9 n, phase := .run } := by
  simp only [exec, execCrcRange, h, hrange, if_true, crcInitValue]

theorem exec_crcRange_byte {b : Byte} (h : s.phase = .run) (hcnt : s.cnt ≠ 0#9) (hidx : s.idx.toNat < 256)
    (hb : Memory.read s.fbuf s.idx.toNat = some b) :
    exec (.crcRange a n) s = .next { s with crc := crcStep s.crc b, idx := s.idx + 1#9, cnt := s.cnt - 1#9 } := by
  simp only [exec, execCrcRange, h, if_neg hcnt, withByte_some hb hidx]

theorem exec_crcRange_end (h : s.phase = .run) (hcnt : s.cnt = 0#9) :
    exec (.crcRange a n) s = .next (complete s) := by
  simp only [exec, execCrcRange, h, if_pos hcnt]

theorem exec_crcRange_unwritten (h : s.phase = .run) (hcnt : s.cnt ≠ 0#9) (hidx : s.idx.toNat < 256)
    (hb : Memory.read s.fbuf s.idx.toNat = none) :
    exec (.crcRange a n) s = .fault (.fbufUnwritten s.idx.toNat) := by
  simp only [exec, execCrcRange, h, if_neg hcnt, withByte, Config.fbufSize, if_pos hidx, hb]

end CrcRange

/-- Settles O14: the two outcomes of INIT and the three of RUN. -/
theorem crcRangeSteps : Obligations.CrcRangeSteps :=
  ⟨fun _ _ => rfl, fun a n _ =>
    ⟨fun h hrange => exec_crcRange_refuse a n h (rangeOk_false hrange),
     fun h hrange => exec_crcRange_start a n h ((rangeOk_iff a n).mpr hrange),
     fun _ => exec_crcRange_byte a n, exec_crcRange_end a n, exec_crcRange_unwritten a n⟩⟩

/-! ## The steps of LRC.RANGE -/

section LrcRange
variable (a n u : Nat) {s : State}

theorem exec_lrcRange_refuse (h : s.phase = .init) (hrange : ¬ (rangeOk a n = true ∧ u ≤ n)) :
    exec (.lrcRange a n u) s = .next (fail .range s) := by
  simp only [exec, execLrcRange, h, Bool.and_eq_true, decide_eq_true_eq, if_neg hrange]

theorem exec_lrcRange_start (h : s.phase = .init) (hrange : rangeOk a n = true) (htail : u ≤ n) :
    exec (.lrcRange a n u) s =
      .next { s with lrcAcc := 0x00#8, idx := BitVec.ofNat 9 a, cnt := BitVec.ofNat 9 (n - u), phase := .run } := by
  simp only [exec, execLrcRange, h, hrange, htail, decide_true, Bool.and_self, if_true]

theorem exec_lrcRange_byte {b : Byte} (h : s.phase = .run) (hcnt : s.cnt ≠ 0#9) (hidx : s.idx.toNat < 256)
    (hb : Memory.read s.fbuf s.idx.toNat = some b) :
    exec (.lrcRange a n u) s = .next { s with lrcAcc := s.lrcAcc + b, idx := s.idx + 1#9, cnt := s.cnt - 1#9 } := by
  simp only [exec, execLrcRange, h, if_neg hcnt, withByte_some hb hidx]

theorem exec_lrcRange_end (h : s.phase = .run) (hcnt : s.cnt = 0#9) :
    exec (.lrcRange a n u) s = .next (complete s) := by
  simp only [exec, execLrcRange, h, if_pos hcnt]

theorem exec_lrcRange_unwritten (h : s.phase = .run) (hcnt : s.cnt ≠ 0#9) (hidx : s.idx.toNat < 256)
    (hb : Memory.read s.fbuf s.idx.toNat = none) :
    exec (.lrcRange a n u) s = .fault (.fbufUnwritten s.idx.toNat) := by
  simp only [exec, execLrcRange, h, if_neg hcnt, withByte, Config.fbufSize, if_pos hidx, hb]

end LrcRange

/-- Settles O16: the two outcomes of INIT, RANGE for either of its two causes, and the three of RUN. -/
theorem lrcRangeSteps : Obligations.LrcRangeSteps := by
  refine ⟨fun _ _ _ => rfl, fun a n u s => ⟨fun h hrange => ?_, fun h hrange htail => ?_, fun _ => exec_lrcRange_byte a n u,
    exec_lrcRange_end a n u, exec_lrcRange_unwritten a n u⟩⟩
  · refine exec_lrcRange_refuse a n u h fun hok => ?_
    have := (rangeOk_iff a n).mp hok.1
    omega
  · exact exec_lrcRange_start a n u h ((rangeOk_iff a n).mpr hrange) htail

/-! ## Whole ranges -/

/-- A command that in its state `at_ c j k` (accumulator, IDX, CNT) takes one FBUF byte into the accumulator until
CNT = 0 completes with the fold over the range (R106, R109). -/
theorem execN_range_loop {α : Type} {i : Instr} {f : α → Byte → α} {at_ : α → BitVec 9 → BitVec 9 → State}
    {m : Memory}
    (hbyte : ∀ c j k b, k ≠ 0#9 → j.toNat < 256 → Memory.read m j.toNat = some b →
      exec i (at_ c j k) = .next (at_ (f c b) (j + 1#9) (k - 1#9)))
    (hend : ∀ c j, exec i (at_ c j 0#9) = .next (complete (at_ c j 0#9)))
    {j k : Nat} {c : α} {bs : List Byte} (hjk : j + k ≤ 256) (hbs : Memory.slice m j k = .ok bs) :
    execN i (k + 1) (at_ c (BitVec.ofNat 9 j) (BitVec.ofNat 9 k)) =
      .next (complete (at_ (bs.foldl f c) (BitVec.ofNat 9 (j + k)) 0#9)) := by
  induction k generalizing j c bs with
  | zero =>
    obtain rfl := List.eq_nil_of_length_eq_zero (Memory.slice_length hbs)
    exact execN_succ (hend c _)
  | succ k ih =>
    obtain ⟨b, cs, rfl, hb, hcs⟩ := Memory.slice_succ.mp hbs
    have hj : (BitVec.ofNat 9 j).toNat = j := Nat.mod_eq_of_lt (by omega)
    have hne : BitVec.ofNat 9 (k + 1) ≠ 0#9 := by bv_omega
    have hstep := hbyte c (BitVec.ofNat 9 j) _ b hne (by omega) (hj.symm ▸ hb)
    rw [show BitVec.ofNat 9 j + 1#9 = BitVec.ofNat 9 (j + 1) by bv_omega,
      show BitVec.ofNat 9 (k + 1) - 1#9 = BitVec.ofNat 9 k by bv_omega] at hstep
    rw [execN_succ hstep, ih (by omega) hcs, List.foldl_cons, Nat.succ_add_eq_add_succ]

/-- Settles O15: INIT, then the loop over the range. -/
theorem crcRangeComputesCrc16 : Obligations.CrcRangeComputesCrc16 := by
  intro a n bs s h hrange hbs
  rw [execN_succ (exec_crcRange_start a n h ((rangeOk_iff a n).mpr hrange))]
  exact execN_range_loop (f := crcStep) (m := s.fbuf)
    (at_ := fun c j k => { s with crc := c, idx := j, cnt := k, phase := .run })
    (fun c j k b hk hj hb => exec_crcRange_byte a n rfl hk hj hb) (fun c j => exec_crcRange_end a n rfl rfl) hrange hbs

/-- Settles O17: INIT, then the loop over the range without its tail. -/
theorem lrcRangeComputesLrc : Obligations.LrcRangeComputesLrc := by
  intro a n u bs s h hrange htail hbs
  refine ⟨_, ?_, rfl, rfl⟩
  rw [execN_succ (exec_lrcRange_start a n u h ((rangeOk_iff a n).mpr hrange) htail)]
  exact execN_range_loop (f := (· + ·)) (m := s.fbuf)
    (at_ := fun c j k => { s with lrcAcc := c, idx := j, cnt := k, phase := .run })
    (fun c j k b hk hj hb => exec_lrcRange_byte a n u rfl hk hj hb) (fun c j => exec_lrcRange_end a n u rfl rfl)
    (by omega) hbs

/-! ## What a step of each command can be -/

section Next
variable {s t : State}

/-- What a command that completes in its INIT step makes of the checksum registers (R103 to R105, R107, R108). -/
def initResult (s : State) : Instr → Option State
  | .nop => some s
  | .crcInit => some { s with crc := crcInitValue }
  | .crcByte d => some { s with crc := crcStep s.crc d }
  | .lrcInit => some { s with lrcAcc := 0x00#8 }
  | .lrcByte d => some { s with lrcAcc := s.lrcAcc + d }
  | _ => none

/-- Such a command holds or completes. -/
theorem exec_next_of_initResult {i : Instr} {u : State} (hu : initResult s i = some u) (h : exec i s = .next t) :
    t = s ∨ s.phase = .init ∧ t = complete u := by
  cases i
  case nop | crcInit | crcByte | lrcInit | lrcByte =>
    cases hu
    simp only [exec, execNop, execCrcInit, execCrcByte, execLrcInit, execLrcByte] at h
    split at h
    · exact .inl (Host.Outcome.next.inj h).symm
    · exact .inr ⟨‹_›, (Host.Outcome.next.inj h).symm⟩
    · contradiction
  all_goals contradiction

/-- The steps of CRC.RANGE (R106). -/
inductive CrcRangeStep (a n : Nat) (s : State) : State → Prop
  | idle : CrcRangeStep a n s s
  | refuse (h : s.phase = .init) : CrcRangeStep a n s (fail .range s)
  | start (h : s.phase = .init) (hrange : rangeOk a n = true) : CrcRangeStep a n s
      { s with crc := crcInitValue, idx := BitVec.ofNat 9 a, cnt := BitVec.ofNat 9 n, phase := .run }
  | finish (h : s.phase = .run) : CrcRangeStep a n s (complete s)
  | byte (b : Byte) (h : s.phase = .run) (hcnt : s.cnt ≠ 0#9) (hb : Memory.read s.fbuf s.idx.toNat = some b) :
      CrcRangeStep a n s { s with crc := crcStep s.crc b, idx := s.idx + 1#9, cnt := s.cnt - 1#9 }

theorem exec_crcRange_next {a n : Nat} (h : exec (.crcRange a n) s = .next t) : CrcRangeStep a n s t := by
  simp only [exec, execCrcRange] at h
  split at h
  case h_1 => cases h; exact .idle
  case h_2 hphase =>
    split at h
    case isTrue hrange => cases h; exact .start hphase hrange
    case isFalse => cases h; exact .refuse hphase
  case h_3 hphase =>
    split at h
    case isTrue => cases h; exact .finish hphase
    case isFalse hcnt =>
      obtain ⟨b, -, hb, h⟩ := withByte_next h
      cases h
      exact .byte b hphase hcnt hb
  case h_4 => contradiction

/-- The steps of LRC.RANGE (R109). -/
inductive LrcRangeStep (a n u : Nat) (s : State) : State → Prop
  | idle : LrcRangeStep a n u s s
  | refuse (h : s.phase = .init) : LrcRangeStep a n u s (fail .range s)
  | start (h : s.phase = .init) (hrange : rangeOk a n = true) (htail : u ≤ n) : LrcRangeStep a n u s
      { s with lrcAcc := 0x00#8, idx := BitVec.ofNat 9 a, cnt := BitVec.ofNat 9 (n - u), phase := .run }
  | finish (h : s.phase = .run) : LrcRangeStep a n u s (complete s)
  | byte (b : Byte) (h : s.phase = .run) (hcnt : s.cnt ≠ 0#9) (hb : Memory.read s.fbuf s.idx.toNat = some b) :
      LrcRangeStep a n u s { s with lrcAcc := s.lrcAcc + b, idx := s.idx + 1#9, cnt := s.cnt - 1#9 }

theorem exec_lrcRange_next {a n u : Nat} (h : exec (.lrcRange a n u) s = .next t) : LrcRangeStep a n u s t := by
  simp only [exec, execLrcRange] at h
  split at h
  case h_1 => cases h; exact .idle
  case h_2 hphase =>
    split at h
    case isTrue hrange =>
      rw [Bool.and_eq_true, decide_eq_true_eq] at hrange
      cases h
      exact .start hphase hrange.1 hrange.2
    case isFalse => cases h; exact .refuse hphase
  case h_3 hphase =>
    split at h
    case isTrue => cases h; exact .finish hphase
    case isFalse hcnt =>
      obtain ⟨b, -, hb, h⟩ := withByte_next h
      cases h
      exact .byte b hphase hcnt hb
  case h_4 => contradiction

end Next

/-- Settles O20: by the steps that each command can take. -/
theorem checksumCommandsFrame : Obligations.ChecksumCommandsFrame := by
  refine fun s t => ⟨fun h => ?_, fun h => ?_, fun d h => ?_, fun a n h => ?_, fun h => ?_, fun d h => ?_,
    fun a n u h => ?_⟩
  · obtain rfl | ⟨-, rfl⟩ := exec_next_of_initResult rfl h <;> rfl
  · obtain rfl | ⟨-, rfl⟩ := exec_next_of_initResult rfl h <;> rfl
  · obtain rfl | ⟨-, rfl⟩ := exec_next_of_initResult rfl h <;> rfl
  · cases exec_crcRange_next h <;> exact ⟨rfl, fun _ => rfl⟩
  · obtain rfl | ⟨-, rfl⟩ := exec_next_of_initResult rfl h <;> rfl
  · obtain rfl | ⟨-, rfl⟩ := exec_next_of_initResult rfl h <;> rfl
  · cases exec_lrcRange_next h <;> exact ⟨rfl, fun _ => rfl⟩

/-! ## What the commands keep -/

section Keep
variable {s t : State}

theorem BlockStep.of_initResult {i : Instr} {u : State} (hu : initResult s i = some u) : BlockStep s (complete u) := by
  cases i
  case nop | crcInit | crcByte | lrcInit | lrcByte =>
    cases hu
    exact ⟨rfl, .completes rfl rfl rfl rfl rfl, .inl rfl, List.suffix_rfl, id⟩
  all_goals contradiction

theorem CrcRangeStep.blockStep {a n : Nat} (h : CrcRangeStep a n s t) : BlockStep s t := by
  cases h with
  | idle => exact .hold s
  | refuse h => exact ⟨rfl, .fails rfl rfl rfl failCodes_ne_none.1 rfl, .inl rfl, List.suffix_rfl, id⟩
  | start h => exact ⟨rfl, .goesOn rfl rfl rfl rfl (by simp [h]), .inl rfl, List.suffix_rfl, id⟩
  | finish h => exact ⟨rfl, .completes rfl rfl rfl rfl rfl, .inl rfl, List.suffix_rfl, id⟩
  | byte b h => exact ⟨rfl, .goesOn rfl rfl rfl rfl (by simp [h]), .inl rfl, List.suffix_rfl, id⟩

theorem LrcRangeStep.blockStep {a n u : Nat} (h : LrcRangeStep a n u s t) : BlockStep s t := by
  cases h with
  | idle => exact .hold s
  | refuse h => exact ⟨rfl, .fails rfl rfl rfl failCodes_ne_none.1 rfl, .inl rfl, List.suffix_rfl, id⟩
  | start h => exact ⟨rfl, .goesOn rfl rfl rfl rfl (by simp [h]), .inl rfl, List.suffix_rfl, id⟩
  | finish h => exact ⟨rfl, .completes rfl rfl rfl rfl rfl, .inl rfl, List.suffix_rfl, id⟩
  | byte b h => exact ⟨rfl, .goesOn rfl rfl rfl rfl (by simp [h]), .inl rfl, List.suffix_rfl, id⟩

end Keep

end Sys2Proof.Machine
end

