-- ==== Sys2Proof/Proofs/Encoders.lean ====
section
/-! What the three encoders have in common: after INIT each block step with room in the TX FIFO sends the next byte of
the frame, and without room it holds. And FBUF with a run of bytes written, for the decoders. -/

namespace Sys2Proof.Machine

/-! ## The streams apart from the rest of the state -/

/-- The streams, RX_COUNT and the schedule: what the environment's turns change, and what a command's INIT drains. -/
structure Streams where
  txFifo : List Byte
  txWire : List Byte
  rx : List Byte
  rxCount : Half
  sched : List Turn

/-- The streams of a state. -/
def State.streams (s : State) : Streams := ⟨s.txFifo, s.txWire, s.rx, s.rxCount, s.sched⟩

/-- A state with other streams. -/
def State.withStreams (s : State) (e : Streams) : State :=
  { s with txFifo := e.txFifo, txWire := e.txWire, rx := e.rx, rxCount := e.rxCount, sched := e.sched }

theorem State.withStreams_streams (s : State) : s.withStreams s.streams = s := rfl

/-- The streams with one more byte in the TX FIFO. -/
def Streams.push (b : Byte) (e : Streams) : Streams := { e with txFifo := e.txFifo ++ [b] }

/-- The streams with the bytes `bs` more in the TX FIFO. -/
def Streams.pushAll (bs : List Byte) (e : Streams) : Streams := { e with txFifo := e.txFifo ++ bs }

theorem Streams.pushAll_nil (e : Streams) : e.pushAll [] = e := by
  simp only [Streams.pushAll, List.append_nil]

theorem Streams.pushAll_push (b : Byte) (bs : List Byte) (e : Streams) : (e.push b).pushAll bs = e.pushAll (b :: bs) := by
  simp only [Streams.pushAll, Streams.push, List.append_assoc, List.singleton_append]

/-- A run as its first step and the rest. -/
theorem execN_step {i : Instr} {k : Nat} {s t : State} {o : Out} (h : exec i s = .next t) (hrest : execN i k t = o) :
    execN i (k + 1) s = o :=
  (execN_succ h).trans hrest

/-! ## Encoders -/

/-- The encoder `i`, started in `s`, sends `frame`: `started` are the streams after its INIT step, and `shape n` is the
state after `n` bytes of the frame, apart from the streams. -/
structure SendsFrame (i : Instr) (s : State) (frame : List Byte) (started : Streams → Streams) (shape : Nat → State) :
    Prop where
  start (e : Streams) : exec i (s.withStreams e) = .next ((shape 0).withStreams (started e))
  started_kept (e : Streams) :
    (started e).txFifo = e.txFifo ∧ (started e).txWire = e.txWire ∧ (started e).sched = e.sched
  send {n : Nat} {b : Byte} {e : Streams} (hb : frame[n]? = some b) (hroom : e.txFifo.length < s.txDepth) :
    exec i ((shape n).withStreams e) = .next ((shape (n + 1)).withStreams (e.push b))
  hold {n : Nat} {e : Streams} (hn : n < frame.length) (hfull : s.txDepth ≤ e.txFifo.length) :
    exec i ((shape n).withStreams e) = .next ((shape n).withStreams e)
  busy {n : Nat} (hn : n < frame.length) : (shape n).busy = s.busy
  ended : (shape frame.length).busy = false ∧ (shape frame.length).done = true
  kept (n : Nat) : latchedWord (shape n) = latchedWord s ∧ (shape n).err = s.err ∧ (shape n).txDepth = s.txDepth ∧
    (shape n).txCount = satAdd s.txCount n

section Run
variable {i : Instr} {s : State} {frame : List Byte} {started : Streams → Streams} {shape : Nat → State}

/-- With room for them, the rest of the frame's bytes are sent one a step. -/
theorem SendsFrame.execN_rest (hs : SendsFrame i s frame started shape) {rest : List Byte} {n : Nat} {e : Streams}
    (hrest : frame.drop n = rest) (hroom : e.txFifo.length + rest.length ≤ s.txDepth) :
    execN i rest.length ((shape n).withStreams e) = .next ((shape (n + rest.length)).withStreams (e.pushAll rest)) := by
  induction rest generalizing n e with
  | nil => rw [Streams.pushAll_nil]; rfl
  | cons b rest ih =>
    have hb : frame[n]? = some b := by rw [← List.head?_drop, hrest, List.head?_cons]
    have hdrop : frame.drop (n + 1) = rest := by rw [← List.tail_drop, hrest, List.tail_cons]
    rw [List.length_cons] at hroom ⊢
    rw [execN_succ (hs.send hb (by omega)), ih hdrop, Streams.pushAll_push, Nat.add_right_comm, Nat.add_assoc]
    simp only [Streams.push, List.length_append, List.length_singleton]
    omega

/-- With room for the frame, an encoder sends it in one step more than it has bytes. -/
theorem SendsFrame.execN_frame (hs : SendsFrame i s frame started shape)
    (hroom : s.txFifo.length + frame.length ≤ s.txDepth) :
    execN i (frame.length + 1) s =
      .next ((shape frame.length).withStreams ((started s.streams).pushAll frame)) := by
  have hroom' : (started s.streams).txFifo.length + frame.length ≤ s.txDepth := by
    rwa [(hs.started_kept s.streams).1]
  have hstart := hs.start s.streams
  rw [State.withStreams_streams] at hstart
  rw [execN_succ hstart, hs.execN_rest (n := 0) (List.drop_zero) hroom', Nat.zero_add]

end Run

/-- Every written byte of a core has its place below 256. -/
theorem read_of_holds {s : State} {core : List Byte} (h : Holds s core.length core) {k : Nat} {b : Byte}
    (hb : core[k]? = some b) : Memory.read s.fbuf k = some b := by
  have hk := (List.getElem?_eq_some_iff.mp hb).1
  have hread := Memory.read_of_slice h hk
  rwa [Nat.zero_add, hb] at hread

/-! ## FBUF with a run of bytes written -/

/-- A run of written bytes leaves every other byte alone. -/
theorem Memory.read_writeAll_outside {m : Memory} {i j : Nat} {bs : List Byte} (h : j < i ∨ i + bs.length ≤ j) :
    Memory.read (Memory.writeAll m i bs) j = Memory.read m j := by
  induction bs generalizing m i with
  | nil => rfl
  | cons b bs ih =>
    rw [List.length_cons] at h
    rw [Memory.writeAll, ih (by omega), Memory.read_write_other (by omega)]

/-- A run of written bytes reads back. -/
theorem Memory.slice_writeAll (m : Memory) (i : Nat) (bs : List Byte) :
    Memory.slice (Memory.writeAll m i bs) i bs.length = .ok bs := by
  induction bs generalizing m i with
  | nil => rfl
  | cons b bs ih =>
    refine Memory.slice_succ.mpr ⟨b, bs, rfl, ?_, ih _ _⟩
    rw [Memory.writeAll, Memory.read_writeAll_outside (.inl (Nat.lt_succ_self i)), Memory.read_write_same]

end Sys2Proof.Machine
end

