-- ==== Sys2Proof/Proofs/TcpEnc.lean ====
section
/-! TCP.ENC step by step and as a whole (spec/41_tcp.md R140, R141, R143). -/

namespace Sys2Proof.Machine

/-- The header bytes in order (R141). -/
theorem mbapHeaderByte_eq (h : BitVec 3) (s : State) :
    mbapHeaderByte h s =
      [hiByte s.mbapTid, loByte s.mbapTid, 0x00#8, 0x00#8, hiByte s.mbapLen, loByte s.mbapLen][h.toNat]? := by
  unfold mbapHeaderByte
  generalize h.toNat = k
  rcases k with _ | _ | _ | _ | _ | _ | k <;> rfl

/-! ## The steps -/

section Steps
variable {s : State}

theorem exec_tcpEnc_refuse (h : s.phase = .init) (hlen : coreLenOk s.flen.toNat = false) :
    exec .tcpEnc s = .next (fail .length s) := by
  simp only [exec, execTcpEnc, h, hlen, Bool.false_eq_true, if_false]

theorem exec_tcpEnc_start (h : s.phase = .init) (hlen : coreLenOk s.flen.toNat = true) :
    exec .tcpEnc s = .next { s with mbapLen := s.flen.setWidth 16, h := 0#3, phase := .hdr } := by
  simp only [exec, execTcpEnc, h, hlen, if_true]

theorem exec_tcpEnc_full (h : s.phase = .hdr ∨ s.phase = .body) (hfull : s.txDepth ≤ s.txFifo.length) :
    exec .tcpEnc s = .next s := by
  rcases h with h | h <;> simp only [exec, execTcpEnc, h, withTx_full hfull]

variable (hroom : s.txFifo.length < s.txDepth)
include hroom

/-- A header byte; the sixth ends the header. -/
theorem exec_tcpEnc_hdr {b : Byte} (h : s.phase = .hdr)
    (hb : [hiByte s.mbapTid, loByte s.mbapTid, 0x00#8, 0x00#8, hiByte s.mbapLen, loByte s.mbapLen][s.h.toNat]? = some b) :
    exec .tcpEnc s = .next { s with
      txFifo := s.txFifo ++ [b], txCount := satAdd s.txCount 1, h := s.h + 1#3,
      idx := if s.h = 5#3 then 0#9 else s.idx, phase := if s.h = 5#3 then .body else .hdr } := by
  have hlast : s.h + 1#3 = 6#3 ↔ s.h = 5#3 := ⟨fun h => by bv_omega, fun h => by rw [h]; rfl⟩
  rw [← mbapHeaderByte_eq] at hb
  simp only [exec, execTcpEnc, h, withTx_room hroom, hb, hlast, txPush]
  split <;> rfl

/-- A core byte; the last one completes. -/
theorem exec_tcpEnc_body {b : Byte} (h : s.phase = .body) (hidx : s.idx.toNat < 256)
    (hb : Memory.read s.fbuf s.idx.toNat = some b) :
    exec .tcpEnc s = .next (if s.idx + 1#9 = s.flen then
        { s with
          txFifo := s.txFifo ++ [b], txCount := satAdd s.txCount 1, idx := s.idx + 1#9, busy := false, done := true,
          phase := .idle }
      else { s with txFifo := s.txFifo ++ [b], txCount := satAdd s.txCount 1, idx := s.idx + 1#9 }) := by
  simp only [exec, execTcpEnc, h, withTx_room hroom, withByte_some hb hidx, txPush, complete]

theorem exec_tcpEnc_unwritten (h : s.phase = .body) (hidx : s.idx.toNat < 256)
    (hb : Memory.read s.fbuf s.idx.toNat = none) : exec .tcpEnc s = .fault (.fbufUnwritten s.idx.toNat) := by
  simp only [exec, execTcpEnc, h, withTx_room hroom, withByte, Config.fbufSize, if_pos hidx, hb]

end Steps

/-- Settles O21: the two outcomes of INIT, a header byte, and the two outcomes of a core byte. -/
theorem tcpEncSteps : Obligations.TcpEncSteps :=
  ⟨rfl, fun _ =>
    ⟨fun h hlen => exec_tcpEnc_refuse h (coreLenOk_false hlen),
     fun h hlo hhi => exec_tcpEnc_start h ((coreLenOk_iff _).mpr ⟨hlo, hhi⟩),
     fun _ h hroom hb => exec_tcpEnc_hdr hroom h hb,
     fun _ h hroom hidx hb => exec_tcpEnc_body hroom h hidx hb,
     fun h hroom hidx hb => exec_tcpEnc_unwritten hroom h hidx hb⟩⟩

/-! ## The whole frame -/

/-- TCP.ENC after `n` bytes of the frame. -/
def tcpEncShape (s : State) (core : List Byte) (n : Nat) : State :=
  let sent := { s with mbapLen := BitVec.ofNat 16 core.length, txCount := satAdd s.txCount n }
  if n < 6 then { sent with h := BitVec.ofNat 3 n, phase := .hdr }
  else if n < core.length + 6 then { sent with h := 6#3, idx := BitVec.ofNat 9 (n - 6), phase := .body }
  else { sent with h := 6#3, idx := s.flen, busy := false, done := true, phase := .idle }

section Shape
variable {s : State} {core : List Byte}

theorem tcpEncShape_hdr {n : Nat} (h : n < 6) : tcpEncShape s core n = { s with
    mbapLen := BitVec.ofNat 16 core.length, txCount := satAdd s.txCount n, h := BitVec.ofNat 3 n, phase := .hdr } := by
  simp only [tcpEncShape, if_pos h]

theorem tcpEncShape_body {k : Nat} (h : k < core.length) : tcpEncShape s core (k + 6) = { s with
    mbapLen := BitVec.ofNat 16 core.length, txCount := satAdd s.txCount (k + 6), h := 6#3, idx := BitVec.ofNat 9 k,
    phase := .body } := by
  simp only [tcpEncShape, if_neg (show ¬ k + 6 < 6 by omega), if_pos (show k + 6 < core.length + 6 by omega),
    Nat.add_sub_cancel]

theorem tcpEncShape_end : tcpEncShape s core (core.length + 6) = { s with
    mbapLen := BitVec.ofNat 16 core.length, txCount := satAdd s.txCount (core.length + 6), h := 6#3, idx := s.flen,
    busy := false, done := true, phase := .idle } := by
  simp only [tcpEncShape, if_neg (show ¬ core.length + 6 < 6 by omega), if_neg (Nat.lt_irrefl _)]

/-- Before its end TCP.ENC stands at a header byte or at a core byte. -/
theorem tcpEncShape_cases {n : Nat} (hn : n < core.length + 6) :
    n < 6 ∨ ∃ k, k < core.length ∧ n = k + 6 := by
  rcases Nat.lt_or_ge n 6 with h | h
  · exact .inl h
  · exact .inr ⟨n - 6, by omega, by omega⟩

theorem tcpFrame_length (tid : Half) : (tcpFrame tid core).length = core.length + 6 := by
  rw [tcpFrame, List.length_append]
  exact Nat.add_comm _ _

/-- A header byte, sent from one shape to the next. -/
theorem exec_tcpEncShape_hdr {n : Nat} {b : Byte} {e : Streams} (hlo : 2 ≤ core.length) (hn : n < 6)
    (hb : (tcpFrame s.mbapTid core)[n]? = some b) (hroom : e.txFifo.length < s.txDepth) :
    exec .tcpEnc ((tcpEncShape s core n).withStreams e) = .next ((tcpEncShape s core (n + 1)).withStreams (e.push b)) := by
  have hh : (BitVec.ofNat 3 n).toNat = n := Nat.mod_eq_of_lt (by omega)
  have hsucc : BitVec.ofNat 3 n + 1#3 = BitVec.ofNat 3 (n + 1) := by bv_omega
  rw [tcpFrame, List.getElem?_append_left hn] at hb
  rw [tcpEncShape_hdr hn]
  refine (exec_tcpEnc_hdr hroom rfl (hh.symm ▸ hb)).trans (congrArg Host.Outcome.next ?_)
  rcases Nat.lt_or_ge n 5 with h5 | h5
  · have hne : BitVec.ofNat 3 n ≠ 5#3 := by bv_omega
    rw [tcpEncShape_hdr (show n + 1 < 6 by omega)]
    simp only [State.withStreams, Streams.push, hne, if_false, satAdd_satAdd, hsucc]
  · obtain rfl : n = 5 := by omega
    rw [tcpEncShape_body (show 0 < core.length by omega)]
    simp only [State.withStreams, Streams.push, if_true, satAdd_satAdd, hsucc]

/-- A core byte, sent from one shape to the next. -/
theorem exec_tcpEncShape_body {k : Nat} {b : Byte} {e : Streams} (hflen : s.flen.toNat = core.length)
    (hhi : core.length ≤ 254) (hcore : Holds s core.length core) (hk : k < core.length)
    (hb : (tcpFrame s.mbapTid core)[k + 6]? = some b) (hroom : e.txFifo.length < s.txDepth) :
    exec .tcpEnc ((tcpEncShape s core (k + 6)).withStreams e) =
      .next ((tcpEncShape s core (k + 6 + 1)).withStreams (e.push b)) := by
  have hidx : (BitVec.ofNat 9 k).toNat = k := Nat.mod_eq_of_lt (by omega)
  have hsucc : BitVec.ofNat 9 k + 1#9 = BitVec.ofNat 9 (k + 1) := by bv_omega
  have hbyte : core[k]? = some b := by
    rwa [tcpFrame, List.getElem?_append_right (by simp), List.length_cons] at hb
  rw [tcpEncShape_body hk]
  refine (exec_tcpEnc_body hroom rfl (hidx.symm ▸ (by omega)) (hidx.symm ▸ read_of_holds hcore hbyte)).trans
    (congrArg Host.Outcome.next ?_)
  rcases Nat.lt_or_ge (k + 1) core.length with hlast | hlast
  · have hne : BitVec.ofNat 9 (k + 1) ≠ s.flen := by bv_omega
    rw [show k + 6 + 1 = k + 1 + 6 by omega, tcpEncShape_body hlast]
    simp only [State.withStreams, Streams.push, hsucc, hne, if_false, satAdd_satAdd, Nat.add_right_comm k 6 1]
  · have heq : BitVec.ofNat 9 (k + 1) = s.flen := by bv_omega
    have hcount : k + 6 + 1 = core.length + 6 := by omega
    rw [hcount, tcpEncShape_end]
    simp only [State.withStreams, Streams.push, hsucc, heq, if_true, satAdd_satAdd, hcount]

/-- With the core in FBUF, TCP.ENC sends its frame. -/
theorem tcpEnc_sendsFrame (h : s.phase = .init) (hflen : s.flen.toNat = core.length) (hlo : 2 ≤ core.length)
    (hhi : core.length ≤ 254) (hcore : Holds s core.length core) :
    SendsFrame .tcpEnc s (tcpFrame s.mbapTid core) id (tcpEncShape s core) where
  start e := by
    have hlen : s.flen.setWidth 16 = BitVec.ofNat 16 core.length := by rw [← hflen, BitVec.ofNat_toNat]
    rw [tcpEncShape_hdr (by omega), satAdd_zero, ← hlen]
    exact exec_tcpEnc_start h ((coreLenOk_iff _).mpr (hflen ▸ ⟨hlo, hhi⟩))
  started_kept e := ⟨rfl, rfl, rfl⟩
  send {n b e} hb hroom := by
    have hn := (List.getElem?_eq_some_iff.mp hb).1
    rw [tcpFrame_length] at hn
    rcases tcpEncShape_cases hn with hn | ⟨k, hk, rfl⟩
    · exact exec_tcpEncShape_hdr hlo hn hb hroom
    · exact exec_tcpEncShape_body hflen hhi hcore hk hb hroom
  hold {n e} hn hfull := by
    rw [tcpFrame_length] at hn
    rcases tcpEncShape_cases hn with hn | ⟨k, hk, rfl⟩
    · rw [tcpEncShape_hdr hn]
      exact exec_tcpEnc_full (.inl rfl) hfull
    · rw [tcpEncShape_body hk]
      exact exec_tcpEnc_full (.inr rfl) hfull
  busy {n} hn := by
    rw [tcpFrame_length] at hn
    rcases tcpEncShape_cases hn with hn | ⟨k, hk, rfl⟩
    · rw [tcpEncShape_hdr hn]
    · rw [tcpEncShape_body hk]
  ended := by
    rw [tcpFrame_length, tcpEncShape_end]
    exact ⟨rfl, rfl⟩
  kept n := by
    unfold tcpEncShape
    split_ifs <;> exact ⟨rfl, rfl, rfl, rfl⟩

end Shape

/-- Settles O22: INIT and the frame's bytes, and what the shape at the end is. -/
theorem tcpEncSendsTheFrame : Obligations.TcpEncSendsTheFrame := by
  intro s core h hflen hlo hhi hcore hroom
  have hrun := (tcpEnc_sendsFrame h hflen hlo hhi hcore).execN_frame (by rwa [tcpFrame_length])
  rwa [tcpFrame_length, tcpEncShape_end] at hrun

/-! ## What a step can be -/

/-- The steps of TCP.ENC (R141). -/
inductive TcpEncStep (s : State) : State → Prop
  | hold : TcpEncStep s s
  | refuse (h : s.phase = .init) : TcpEncStep s (fail .length s)
  | start (h : s.phase = .init) (hlen : coreLenOk s.flen.toNat = true) :
      TcpEncStep s { s with mbapLen := s.flen.setWidth 16, h := 0#3, phase := .hdr }
  | header (b : Byte) (h : s.phase = .hdr) (hroom : s.txFifo.length < s.txDepth) (hh : s.h + 1#3 ≠ 6#3)
      (hb : mbapHeaderByte s.h s = some b) : TcpEncStep s { txPush b s with h := s.h + 1#3 }
  | headerEnd (b : Byte) (h : s.phase = .hdr) (hroom : s.txFifo.length < s.txDepth) :
      TcpEncStep s { txPush b s with h := s.h + 1#3, idx := 0#9, phase := .body }
  | byte (b : Byte) (h : s.phase = .body) (hroom : s.txFifo.length < s.txDepth) (hidx : s.idx + 1#9 ≠ s.flen) :
      TcpEncStep s { txPush b s with idx := s.idx + 1#9 }
  | lastByte (b : Byte) (h : s.phase = .body) (hroom : s.txFifo.length < s.txDepth) :
      TcpEncStep s (complete { txPush b s with idx := s.idx + 1#9 })

theorem exec_tcpEnc_next {s t : State} (h : exec .tcpEnc s = .next t) : TcpEncStep s t := by
  simp only [exec, execTcpEnc] at h
  split at h
  case h_1 => cases h; exact .hold
  case h_2 hphase =>
    split at h
    case isTrue hlen => cases h; exact .start hphase hlen
    case isFalse => cases h; exact .refuse hphase
  case h_3 hphase =>
    obtain rfl | ⟨hroom, h⟩ := withTx_next h
    · exact .hold
    · split at h
      case h_1 => contradiction
      case h_2 b hb =>
        cases h
        split
        case isTrue => exact .headerEnd b hphase hroom
        case isFalse hh => exact .header b hphase hroom hh hb
  case h_4 hphase =>
    obtain rfl | ⟨hroom, h⟩ := withTx_next h
    · exact .hold
    · obtain ⟨b, -, -, h⟩ := withByte_next h
      cases h
      split
      case isTrue => exact .lastByte b hphase hroom
      case isFalse hidx => exact .byte b hphase hroom hidx
  case h_5 => contradiction

/-- A step that sends one byte. -/
theorem fifo_push {s : State} (hroom : s.txFifo.length < s.txDepth) (b : Byte) :
    s.txFifo ++ [b] = s.txFifo ∨ s.txFifo.length < s.txDepth ∧ ∃ c, s.txFifo ++ [b] = s.txFifo ++ [c] :=
  .inr ⟨hroom, b, rfl⟩

theorem TcpEncStep.blockStep {s t : State} (h : TcpEncStep s t) : BlockStep s t := by
  cases h with
  | hold => exact .hold s
  | refuse h => exact ⟨rfl, .fails rfl rfl rfl failCodes_ne_none.2.1 rfl, .inl rfl, List.suffix_rfl, id⟩
  | start h => exact ⟨rfl, .goesOn rfl rfl rfl rfl (by simp [h]), .inl rfl, List.suffix_rfl, id⟩
  | header b h hroom => exact ⟨rfl, .goesOn rfl rfl rfl rfl Iff.rfl, fifo_push hroom b, List.suffix_rfl, id⟩
  | headerEnd b h hroom =>
    exact ⟨rfl, .goesOn rfl rfl rfl rfl (by simp [h]), fifo_push hroom b, List.suffix_rfl, id⟩
  | byte b h hroom => exact ⟨rfl, .goesOn rfl rfl rfl rfl Iff.rfl, fifo_push hroom b, List.suffix_rfl, id⟩
  | lastByte b h hroom => exact ⟨rfl, .completes rfl rfl rfl rfl rfl, fifo_push hroom b, List.suffix_rfl, id⟩

/-- What TCP.ENC leaves alone. -/
theorem tcpEnc_frame {s t : State} (h : exec .tcpEnc s = .next t) :
    t = { s with
      mbapLen := t.mbapLen, h := t.h, idx := t.idx, txFifo := t.txFifo, txCount := t.txCount, busy := t.busy,
      done := t.done, err := t.err, errCode := t.errCode, phase := t.phase } ∧
    ∀ k, Memory.read t.fbuf k = Memory.read s.fbuf k := by
  cases exec_tcpEnc_next h <;> exact ⟨rfl, fun _ => rfl⟩

end Sys2Proof.Machine
end

