-- ==== Sys2Proof/Proofs/InvariantUse.lean ====
section
/-! What the invariant says of a running command. -/

namespace Sys2Proof.Machine

section Running
variable {s : State} {i : Instr} (hinv : MachineInv s) (hfetch : fetch s = .run i)
include hinv hfetch

/-- The sequencer stands where the running command's rule allows. -/
theorem MachineInv.seqOk_of_fetch : SeqOk i s := by
  obtain ⟨hbusy, hi⟩ := fetch_eq_run_iff.mp hfetch
  obtain ⟨-, j, hj, hseq⟩ := hinv.running hbusy
  obtain rfl : j = i := Except.ok.inj (hj.symm.trans hi)
  exact hseq

/-- While a command runs no flag but OVR is raised (spec/10_state.md R24). -/
theorem MachineInv.quiet_of_fetch : s.done = false ∧ s.err = false ∧ s.errCode = .none := by
  obtain ⟨hdone, herr⟩ := hinv.busyQuiet (fetch_eq_run_iff.mp hfetch).1
  exact ⟨hdone, herr, hinv.codeIffErr.mpr herr⟩

end Running

end Sys2Proof.Machine
end

