-- ==== Sys2Proof/Proofs/TcpDec.lean ====
section
/-! TCP.DEC step by step and as a whole, and the frame of both TCP commands (spec/41_tcp.md R142 to R147). -/

namespace Sys2Proof.Machine

/-- Where each received header byte goes (R142). -/
theorem setMbapHeaderByte_of_lt {h : BitVec 3} (hh : h.toNat < 6) (b : Byte) (s : State) :
    setMbapHeaderByte h b s = some { s with
      mbapTid := if h = 0#3 then b ++ loByte s.mbapTid else if h = 1#3 then hiByte s.mbapTid ++ b else s.mbapTid,
      mbapPid := if h = 2#3 then b ++ loByte s.mbapPid else if h = 3#3 then hiByte s.mbapPid ++ b else s.mbapPid,
      mbapLen := if h = 4#3 then b ++ loByte s.mbapLen else if h = 5#3 then hiByte s.mbapLen ++ b else s.mbapLen } := by
  have hcases : h = 0#3 ∨ h = 1#3 ∨ h = 2#3 ∨ h = 3#3 ∨ h = 4#3 ∨ h = 5#3 := by bv_omega
  rcases hcases with rfl | rfl | rfl | rfl | rfl | rfl <;> rfl

/-- A header byte goes to the MBAP registers. -/
theorem setMbapHeaderByte_frame {h : BitVec 3} {b : Byte} {s t : State} (hset : setMbapHeaderByte h b s = some t) :
    t = { s with mbapTid := t.mbapTid, mbapPid := t.mbapPid, mbapLen := t.mbapLen } := by
  unfold setMbapHeaderByte at hset
  split at hset
  case h_7 => contradiction
  all_goals cases hset; rfl

/-! ## The steps -/

section Steps
variable {s : State}

theorem exec_tcpDec_start (h : s.phase = .init) :
    exec .tcpDec s = .next { s with flen := 0#9, h := 0#3, phase := .hdr } := by
  simp only [exec, execTcpDec, h]

theorem exec_tcpDec_empty (h : s.phase = .hdr ∨ s.phase = .body) (hrx : s.rx = []) : exec .tcpDec s = .next s := by
  rcases h with h | h <;> simp only [exec, execTcpDec, h, withRx_nil hrx]

variable {b : Byte} {rest : List Byte} (hrx : s.rx = b :: rest)
include hrx

/-- A header byte before the last. -/
theorem exec_tcpDec_header (h : s.phase = .hdr) (hh : s.h.toNat < 5) :
    exec .tcpDec s = .next { s with
      rx := rest, rxCount := satAdd s.rxCount 1, h := s.h + 1#3,
      mbapTid := if s.h = 0#3 then b ++ loByte s.mbapTid else if s.h = 1#3 then hiByte s.mbapTid ++ b else s.mbapTid,
      mbapPid := if s.h = 2#3 then b ++ loByte s.mbapPid else if s.h = 3#3 then hiByte s.mbapPid ++ b else s.mbapPid,
      mbapLen := if s.h = 4#3 then b ++ loByte s.mbapLen else s.mbapLen } := by
  have h5 : s.h ≠ 5#3 := by bv_omega
  have h6 : s.h + 1#3 ≠ 6#3 := by bv_omega
  simp only [exec, execTcpDec, h, withRx_cons hrx, setMbapHeaderByte_of_lt (Nat.lt_succ_of_lt hh), h5, h6, if_false]

/-- The last header byte of a good length field (R144). -/
theorem exec_tcpDec_headerEnd (h : s.phase = .hdr) (hh : s.h = 5#3)
    (hlen : coreLenOk (hiByte s.mbapLen ++ b).toNat = true) :
    exec .tcpDec s = .next { s with
      rx := rest, rxCount := satAdd s.rxCount 1, h := 6#3, mbapLen := hiByte s.mbapLen ++ b, idx := 0#9,
      phase := .body } := by
  simp only [exec, execTcpDec, h, withRx_cons hrx, hh, setMbapHeaderByte_of_lt (show (5#3).toNat < 6 by decide)]
  exact congrArg Host.Outcome.next (if_pos hlen)

/-- The last header byte of a bad length field (R144). -/
theorem exec_tcpDec_badLength (h : s.phase = .hdr) (hh : s.h = 5#3)
    (hlen : coreLenOk (hiByte s.mbapLen ++ b).toNat = false) :
    exec .tcpDec s = .next { s with
      rx := rest, rxCount := satAdd s.rxCount 1, h := 6#3, mbapLen := hiByte s.mbapLen ++ b, busy := false,
      err := true, errCode := .length, phase := .idle } := by
  simp only [exec, execTcpDec, h, withRx_cons hrx, hh, setMbapHeaderByte_of_lt (show (5#3).toNat < 6 by decide)]
  exact congrArg Host.Outcome.next (if_neg (Bool.not_eq_true _ ▸ hlen))

/-- A core byte; the last one completes. -/
theorem exec_tcpDec_body (h : s.phase = .body) (hidx : s.idx.toNat < 256) :
    exec .tcpDec s = .next (if s.idx.toNat + 1 = s.mbapLen.toNat then
        { s with
          rx := rest, rxCount := satAdd s.rxCount 1, fbuf := Memory.write s.fbuf s.idx.toNat b, idx := s.idx + 1#9,
          flen := s.idx + 1#9, busy := false, done := true, phase := .idle }
      else
        { s with
          rx := rest, rxCount := satAdd s.rxCount 1, fbuf := Memory.write s.fbuf s.idx.toNat b,
          idx := s.idx + 1#9 }) := by
  have hsucc : (s.idx + 1#9).toNat = s.idx.toNat + 1 := by bv_omega
  simp only [exec, execTcpDec, h, withRx_cons hrx, storeByte_lt hidx, hsucc, complete]

end Steps

/-! ## What a step can be -/

/-- The steps of TCP.DEC (R142); `u` is the state with a byte popped and put in the MBAP registers. -/
inductive TcpDecStep (s : State) : State → Prop
  | hold : TcpDecStep s s
  | start (h : s.phase = .init) : TcpDecStep s { s with flen := 0#9, h := 0#3, phase := .hdr }
  | header (b : Byte) (rest : List Byte) (u : State) (h : s.phase = .hdr) (hrx : s.rx = b :: rest)
      (hu : u = { s with
        rx := rest, rxCount := satAdd s.rxCount 1, mbapTid := u.mbapTid, mbapPid := u.mbapPid, mbapLen := u.mbapLen })
      (hh : s.h + 1#3 ≠ 6#3) : TcpDecStep s { u with h := u.h + 1#3 }
  | headerEnd (b : Byte) (rest : List Byte) (u : State) (h : s.phase = .hdr) (hrx : s.rx = b :: rest)
      (hu : u = { s with
        rx := rest, rxCount := satAdd s.rxCount 1, mbapTid := u.mbapTid, mbapPid := u.mbapPid, mbapLen := u.mbapLen })
      (hlen : coreLenOk u.mbapLen.toNat = true) : TcpDecStep s { u with h := u.h + 1#3, idx := 0#9, phase := .body }
  | badLength (b : Byte) (rest : List Byte) (u : State) (h : s.phase = .hdr) (hrx : s.rx = b :: rest)
      (hu : u = { s with
        rx := rest, rxCount := satAdd s.rxCount 1, mbapTid := u.mbapTid, mbapPid := u.mbapPid, mbapLen := u.mbapLen }) :
      TcpDecStep s (fail .length { u with h := u.h + 1#3 })
  | byte (b : Byte) (rest : List Byte) (h : s.phase = .body) (hrx : s.rx = b :: rest) (hidx : s.idx.toNat < 256)
      (hlast : s.idx.toNat + 1 ≠ s.mbapLen.toNat) : TcpDecStep s { s with
        rx := rest, rxCount := satAdd s.rxCount 1, fbuf := Memory.write s.fbuf s.idx.toNat b, idx := s.idx + 1#9 }
  | lastByte (b : Byte) (rest : List Byte) (h : s.phase = .body) (hrx : s.rx = b :: rest) (hidx : s.idx.toNat < 256) :
      TcpDecStep s (complete { s with
        rx := rest, rxCount := satAdd s.rxCount 1, fbuf := Memory.write s.fbuf s.idx.toNat b, idx := s.idx + 1#9,
        flen := s.idx + 1#9 })

theorem exec_tcpDec_next {s t : State} (h : exec .tcpDec s = .next t) : TcpDecStep s t := by
  simp only [exec, execTcpDec] at h
  split at h
  case h_1 => cases h; exact .hold
  case h_2 hphase => cases h; exact .start hphase
  case h_3 hphase =>
    obtain rfl | ⟨b, rest, hrx, h⟩ := withRx_next h
    · exact .hold
    · split at h
      case h_1 => contradiction
      case h_2 u hset =>
        have hu := setMbapHeaderByte_frame hset
        have hh : u.h = s.h := by rw [hu]
        cases h
        split_ifs with h6 hlen
        · exact .headerEnd b rest u hphase hrx hu hlen
        · exact .badLength b rest u hphase hrx hu
        · exact .header b rest u hphase hrx hu (hh ▸ h6)
  case h_4 hphase =>
    obtain rfl | ⟨b, rest, hrx, h⟩ := withRx_next h
    · exact .hold
    · obtain ⟨hidx, h⟩ := storeByte_next h
      have hsucc : (s.idx + 1#9).toNat = s.idx.toNat + 1 := by bv_omega
      cases h
      simp only [hsucc]
      split
      case isTrue => exact .lastByte b rest hphase hrx hidx
      case isFalse hlast => exact .byte b rest hphase hrx hidx hlast
  case h_5 => contradiction

/-- What TCP.DEC leaves alone. -/
theorem TcpDecStep.frame {s t : State} (h : TcpDecStep s t) :
    t = { s with
      mbapTid := t.mbapTid, mbapPid := t.mbapPid, mbapLen := t.mbapLen, h := t.h, idx := t.idx, flen := t.flen,
      fbuf := t.fbuf, rx := t.rx, rxCount := t.rxCount, busy := t.busy, done := t.done, err := t.err,
      errCode := t.errCode, phase := t.phase } ∧
    ∀ k, (s.phase = .body → k ≠ s.idx.toNat) → Memory.read t.fbuf k = Memory.read s.fbuf k := by
  cases h with
  | hold | start => exact ⟨rfl, fun _ _ => rfl⟩
  | header b rest u h hrx hu | headerEnd b rest u h hrx hu | badLength b rest u h hrx hu =>
    rw [hu]
    exact ⟨rfl, fun _ _ => rfl⟩
  | byte b rest h | lastByte b rest h => exact ⟨rfl, fun k hk => Memory.read_write_other (hk h)⟩

theorem TcpDecStep.blockStep {s t : State} (h : TcpDecStep s t) : BlockStep s t := by
  cases h with
  | hold => exact .hold s
  | start h => exact ⟨rfl, .goesOn rfl rfl rfl rfl (by simp [h]), .inl rfl, List.suffix_rfl, id⟩
  | header b rest u h hrx hu =>
    rw [hu]
    exact ⟨rfl, .goesOn rfl rfl rfl rfl Iff.rfl, .inl rfl, suffix_of_rx hrx, id⟩
  | headerEnd b rest u h hrx hu =>
    rw [hu]
    exact ⟨rfl, .goesOn rfl rfl rfl rfl (by simp [h]), .inl rfl, suffix_of_rx hrx, id⟩
  | badLength b rest u h hrx hu =>
    rw [hu]
    exact ⟨rfl, .fails rfl rfl rfl failCodes_ne_none.2.1 rfl, .inl rfl, suffix_of_rx hrx, id⟩
  | byte b rest h hrx hidx =>
    exact ⟨rfl, .goesOn rfl rfl rfl rfl Iff.rfl, .inl rfl, suffix_of_rx hrx, fun hwf => Memory.write_wf b hwf hidx⟩
  | lastByte b rest h hrx hidx =>
    exact ⟨rfl, .completes rfl rfl rfl rfl rfl, .inl rfl, suffix_of_rx hrx, fun hwf => Memory.write_wf b hwf hidx⟩

/-- Settles O25: by the steps that each command can take. -/
theorem tcpCommandsFrame : Obligations.TcpCommandsFrame := fun _ _ =>
  ⟨tcpEnc_frame, fun h => (exec_tcpDec_next h).frame⟩

/-- Past INIT FLEN is 0 until the command completes (R142). -/
theorem SeqOk.flen_of_tcpDec {s : State} (h : SeqOk .tcpDec s) (hinit : s.phase ≠ .init) : s.flen = 0#9 :=
  (h.resolve_left hinit).1

/-- An error of TCP.DEC leaves FLEN as INIT set it (spec/60_exceptions.md R252). -/
theorem tcpDec_error_flen {s t : State} (hinv : MachineInv s) (hfetch : fetch s = .run .tcpDec)
    (h : exec .tcpDec s = .next t) (herr : t.err = true) : t.flen = 0#9 := by
  have hquiet := (hinv.quiet_of_fetch hfetch).2.1
  cases exec_tcpDec_next h with
  | badLength b rest u hphase hrx hu =>
    have hflen := (hinv.seqOk_of_fetch hfetch).flen_of_tcpDec (by simp [hphase])
    rw [hu]
    exact hflen
  | hold | start | byte | lastByte => exact absurd (hquiet.symm.trans herr) (by decide)
  | header b rest u hphase hrx hu | headerEnd b rest u hphase hrx hu =>
    rw [hu] at herr
    exact absurd (hquiet.symm.trans herr) (by decide)

/-- Settles O23: the step of INIT, the three of a header byte, the two of a core byte, and FLEN after an error. -/
theorem tcpDecSteps : Obligations.TcpDecSteps :=
  ⟨rfl, fun _ =>
    ⟨exec_tcpDec_start, fun _ _ h hrx => exec_tcpDec_header hrx h, fun _ _ h hrx => exec_tcpDec_headerEnd hrx h,
     fun _ _ h hrx hh hlen => exec_tcpDec_badLength hrx h hh (coreLenOk_false hlen),
     fun _ _ h hrx => exec_tcpDec_body hrx h, fun _ => tcpDec_error_flen⟩⟩

/-! ## The whole frame -/

/-- TCP.DEC in its header after `n` bytes, with `rx` still to come and what the MBAP registers hold. -/
def tcpDecHeader (s : State) (n : Nat) (rx : List Byte) (tid pid len : Half) : State :=
  { s with
    rx := rx, rxCount := satAdd s.rxCount n, h := BitVec.ofNat 3 n, mbapTid := tid, mbapPid := pid, mbapLen := len,
    phase := .hdr }

theorem exec_tcpDecHeader {s : State} {n : Nat} {b : Byte} {rx : List Byte} {tid pid len : Half} (hn : n < 5) :
    exec .tcpDec (tcpDecHeader s n (b :: rx) tid pid len) = .next (tcpDecHeader s (n + 1) rx
      (if n = 0 then b ++ loByte tid else if n = 1 then hiByte tid ++ b else tid)
      (if n = 2 then b ++ loByte pid else if n = 3 then hiByte pid ++ b else pid)
      (if n = 4 then b ++ loByte len else len)) := by
  have hh : (BitVec.ofNat 3 n).toNat = n := Nat.mod_eq_of_lt (by omega)
  have heq (k : Nat) (hk : k < 5) : BitVec.ofNat 3 n = BitVec.ofNat 3 k ↔ n = k := by bv_omega
  have hsucc : BitVec.ofNat 3 n + 1#3 = BitVec.ofNat 3 (n + 1) := by bv_omega
  refine (exec_tcpDec_header rfl rfl (hh.symm ▸ hn)).trans (congrArg Host.Outcome.next ?_)
  simp only [tcpDecHeader, heq 0 (by omega), heq 1 (by omega), heq 2 (by omega), heq 3 (by omega), heq 4 (by omega),
    satAdd_satAdd, hsucc]

/-- Six header bytes with a good length field. -/
theorem execN_tcpDecHeader {s : State} {a₀ a₁ a₂ a₃ a₄ a₅ : Byte} {rx : List Byte} {tid pid len : Half}
    (hlen : coreLenOk (a₄ ++ a₅).toNat = true) :
    execN .tcpDec 6 (tcpDecHeader s 0 (a₀ :: a₁ :: a₂ :: a₃ :: a₄ :: a₅ :: rx) tid pid len) = .next { s with
      rx := rx, rxCount := satAdd s.rxCount 6, h := 6#3, mbapTid := a₀ ++ a₁, mbapPid := a₂ ++ a₃,
      mbapLen := a₄ ++ a₅, idx := 0#9, phase := .body } := by
  have hend : exec .tcpDec (tcpDecHeader s 5 (a₅ :: rx) (a₀ ++ a₁) (a₂ ++ a₃) (a₄ ++ loByte len)) = .next { s with
      rx := rx, rxCount := satAdd s.rxCount 6, h := 6#3, mbapTid := a₀ ++ a₁, mbapPid := a₂ ++ a₃,
      mbapLen := a₄ ++ a₅, idx := 0#9, phase := .body } := by
    refine (exec_tcpDec_headerEnd (s := tcpDecHeader s 5 (a₅ :: rx) (a₀ ++ a₁) (a₂ ++ a₃) (a₄ ++ loByte len)) rfl rfl rfl
      ?_).trans (congrArg Host.Outcome.next ?_)
    · rwa [tcpDecHeader, hiByte_append]
    · simp only [tcpDecHeader, hiByte_append, satAdd_satAdd]
  simp [execN, exec_tcpDecHeader, hend]

/-- The core bytes that are left, up to the length field. -/
theorem execN_tcpDec_body {cs rest : List Byte} {s : State} {j : Nat} (h : s.phase = .body)
    (hidx : s.idx = BitVec.ofNat 9 j) (hlen : s.mbapLen.toNat = j + cs.length) (hmax : j + cs.length ≤ 254)
    (hcs : cs ≠ []) (hrx : s.rx = cs ++ rest) :
    execN .tcpDec cs.length s = .next { s with
      rx := rest, rxCount := satAdd s.rxCount cs.length, fbuf := Memory.writeAll s.fbuf j cs,
      idx := BitVec.ofNat 9 (j + cs.length), flen := BitVec.ofNat 9 (j + cs.length), busy := false, done := true,
      phase := .idle } := by
  induction cs generalizing s j with
  | nil => contradiction
  | cons b cs ih =>
    rw [List.length_cons] at hlen hmax ⊢
    have hj : s.idx.toNat = j := by rw [hidx]; exact Nat.mod_eq_of_lt (by omega)
    have hsucc : s.idx + 1#9 = BitVec.ofNat 9 (j + 1) := by rw [hidx]; bv_omega
    have hstep := exec_tcpDec_body hrx h (by omega)
    rw [hj, hsucc] at hstep
    refine execN_step hstep ?_
    cases cs with
    | nil =>
      rw [if_pos (by rw [hlen]; rfl)]
      rfl
    | cons c cs =>
      rw [if_neg (by rw [hlen, List.length_cons]; omega)]
      have hlen' : s.mbapLen.toNat = j + 1 + (c :: cs).length := by rw [hlen]; omega
      refine Eq.trans (ih (j := j + 1) h rfl hlen' (by omega) (List.cons_ne_nil c cs) rfl) ?_
      simp only [Memory.writeAll, satAdd_satAdd, Nat.add_comm 1, Nat.add_assoc j]

/-- Settles O24: INIT, the header, the core. -/
theorem tcpDecReceivesTheFrame : Obligations.TcpDecReceivesTheFrame := by
  intro s tid pid len core rest h hlen hlo hhi hrx
  have hok : coreLenOk (hiByte len ++ loByte len).toNat = true := by
    rw [hiByte_append_loByte, hlen]
    exact (coreLenOk_iff _).mpr ⟨hlo, hhi⟩
  have hne : core ≠ [] := List.ne_nil_of_length_pos (by omega)
  have hstart : exec .tcpDec s = .next (tcpDecHeader { s with flen := 0#9 } 0 s.rx s.mbapTid s.mbapPid s.mbapLen) := by
    rw [exec_tcpDec_start h, tcpDecHeader, satAdd_zero]
  rw [List.append_assoc] at hrx
  rw [hrx] at hstart
  have hrun := execN_step hstart ((execN_add (execN_tcpDecHeader hok)).trans
    (execN_tcpDec_body (j := 0) rfl rfl (by simpa using hlen) (by omega) hne rfl))
  refine ⟨{ s with
    mbapTid := tid, mbapPid := pid, mbapLen := len, h := 6#3, idx := BitVec.ofNat 9 core.length,
    flen := BitVec.ofNat 9 core.length, fbuf := Memory.writeAll s.fbuf 0 core, rx := rest,
    rxCount := satAdd s.rxCount (core.length + 6), busy := false, done := true, phase := .idle }, ?_,
    Memory.slice_writeAll .., fun k hk => Memory.read_writeAll_outside (.inr (by omega)), rfl⟩
  rw [show core.length + 7 = 6 + core.length + 1 by omega, hrun]
  simp only [satAdd_satAdd, hiByte_append_loByte, Nat.zero_add, Nat.add_comm 6]

end Sys2Proof.Machine
end

