-- ==== Sys2Proof/Proofs/RtuEnc.lean ====
section
/-! RTU.ENC step by step and as a whole (spec/42_rtu.md R170 to R172, R185). -/

namespace Sys2Proof.Machine

/-! ## Pending echo -/

/-- ECHO_PEND after `n` bytes sent, from `base` on: they are counted when L_ECHO = 1 (R172). -/
def echoAfter (echo : Bool) (base : Half) (n : Nat) : Half := if echo then satAdd base n else base

theorem echoAfter_zero (echo : Bool) (base : Half) : echoAfter echo base 0 = base := by
  simp only [echoAfter, satAdd_zero, ite_self]

/-- One more byte sent. -/
theorem echoAfter_succ (echo : Bool) (base : Half) (n : Nat) :
    echoAfter echo (echoAfter echo base n) 1 = echoAfter echo base (n + 1) := by
  cases echo
  · rfl
  · exact satAdd_satAdd base n 1

/-- Counted from 0, pending echo is the number of bytes sent while it fits. -/
theorem echoAfter_of_zero (echo : Bool) {n : Nat} (hn : n ≤ 0xFFFF) :
    echoAfter echo 0#16 n = if echo then BitVec.ofNat 16 n else 0#16 := by
  have hcount : satAdd 0#16 n = BitVec.ofNat 16 n := by
    rw [satAdd, sat16, BitVec.toNat_ofNat, Nat.zero_mod, Nat.zero_add, Nat.min_eq_left hn]
  rw [echoAfter, hcount]

/-! ## The steps -/

section Steps
variable {s : State}

theorem exec_rtuEnc_refuse (h : s.phase = .init) (hlen : coreLenOk s.flen.toNat = false) :
    exec .rtuEnc s = .next (fail .length s) := by
  simp only [exec, execRtuEnc, h, hlen, Bool.false_eq_true, if_false]

/-- INIT drains RX and forgets what echo was pending (R185). -/
theorem exec_rtuEnc_start (h : s.phase = .init) (hlen : coreLenOk s.flen.toNat = true) :
    exec .rtuEnc s = .next { s with
      rx := [], rxCount := satAdd s.rxCount s.rx.length, echoPend := 0#16, crc := 0xFFFF#16, idx := 0#9,
      phase := .core } := by
  simp only [exec, execRtuEnc, h, hlen, if_true, rxDrain, crcInitValue]

theorem exec_rtuEnc_full (h : s.phase = .core ∨ s.phase = .crcLo ∨ s.phase = .crcHi)
    (hfull : s.txDepth ≤ s.txFifo.length) : exec .rtuEnc s = .next s := by
  rcases h with h | h | h <;> simp only [exec, execRtuEnc, h, withTx_full hfull]

variable (hroom : s.txFifo.length < s.txDepth)
include hroom

theorem exec_rtuEnc_core {b : Byte} (h : s.phase = .core) (hidx : s.idx.toNat < 256)
    (hb : Memory.read s.fbuf s.idx.toNat = some b) :
    exec .rtuEnc s = .next { s with
      txFifo := s.txFifo ++ [b], txCount := satAdd s.txCount 1,
      echoPend := echoAfter s.lEcho s.echoPend 1, crc := crcStep s.crc b, idx := s.idx + 1#9,
      phase := if s.idx + 1#9 = s.flen then .crcLo else .core } := by
  simp only [exec, execRtuEnc, h, withTx_room hroom, withByte_some hb hidx, txPushSerial, txPush, echoAfter]
  split <;> rfl

theorem exec_rtuEnc_unwritten (h : s.phase = .core) (hidx : s.idx.toNat < 256)
    (hb : Memory.read s.fbuf s.idx.toNat = none) : exec .rtuEnc s = .fault (.fbufUnwritten s.idx.toNat) := by
  simp only [exec, execRtuEnc, h, withTx_room hroom, withByte, Config.fbufSize, if_pos hidx, hb]

theorem exec_rtuEnc_crcLo (h : s.phase = .crcLo) :
    exec .rtuEnc s = .next { s with
      txFifo := s.txFifo ++ [loByte s.crc], txCount := satAdd s.txCount 1,
      echoPend := echoAfter s.lEcho s.echoPend 1, phase := .crcHi } := by
  simp only [exec, execRtuEnc, h, withTx_room hroom, txPushSerial, txPush, echoAfter]

theorem exec_rtuEnc_crcHi (h : s.phase = .crcHi) :
    exec .rtuEnc s = .next { s with
      txFifo := s.txFifo ++ [hiByte s.crc], txCount := satAdd s.txCount 1,
      echoPend := echoAfter s.lEcho s.echoPend 1, busy := false, done := true,
      phase := .idle } := by
  simp only [exec, execRtuEnc, h, withTx_room hroom, txPushSerial, txPush, complete, echoAfter]

end Steps

/-- Settles O26: the two outcomes of INIT, the two of a core byte, and the CRC bytes. -/
theorem rtuEncSteps : Obligations.RtuEncSteps :=
  ⟨rfl, fun _ =>
    ⟨fun h hlen => exec_rtuEnc_refuse h (coreLenOk_false hlen),
     fun h hlo hhi => exec_rtuEnc_start h ((coreLenOk_iff _).mpr ⟨hlo, hhi⟩),
     fun _ h hroom hidx hb => exec_rtuEnc_core hroom h hidx hb,
     fun h hroom hidx hb => exec_rtuEnc_unwritten hroom h hidx hb,
     fun h hroom => exec_rtuEnc_crcLo hroom h, fun h hroom => exec_rtuEnc_crcHi hroom h⟩⟩

/-! ## The whole frame -/

/-- RTU.ENC after `n` bytes of the frame. -/
def rtuEncShape (s : State) (core : List Byte) (n : Nat) : State :=
  let sent := { s with txCount := satAdd s.txCount n, echoPend := echoAfter s.lEcho 0#16 n }
  if n < core.length then { sent with crc := crc16 (core.take n), idx := BitVec.ofNat 9 n, phase := .core }
  else if n = core.length then { sent with crc := crc16 core, idx := s.flen, phase := .crcLo }
  else if n = core.length + 1 then { sent with crc := crc16 core, idx := s.flen, phase := .crcHi }
  else { sent with crc := crc16 core, idx := s.flen, busy := false, done := true, phase := .idle }

section Shape
variable {s : State} {core : List Byte}

theorem rtuEncShape_core {n : Nat} (h : n < core.length) : rtuEncShape s core n = { s with
    txCount := satAdd s.txCount n, echoPend := echoAfter s.lEcho 0#16 n, crc := crc16 (core.take n),
    idx := BitVec.ofNat 9 n, phase := .core } := by
  simp only [rtuEncShape, if_pos h]

theorem rtuEncShape_crcLo : rtuEncShape s core core.length = { s with
    txCount := satAdd s.txCount core.length, echoPend := echoAfter s.lEcho 0#16 core.length, crc := crc16 core,
    idx := s.flen, phase := .crcLo } := by
  simp only [rtuEncShape, if_neg (Nat.lt_irrefl _), if_true]

theorem rtuEncShape_crcHi : rtuEncShape s core (core.length + 1) = { s with
    txCount := satAdd s.txCount (core.length + 1), echoPend := echoAfter s.lEcho 0#16 (core.length + 1),
    crc := crc16 core, idx := s.flen, phase := .crcHi } := by
  simp only [rtuEncShape, if_neg (show ¬ core.length + 1 < core.length by omega),
    if_neg (show ¬ core.length + 1 = core.length by omega), if_true]

theorem rtuEncShape_end : rtuEncShape s core (core.length + 2) = { s with
    txCount := satAdd s.txCount (core.length + 2), echoPend := echoAfter s.lEcho 0#16 (core.length + 2),
    crc := crc16 core, idx := s.flen, busy := false, done := true, phase := .idle } := by
  simp only [rtuEncShape, if_neg (show ¬ core.length + 2 < core.length by omega),
    if_neg (show ¬ core.length + 2 = core.length by omega),
    if_neg (show ¬ core.length + 2 = core.length + 1 by omega)]

theorem rtuFrame_length : (rtuFrame core).length = core.length + 2 := by
  rw [rtuFrame, List.length_append]
  rfl

/-- Before its end RTU.ENC stands at a core byte or at one of the CRC bytes. -/
theorem rtuEncShape_cases {n : Nat} (hn : n < core.length + 2) :
    n < core.length ∨ n = core.length ∨ n = core.length + 1 := by omega

/-- A core byte, sent from one shape to the next. -/
theorem exec_rtuEncShape_core {n : Nat} {b : Byte} {e : Streams} (hflen : s.flen.toNat = core.length)
    (hhi : core.length ≤ 254) (hcore : Holds s core.length core) (hn : n < core.length) (hb : core[n]? = some b)
    (hroom : e.txFifo.length < s.txDepth) :
    exec .rtuEnc ((rtuEncShape s core n).withStreams e) = .next ((rtuEncShape s core (n + 1)).withStreams (e.push b)) := by
  have hidx : (BitVec.ofNat 9 n).toNat = n := Nat.mod_eq_of_lt (by omega)
  have hsucc : BitVec.ofNat 9 n + 1#9 = BitVec.ofNat 9 (n + 1) := by bv_omega
  have hcrc : crcStep (crc16 (core.take n)) b = crc16 (core.take (n + 1)) := by
    rw [← crc16_snoc, List.take_add_one, hb, Option.toList_some]
  rw [rtuEncShape_core hn]
  refine (exec_rtuEnc_core hroom rfl (hidx.symm ▸ (by omega)) (hidx.symm ▸ read_of_holds hcore hb)).trans
    (congrArg Host.Outcome.next ?_)
  rcases Nat.lt_or_ge (n + 1) core.length with hlast | hlast
  · have hne : BitVec.ofNat 9 (n + 1) ≠ s.flen := by bv_omega
    rw [rtuEncShape_core hlast]
    simp only [State.withStreams, Streams.push, hsucc, hne, if_false, satAdd_satAdd, echoAfter_succ, hcrc]
  · have heq : BitVec.ofNat 9 core.length = s.flen := by bv_omega
    have hcount : n + 1 = core.length := by omega
    rw [hcount, List.take_length] at hcrc
    rw [hcount, rtuEncShape_crcLo]
    simp only [State.withStreams, Streams.push, hsucc, hcount, heq, if_true, satAdd_satAdd, echoAfter_succ, hcrc]

/-- With the core in FBUF, RTU.ENC drains RX and sends its frame. -/
theorem rtuEnc_sendsFrame (h : s.phase = .init) (hflen : s.flen.toNat = core.length) (hlo : 2 ≤ core.length)
    (hhi : core.length ≤ 254) (hcore : Holds s core.length core) :
    SendsFrame .rtuEnc s (rtuFrame core)
      (fun e => { e with rx := [], rxCount := satAdd e.rxCount e.rx.length }) (rtuEncShape s core) where
  start e := by
    rw [rtuEncShape_core (by omega), satAdd_zero, echoAfter_zero]
    exact exec_rtuEnc_start h ((coreLenOk_iff _).mpr (hflen ▸ ⟨hlo, hhi⟩))
  started_kept e := ⟨rfl, rfl, rfl⟩
  send {n b e} hb hroom := by
    have hn := (List.getElem?_eq_some_iff.mp hb).1
    rw [rtuFrame_length] at hn
    rcases rtuEncShape_cases hn with hn | rfl | rfl
    · rw [rtuFrame, List.getElem?_append_left hn] at hb
      exact exec_rtuEncShape_core hflen hhi hcore hn hb hroom
    · have hlow : b = loByte (crc16 core) := by simpa [rtuFrame] using hb.symm
      rw [rtuEncShape_crcLo, rtuEncShape_crcHi, hlow]
      refine (exec_rtuEnc_crcLo hroom rfl).trans (congrArg Host.Outcome.next ?_)
      simp only [State.withStreams, Streams.push, satAdd_satAdd, echoAfter_succ]
    · have hhigh : b = hiByte (crc16 core) := by simpa [rtuFrame] using hb.symm
      rw [rtuEncShape_crcHi, rtuEncShape_end, hhigh]
      refine (exec_rtuEnc_crcHi hroom rfl).trans (congrArg Host.Outcome.next ?_)
      simp only [State.withStreams, Streams.push, satAdd_satAdd, echoAfter_succ]
  hold {n e} hn hfull := by
    rw [rtuFrame_length] at hn
    rcases rtuEncShape_cases hn with hn | rfl | rfl
    · rw [rtuEncShape_core hn]
      exact exec_rtuEnc_full (.inl rfl) hfull
    · rw [rtuEncShape_crcLo]
      exact exec_rtuEnc_full (.inr (.inl rfl)) hfull
    · rw [rtuEncShape_crcHi]
      exact exec_rtuEnc_full (.inr (.inr rfl)) hfull
  busy {n} hn := by
    rw [rtuFrame_length] at hn
    rcases rtuEncShape_cases hn with hn | rfl | rfl
    · rw [rtuEncShape_core hn]
    · rw [rtuEncShape_crcLo]
    · rw [rtuEncShape_crcHi]
  ended := by
    rw [rtuFrame_length, rtuEncShape_end]
    exact ⟨rfl, rfl⟩
  kept n := by
    unfold rtuEncShape
    split_ifs <;> exact ⟨rfl, rfl, rfl, rfl⟩

end Shape

/-- Settles O27: INIT and the frame's bytes, and what the shape at the end is. -/
theorem rtuEncSendsTheFrame : Obligations.RtuEncSendsTheFrame := by
  intro s core h hflen hlo hhi hcore hroom
  have hrun := (rtuEnc_sendsFrame h hflen hlo hhi hcore).execN_frame (by rwa [rtuFrame_length])
  rwa [rtuFrame_length, rtuEncShape_end, echoAfter_of_zero _ (by omega)] at hrun

/-! ## What a step can be -/

/-- The steps of RTU.ENC (R171). -/
inductive RtuEncStep (s : State) : State → Prop
  | hold : RtuEncStep s s
  | refuse (h : s.phase = .init) : RtuEncStep s (fail .length s)
  | start (h : s.phase = .init) (hlen : coreLenOk s.flen.toNat = true) :
      RtuEncStep s { rxDrain s with echoPend := 0#16, crc := crcInitValue, idx := 0#9, phase := .core }
  | byte (b : Byte) (h : s.phase = .core) (hroom : s.txFifo.length < s.txDepth)
      (hb : Memory.read s.fbuf s.idx.toNat = some b) (hidx : s.idx + 1#9 ≠ s.flen) :
      RtuEncStep s { txPushSerial b s with crc := crcStep s.crc b, idx := s.idx + 1#9 }
  | lastByte (b : Byte) (h : s.phase = .core) (hroom : s.txFifo.length < s.txDepth)
      (hb : Memory.read s.fbuf s.idx.toNat = some b) (hidx : s.idx + 1#9 = s.flen) :
      RtuEncStep s { txPushSerial b s with crc := crcStep s.crc b, idx := s.idx + 1#9, phase := .crcLo }
  | crcLo (h : s.phase = .crcLo) (hroom : s.txFifo.length < s.txDepth) :
      RtuEncStep s { txPushSerial (loByte s.crc) s with phase := .crcHi }
  | crcHi (h : s.phase = .crcHi) (hroom : s.txFifo.length < s.txDepth) :
      RtuEncStep s (complete (txPushSerial (hiByte s.crc) s))

theorem exec_rtuEnc_next {s t : State} (h : exec .rtuEnc s = .next t) : RtuEncStep s t := by
  simp only [exec, execRtuEnc] at h
  split at h
  case h_1 => cases h; exact .hold
  case h_2 hphase =>
    split at h
    case isTrue hlen => cases h; exact .start hphase hlen
    case isFalse => cases h; exact .refuse hphase
  case h_3 hphase =>
    obtain rfl | ⟨hroom, h⟩ := withTx_next h
    · exact .hold
    · obtain ⟨b, -, hb, h⟩ := withByte_next h
      cases h
      split
      case isTrue hidx => exact .lastByte b hphase hroom hb hidx
      case isFalse hidx => exact .byte b hphase hroom hb hidx
  case h_4 hphase =>
    obtain rfl | ⟨hroom, h⟩ := withTx_next h
    · exact .hold
    · cases h; exact .crcLo hphase hroom
  case h_5 hphase =>
    obtain rfl | ⟨hroom, h⟩ := withTx_next h
    · exact .hold
    · cases h; exact .crcHi hphase hroom
  case h_6 => contradiction

theorem RtuEncStep.blockStep {s t : State} (h : RtuEncStep s t) : BlockStep s t := by
  cases h with
  | hold => exact .hold s
  | refuse h => exact ⟨rfl, .fails rfl rfl rfl failCodes_ne_none.2.1 rfl, .inl rfl, List.suffix_rfl, id⟩
  | start h => exact ⟨rfl, .goesOn rfl rfl rfl rfl (by simp [h]), .inl rfl, List.nil_suffix, id⟩
  | byte b h hroom => exact ⟨rfl, .goesOn rfl rfl rfl rfl Iff.rfl, fifo_push hroom b, List.suffix_rfl, id⟩
  | lastByte b h hroom =>
    exact ⟨rfl, .goesOn rfl rfl rfl rfl (by simp [h]), fifo_push hroom b, List.suffix_rfl, id⟩
  | crcLo h hroom => exact ⟨rfl, .goesOn rfl rfl rfl rfl (by simp [h]), fifo_push hroom _, List.suffix_rfl, id⟩
  | crcHi h hroom => exact ⟨rfl, .completes rfl rfl rfl rfl rfl, fifo_push hroom _, List.suffix_rfl, id⟩

/-- What RTU.ENC leaves alone. -/
theorem rtuEnc_frame {s t : State} (h : exec .rtuEnc s = .next t) :
    t = { s with
      rx := t.rx, rxCount := t.rxCount, echoPend := t.echoPend, crc := t.crc, idx := t.idx, txFifo := t.txFifo,
      txCount := t.txCount, busy := t.busy, done := t.done, err := t.err, errCode := t.errCode, phase := t.phase } ∧
    ∀ k, Memory.read t.fbuf k = Memory.read s.fbuf k := by
  cases exec_rtuEnc_next h <;> exact ⟨rfl, fun _ => rfl⟩

end Sys2Proof.Machine
end

