-- ==== Sys2Proof/Proofs/LenTable.lean ====
section
/-! RequiredLen and the default length table (spec/42_rtu.md R175 to R180). -/

namespace Sys2Proof.Machine

/-! ## RequiredLen as bytes arrive -/

/-- A walk never goes back. -/
theorem le_of_walkObjects {body : List Byte} {m pos n : Nat} (h : walkObjects body pos m = some n) : pos ≤ n := by
  induction m generalizing pos with
  | zero => exact Nat.le_of_eq (Option.some.inj h)
  | succ m ih =>
    unfold walkObjects at h
    split at h
    · contradiction
    · exact Nat.le_trans (by omega) (ih h)

/-- A walk reads only bytes before where it ends. -/
theorem walkObjects_congr {body body' : List Byte} {n : Nat}
    (hagree : ∀ j b, j < n → body[j]? = some b → body'[j]? = some b) {m pos : Nat}
    (h : walkObjects body pos m = some n) : walkObjects body' pos m = some n := by
  induction m generalizing pos with
  | zero => exact h
  | succ m ih =>
    unfold walkObjects at h ⊢
    split at h
    case h_1 => contradiction
    case h_2 l hl =>
      have hle := le_of_walkObjects h
      simp only [hagree (pos + 1) l (by omega) hl]
      exact ih h

/-- RequiredLen reads only bytes before the length it answers. -/
theorem requiredLen_congr {g : LenSpec} {body body' : List Byte} {n : Nat} (h : requiredLen g body = some n)
    (hagree : ∀ j b, j < n → body[j]? = some b → body'[j]? = some b) : requiredLen g body' = some n := by
  unfold requiredLen at h ⊢
  split at h
  case h_1 => exact h
  case h_2 =>
    split at h
    case h_1 => contradiction
    case h_2 c hc =>
      cases h
      simp only [hagree _ c (by omega) hc]
  case h_3 =>
    split at h
    case h_2 => contradiction
    case h_1 hi lo hhi hlo =>
      cases h
      simp only [hagree _ hi (by omega) hhi, hagree _ lo (by omega) hlo]
  case h_4 =>
    split at h
    case h_1 => contradiction
    case h_2 m hm =>
      have hle := le_of_walkObjects h
      simp only [hagree 5 m (by omega) hm]
      exact walkObjects_congr hagree h
  case h_5 => contradiction

/-- What RequiredLen answers, it answers however many bytes follow (R178). -/
theorem requiredLen_append {g : LenSpec} {body : List Byte} {n : Nat} (h : requiredLen g body = some n)
    (more : List Byte) : requiredLen g (body ++ more) = some n :=
  requiredLen_congr h fun _ _ _ hj => List.getElem?_append_left (List.getElem?_eq_some_iff.mp hj).1 ▸ hj

/-- The bytes it needs lie within the length it answers. -/
theorem requiredLen_take {g : LenSpec} {body : List Byte} {n : Nat} (h : requiredLen g body = some n) :
    requiredLen g (body.take n) = some n :=
  requiredLen_congr h fun _ _ hj hb => by rwa [List.getElem?_take_of_lt hj]

/-- A payload that has its required length is the only one among its extensions. -/
theorem eq_nil_of_requiredLen {g : LenSpec} {body more : List Byte} (h : requiredLen g body = some body.length)
    (hmore : requiredLen g (body ++ more) = some (body ++ more).length) : more = [] := by
  have hlen := Option.some.inj ((requiredLen_append h more).symm.trans hmore)
  rw [List.length_append] at hlen
  exact List.eq_nil_of_length_eq_zero (by omega)

/-! ## RequiredLen clause by clause -/

theorem getElem?_append_cons (pre post : List Byte) (b : Byte) : (pre ++ b :: post)[pre.length]? = some b := by
  simp

/-- Two count bytes, high byte first. -/
theorem append_toNat (n m : Byte) : (n ++ m).toNat = n.toNat * 256 + m.toNat := by
  rw [BitVec.toNat_append, ← Nat.shiftLeft_add_eq_or_of_lt m.isLt, Nat.shiftLeft_eq]

/-- Settles O32: R177 clause by clause, then stability. -/
theorem requiredLenIsStable : Obligations.RequiredLenIsStable := by
  refine ⟨fun _ _ => rfl, fun k body => ⟨fun hk => ?_, fun hk => ?_⟩, fun pre post n m => ⟨?_, ?_⟩, fun body hlen => ?_,
    fun pre post m hpre => ?_, fun _ _ => rfl, fun body pos m hlen => ?_, fun pre post objId len m => ?_,
    fun g body n h => ⟨requiredLen_append h, requiredLen_take h, fun more hn hmore => ?_⟩⟩
  · simp only [requiredLen, List.getElem?_eq_none (show body.length ≤ k by omega)]
  · simp only [requiredLen, List.getElem?_eq_none (show body.length ≤ k + 1 by omega)]
    cases body[k]? <;> rfl
  · simp only [requiredLen, getElem?_append_cons]
  · have hsecond : (pre ++ n :: m :: post)[pre.length + 1]? = some m := by simp
    simp only [requiredLen, getElem?_append_cons, hsecond, append_toNat]
  · simp only [requiredLen, List.getElem?_eq_none (show body.length ≤ 5 by omega)]
  · have hcount : (pre ++ m :: post)[5]? = some m := hpre ▸ getElem?_append_cons pre post m
    simp only [requiredLen, hcount]
  · simp only [walkObjects, List.getElem?_eq_none (show body.length ≤ pos + 1 by omega)]
  · have hlen : (pre ++ objId :: len :: post)[pre.length + 1]? = some len := by simp
    simp only [walkObjects, hlen]
  · exact eq_nil_of_requiredLen (hn ▸ h) hmore

/-! ## The default table -/

/-- The function codes that the default table names (R176). -/
def namedCodes : List Nat := [1, 2, 3, 4, 5, 6, 7, 8, 11, 12, 15, 16, 17, 20, 21, 22, 23, 24, 43]

/-- A row of the default table is for one named function code, or for the exception codes. -/
theorem defaultLenTable_rows : ∀ r ∈ defaultLenTable, (r.lo = r.hi ∧ r.lo.toNat ∈ namedCodes) ∨ r.lo = 0x80#8 := by
  decide

/-- A function code that no row names is Unsupported. -/
theorem lookupLen_of_not_named (dir : Dir) {fc : Byte} (hlow : fc.toNat < 0x80) (hfc : fc.toNat ∉ namedCodes) :
    lookupLen defaultLenTable dir fc = .unsupported := by
  have hnone : defaultLenTable.find? (fun r =>
      decide (r.dir = dir) && decide (r.lo.toNat ≤ fc.toNat) && decide (fc.toNat ≤ r.hi.toNat)) = none := by
    refine List.find?_eq_none.mpr fun r hr hmatch => ?_
    simp only [Bool.and_eq_true, decide_eq_true_eq] at hmatch
    obtain ⟨⟨-, hlo⟩, hhi⟩ := hmatch
    rcases defaultLenTable_rows r hr with ⟨heq, hnamed⟩ | hexc
    · rw [← heq] at hhi
      exact hfc (Nat.le_antisymm hlo hhi ▸ hnamed)
    · rw [hexc] at hlo
      exact absurd hlo (Nat.not_le.mpr hlow)
  simp only [lookupLen, hnone]

/-- The rows before the two for exception codes are for smaller codes. -/
theorem defaultLenTable_split : ∃ front, (∀ r ∈ front, r.hi.toNat < 0x80) ∧
    defaultLenTable = front ++ [⟨.req, 0x80, 0xFF, .unsupported⟩, ⟨.rsp, 0x80, 0xFF, .fixed 1⟩] :=
  ⟨defaultLenTable.take 38, by decide, by decide⟩

/-- An exception code is looked up in those two rows (R179). -/
theorem lookupLen_of_exception (dir : Dir) {fc : Byte} (hfc : 0x80 ≤ fc.toNat) :
    lookupLen defaultLenTable dir fc = match dir with
      | .req => .unsupported
      | .rsp => .fixed 1 := by
  obtain ⟨front, hfront, htable⟩ := defaultLenTable_split
  have hmax : fc.toNat ≤ 255 := Nat.le_of_lt_succ fc.isLt
  have hnone : front.find? (fun r =>
      decide (r.dir = dir) && decide (r.lo.toNat ≤ fc.toNat) && decide (fc.toNat ≤ r.hi.toNat)) = none := by
    refine List.find?_eq_none.mpr fun r hr hmatch => ?_
    have hhi := hfront r hr
    simp only [Bool.and_eq_true, decide_eq_true_eq] at hmatch
    omega
  rw [lookupLen, htable, List.find?_append, hnone]
  cases dir <;> simp [hfc, hmax]

/-- Settles O33: the named rows by computation, the exception codes, and the codes that no row names. -/
theorem defaultLengthTable : Obligations.DefaultLengthTable := by
  refine ⟨by decide, by decide, by decide, by decide, by decide, by decide, by decide, by decide, by decide, by decide,
    by decide, fun fc hfc => ⟨lookupLen_of_exception .rsp hfc, lookupLen_of_exception .req hfc⟩,
    fun dir fc => lookupLen_of_not_named dir⟩

end Sys2Proof.Machine
end

