-- ==== Sys2Proof/Proofs/RtuDec.lean ====
section
/-! What a step of RTU.DEC can be, what it hands on, and the whole reception of a good frame; the frame of both RTU
commands (spec/42_rtu.md R172, R173, R178, R180 to R184). -/

namespace Sys2Proof.Machine

/-! ## What a step can be -/

/-- The steps of RTU.DEC (R173). -/
inductive RtuDecStep (dir : Dir) (s : State) : State → Prop
  | hold : RtuDecStep dir s s
  | startEcho (h : s.phase = .init) (hecho : s.echoPend ≠ 0#16) :
      RtuDecStep dir s { s with flen := 0#9, crc := crcInitValue, idx := 0#9, phase := .echo }
  | startUnit (h : s.phase = .init) (hecho : s.echoPend = 0#16) :
      RtuDecStep dir s { s with flen := 0#9, crc := crcInitValue, idx := 0#9, phase := .unit }
  | echo (b : Byte) (rest : List Byte) (h : s.phase = .echo) (hrx : s.rx = b :: rest) (hmore : s.echoPend - 1#16 ≠ 0#16) :
      RtuDecStep dir s { s with rx := rest, rxCount := satAdd s.rxCount 1, echoPend := s.echoPend - 1#16 }
  | echoEnd (b : Byte) (rest : List Byte) (h : s.phase = .echo) (hrx : s.rx = b :: rest)
      (hlast : s.echoPend - 1#16 = 0#16) : RtuDecStep dir s { s with
        rx := rest, rxCount := satAdd s.rxCount 1, echoPend := s.echoPend - 1#16, phase := .unit }
  | unit (b : Byte) (rest : List Byte) (h : s.phase = .unit) (hrx : s.rx = b :: rest) : RtuDecStep dir s { s with
        rx := rest, rxCount := satAdd s.rxCount 1, fbuf := Memory.write s.fbuf 0 b, crc := crcStep s.crc b,
        idx := 1#9, phase := .fc }
  | unsupported (b : Byte) (rest : List Byte) (h : s.phase = .fc) (hrx : s.rx = b :: rest) :
      RtuDecStep dir s (drainFail .unsupportedFc { s with
        rx := rest, rxCount := satAdd s.rxCount 1, fbuf := Memory.write s.fbuf 1 b, crc := crcStep s.crc b,
        idx := 2#9, g := some (lookupLen s.lenTable dir b) })
  | fc (b : Byte) (rest : List Byte) (p : Phase) (h : s.phase = .fc) (hrx : s.rx = b :: rest)
      (hspec : lookupLen s.lenTable dir b ≠ .unsupported)
      (hp : p = .body ∨ p = .crcLo ∧ requiredLen (lookupLen s.lenTable dir b) [] = some 0) : RtuDecStep dir s { s with
        rx := rest, rxCount := satAdd s.rxCount 1, fbuf := Memory.write s.fbuf 1 b, crc := crcStep s.crc b,
        idx := 2#9, g := some (lookupLen s.lenTable dir b), phase := p }
  | overflow (b : Byte) (rest : List Byte) (h : s.phase = .body) (hrx : s.rx = b :: rest) :
      RtuDecStep dir s (drainFail .overflow { s with rx := rest, rxCount := satAdd s.rxCount 1 })
  | byte (b : Byte) (rest : List Byte) (spec : LenSpec) (payload : List Byte) (p : Phase) (h : s.phase = .body)
      (hrx : s.rx = b :: rest) (hroom : s.idx.toNat ≠ 254) (hidx : s.idx.toNat < 256) (hg : s.g = some spec)
      (hpayload : Memory.slice (Memory.write s.fbuf s.idx.toNat b) 2 ((s.idx + 1#9).toNat - 2) = .ok payload)
      (hp : p = .body ∨ p = .crcLo ∧ requiredLen spec payload = some ((s.idx + 1#9).toNat - 2)) : RtuDecStep dir s { s with
        rx := rest, rxCount := satAdd s.rxCount 1, fbuf := Memory.write s.fbuf s.idx.toNat b, crc := crcStep s.crc b,
        idx := s.idx + 1#9, phase := p }
  | crcLo (b : Byte) (rest : List Byte) (h : s.phase = .crcLo) (hrx : s.rx = b :: rest) : RtuDecStep dir s { s with
        rx := rest, rxCount := satAdd s.rxCount 1, rxCrc := setLoByte s.rxCrc b, phase := .crcHi }
  | good (b : Byte) (rest : List Byte) (h : s.phase = .crcHi) (hrx : s.rx = b :: rest)
      (hcrc : setHiByte s.rxCrc b = s.crc) : RtuDecStep dir s (complete { s with
        rx := rest, rxCount := satAdd s.rxCount 1, rxCrc := setHiByte s.rxCrc b, flen := s.idx })
  | mismatch (b : Byte) (rest : List Byte) (h : s.phase = .crcHi) (hrx : s.rx = b :: rest) :
      RtuDecStep dir s (drainFail .crcMismatch { s with
        rx := rest, rxCount := satAdd s.rxCount 1, rxCrc := setHiByte s.rxCrc b })

theorem exec_rtuDec_next {dir : Dir} {s t : State} (h : exec (.rtuDec dir) s = .next t) : RtuDecStep dir s t := by
  simp only [exec, execRtuDec] at h
  split at h
  case h_1 => cases h; exact .hold
  case h_2 hphase =>
    cases h
    split
    case isTrue hecho => exact .startEcho hphase (by bv_omega)
    case isFalse hecho => exact .startUnit hphase (by bv_omega)
  case h_3 hphase =>
    obtain rfl | ⟨b, rest, hrx, h⟩ := withRx_next h
    · exact .hold
    · cases h
      split
      case isTrue hlast => exact .echoEnd b rest hphase hrx hlast
      case isFalse hmore => exact .echo b rest hphase hrx hmore
  case h_4 hphase =>
    obtain rfl | ⟨b, rest, hrx, h⟩ := withRx_next h
    · exact .hold
    · obtain ⟨-, h⟩ := storeByte_next h
      cases h
      exact .unit b rest hphase hrx
  case h_5 hphase =>
    obtain rfl | ⟨b, rest, hrx, h⟩ := withRx_next h
    · exact .hold
    · obtain ⟨-, h⟩ := storeByte_next h
      cases h
      split_ifs with hspec hreq
      · exact .unsupported b rest hphase hrx
      · exact .fc b rest .crcLo hphase hrx hspec (.inr ⟨rfl, hreq⟩)
      · exact .fc b rest .body hphase hrx hspec (.inl rfl)
  case h_6 hphase =>
    obtain rfl | ⟨b, rest, hrx, h⟩ := withRx_next h
    · exact .hold
    · split at h
      case isTrue => cases h; exact .overflow b rest hphase hrx
      case isFalse hroom =>
        obtain ⟨hidx, h⟩ := storeByte_next h
        split at h
        case h_1 => contradiction
        case h_2 spec hg =>
          obtain ⟨payload, hpayload, h⟩ := withBytes_next h
          cases h
          split_ifs with hreq
          · exact .byte b rest spec payload .crcLo hphase hrx hroom hidx hg hpayload (.inr ⟨rfl, hreq⟩)
          · exact hphase ▸ .byte b rest spec payload .body hphase hrx hroom hidx hg hpayload (.inl rfl)
  case h_7 hphase =>
    obtain rfl | ⟨b, rest, hrx, h⟩ := withRx_next h
    · exact .hold
    · cases h; exact .crcLo b rest hphase hrx
  case h_8 hphase =>
    obtain rfl | ⟨b, rest, hrx, h⟩ := withRx_next h
    · exact .hold
    · cases h
      split
      case isTrue hcrc => exact .good b rest hphase hrx hcrc
      case isFalse => exact .mismatch b rest hphase hrx
  case h_9 => contradiction

section Keep
variable {dir : Dir} {s t : State}

theorem RtuDecStep.blockStep (h : RtuDecStep dir s t) : BlockStep s t := by
  obtain ⟨-, -, hunsupported, hoverflow, hmismatch, -⟩ := failCodes_ne_none
  cases h with
  | hold => exact .hold s
  | startEcho h | startUnit h => exact ⟨rfl, .goesOn rfl rfl rfl rfl (by simp [h]), .inl rfl, List.suffix_rfl, id⟩
  | echo b rest h hrx => exact ⟨rfl, .goesOn rfl rfl rfl rfl Iff.rfl, .inl rfl, suffix_of_rx hrx, id⟩
  | echoEnd b rest h hrx | crcLo b rest h hrx =>
    exact ⟨rfl, .goesOn rfl rfl rfl rfl (by simp [h]), .inl rfl, suffix_of_rx hrx, id⟩
  | unit b rest h hrx =>
    exact ⟨rfl, .goesOn rfl rfl rfl rfl (by simp [h]), .inl rfl, suffix_of_rx hrx,
      fun hwf => Memory.write_wf b hwf (by decide)⟩
  | unsupported b rest h hrx =>
    exact ⟨rfl, .fails rfl rfl rfl hunsupported rfl, .inl rfl, List.nil_suffix,
      fun hwf => Memory.write_wf b hwf (by decide)⟩
  | fc b rest p h hrx hspec hp =>
    have hidle : p ≠ .idle := by rcases hp with rfl | ⟨rfl, -⟩ <;> decide
    exact ⟨rfl, .goesOn rfl rfl rfl rfl (by simp [h, hidle]), .inl rfl, suffix_of_rx hrx,
      fun hwf => Memory.write_wf b hwf (by decide)⟩
  | overflow b rest h hrx => exact ⟨rfl, .fails rfl rfl rfl hoverflow rfl, .inl rfl, List.nil_suffix, id⟩
  | byte b rest spec payload p h hrx hroom hidx hg hpayload hp =>
    have hidle : p ≠ .idle := by rcases hp with rfl | ⟨rfl, -⟩ <;> decide
    exact ⟨rfl, .goesOn rfl rfl rfl rfl (by simp [h, hidle]), .inl rfl, suffix_of_rx hrx,
      fun hwf => Memory.write_wf b hwf hidx⟩
  | good b rest h hrx => exact ⟨rfl, .completes rfl rfl rfl rfl rfl, .inl rfl, suffix_of_rx hrx, id⟩
  | mismatch b rest h hrx => exact ⟨rfl, .fails rfl rfl rfl hmismatch rfl, .inl rfl, List.nil_suffix, id⟩

/-- What RTU.DEC leaves alone. -/
theorem RtuDecStep.frame (h : RtuDecStep dir s t) :
    t = { s with
      rx := t.rx, rxCount := t.rxCount, echoPend := t.echoPend, crc := t.crc, rxCrc := t.rxCrc, idx := t.idx,
      flen := t.flen, g := t.g, fbuf := t.fbuf, busy := t.busy, done := t.done, err := t.err, errCode := t.errCode,
      phase := t.phase } ∧
    ∀ k, (s.phase = .unit → k ≠ 0) → (s.phase = .fc → k ≠ 1) → (s.phase = .body → k ≠ s.idx.toNat) →
      Memory.read t.fbuf k = Memory.read s.fbuf k := by
  cases h with
  | unit b rest h => exact ⟨rfl, fun k hunit _ _ => Memory.read_write_other (hunit h)⟩
  | unsupported b rest h | fc b rest p h => exact ⟨rfl, fun k _ hfc _ => Memory.read_write_other (hfc h)⟩
  | byte b rest spec payload p h => exact ⟨rfl, fun k _ _ hbody => Memory.read_write_other (hbody h)⟩
  | hold | startEcho | startUnit | echo | echoEnd | overflow | crcLo | good | mismatch =>
    exact ⟨rfl, fun _ _ _ _ => rfl⟩

end Keep

/-- Settles O34: by the steps that each command can take. -/
theorem rtuCommandsFrame : Obligations.RtuCommandsFrame := fun _ _ =>
  ⟨rtuEnc_frame, fun _ h => (exec_rtuDec_next h).frame⟩

/-! ## What it hands on -/

section HandsOn
variable {dir : Dir} {s t : State}

/-- Past INIT FLEN is 0 until the command completes (R173). -/
theorem SeqOk.flen_of_rtuDec (h : SeqOk (.rtuDec dir) s) (hinit : s.phase ≠ .init) : s.flen = 0#9 :=
  (h.resolve_left hinit).1

/-- From the payload on FBUF holds the core so far, whose CRC is in CRC; after BODY the payload has its required
length. -/
theorem SeqOk.core_of_rtuDec (h : SeqOk (.rtuDec dir) s)
    (hphase : s.phase = .body ∨ s.phase = .crcLo ∨ s.phase = .crcHi) :
    s.flen = 0#9 ∧ s.echoPend = 0#16 ∧ coreLenOk s.idx.toNat = true ∧ ∃ u fc payload,
      Holds s s.idx.toNat (u :: fc :: payload) ∧ s.crc = crc16 (u :: fc :: payload) ∧
      lookupLen s.lenTable dir fc ≠ .unsupported ∧ s.g = some (lookupLen s.lenTable dir fc) ∧
      (s.phase ≠ .body → requiredLen (lookupLen s.lenTable dir fc) payload = some payload.length) := by
  have hne (p : Phase) (hp : p ∉ [Phase.body, .crcLo, .crcHi]) : s.phase ≠ p := by
    rintro rfl
    simp only [List.mem_cons, List.not_mem_nil, or_false] at hp
    exact hp hphase
  obtain ⟨hflen, hecho | hunit | hfc | ⟨-, hcore⟩⟩ := h.resolve_left (hne .init (by decide))
  · exact absurd hecho.1 (hne .echo (by decide))
  · exact absurd hunit.1 (hne .unit (by decide))
  · exact absurd hfc.1 (hne .fc (by decide))
  · exact ⟨hflen, hcore⟩

/-- Settles O31: only a right CRC completes, after a payload of its required length; no other step past INIT sets
FLEN. -/
theorem rtuDecHandsOnOnlyGoodFrames : Obligations.RtuDecHandsOnOnlyGoodFrames := by
  intro dir s t hinv hfetch h
  have hseq := hinv.seqOk_of_fetch hfetch
  obtain ⟨hdone, herr, -⟩ := hinv.quiet_of_fetch hfetch
  have hfalse {P : Prop} {b : Bool} (hb : b = false) (ht : b = true) : P := absurd (hb.symm.trans ht) (by decide)
  cases exec_rtuDec_next h with
  | hold | startEcho | startUnit | echo | echoEnd | unit | fc | byte | crcLo => exact ⟨hfalse hdone, hfalse herr⟩
  | unsupported b rest hphase | overflow b rest hphase | mismatch b rest hphase =>
    exact ⟨hfalse hdone, fun _ => hseq.flen_of_rtuDec (by simp [hphase])⟩
  | good b rest hphase hrx hcrc =>
    obtain ⟨-, -, hlen, u, fc, payload, hcore, hsum, -, -, hreq⟩ := hseq.core_of_rtuDec (.inr (.inr hphase))
    exact ⟨fun _ => ⟨u, fc, payload, hcore, hlen, hsum, hcrc, hreq (by simp [hphase])⟩, hfalse herr⟩

end HandsOn

/-! ## The whole frame -/

/-- A decoder whose ECHO step drops one byte drops all pending echo bytes and goes on to `p` (R172). -/
theorem execN_echo {i : Instr} {p : Phase}
    (hstep : ∀ (s : State) (b : Byte) (rest : List Byte), s.rx = b :: rest → s.phase = .echo →
      exec i s = .next { s with
        rx := rest, rxCount := satAdd s.rxCount 1, echoPend := s.echoPend - 1#16,
        phase := if s.echoPend = 1#16 then p else .echo })
    {echo rest : List Byte} {s : State} (hphase : s.phase = if 0 < s.echoPend.toNat then .echo else p)
    (hlen : echo.length = s.echoPend.toNat) (hrx : s.rx = echo ++ rest) :
    execN i echo.length s = .next { s with
      rx := rest, rxCount := satAdd s.rxCount echo.length, echoPend := 0#16, phase := p } := by
  induction echo generalizing s with
  | nil =>
    have hzero : s.echoPend = 0#16 := BitVec.eq_of_toNat_eq hlen.symm
    rw [hzero, if_neg (by decide)] at hphase
    rw [List.length_nil, satAdd_zero, ← hphase, ← hzero, ← (show s.rx = rest from hrx)]
    rfl
  | cons b echo ih =>
    rw [List.length_cons] at hlen
    rw [if_pos (by omega)] at hphase
    refine execN_step (hstep s b (echo ++ rest) hrx hphase) ?_
    have hlen' : echo.length = (s.echoPend - 1#16).toNat := by bv_omega
    have hphase' : (if s.echoPend = 1#16 then p else .echo) = if 0 < (s.echoPend - 1#16).toNat then .echo else p := by
      by_cases hone : s.echoPend = 1#16
      · rw [if_pos hone, if_neg (by bv_omega)]
      · rw [if_neg hone, if_pos (by bv_omega)]
    refine Eq.trans (ih hphase' hlen' rfl) ?_
    simp only [satAdd_satAdd, List.length_cons, Nat.add_comm 1]

/-- RTU.DEC, started in `s`, between two bytes of the core: `n` bytes popped and `rx` to come, IDX = `k`. -/
def rtuDecAt (s : State) (n : Nat) (rx : List Byte) (crc : Half) (k : Nat) (m : Memory) (g : Option LenSpec)
    (p : Phase) : State :=
  { s with
    flen := 0#9, echoPend := 0#16, rx := rx, rxCount := satAdd s.rxCount n, crc := crc, idx := BitVec.ofNat 9 k,
    fbuf := m, g := g, phase := p }

section Whole
variable {dir : Dir} {s : State} {n k : Nat} {b : Byte} {rx : List Byte} {crc : Half} {m : Memory} {g : Option LenSpec}

/-- INIT and the pending echo (R172). -/
theorem execN_rtuDec_start {echo rest : List Byte} (h : s.phase = .init) (hlen : echo.length = s.echoPend.toNat)
    (hrx : s.rx = echo ++ rest) :
    execN (.rtuDec dir) (echo.length + 1) s =
      .next (rtuDecAt s echo.length rest crcInitValue 0 s.fbuf s.g .unit) :=
  execN_step (exec_rtuDec_init dir h) (execN_echo (fun _ _ _ hrx => exec_rtuDec_echo dir hrx) rfl hlen hrx)

theorem exec_rtuDecAt_unit : exec (.rtuDec dir) (rtuDecAt s n (b :: rx) crc k m g .unit) =
    .next (rtuDecAt s (n + 1) rx (crcStep crc b) 1 (Memory.write m 0 b) g .fc) := by
  refine (exec_rtuDec_unit dir rfl rfl).trans (congrArg Host.Outcome.next ?_)
  simp only [rtuDecAt, satAdd_satAdd]

theorem exec_rtuDecAt_fc (hspec : lookupLen s.lenTable dir b ≠ .unsupported) :
    exec (.rtuDec dir) (rtuDecAt s n (b :: rx) crc k m g .fc) =
      .next (rtuDecAt s (n + 1) rx (crcStep crc b) 2 (Memory.write m 1 b) (some (lookupLen s.lenTable dir b))
        (if requiredLen (lookupLen s.lenTable dir b) [] = some 0 then .crcLo else .body)) := by
  refine (exec_rtuDec_fc_supported (s := rtuDecAt s n (b :: rx) crc k m g .fc) dir rfl rfl hspec).trans
    (congrArg Host.Outcome.next ?_)
  simp only [rtuDecAt, satAdd_satAdd]
  rfl

theorem exec_rtuDecAt_body {spec : LenSpec} {payload : List Byte} (hk : k + 2 < 254)
    (hpayload : Memory.slice m 2 k = .ok payload) :
    exec (.rtuDec dir) (rtuDecAt s n (b :: rx) crc (k + 2) m (some spec) .body) =
      .next (rtuDecAt s (n + 1) rx (crcStep crc b) (k + 3) (Memory.write m (k + 2) b) (some spec)
        (if requiredLen spec (payload ++ [b]) = some (payload ++ [b]).length then .crcLo else .body)) := by
  have hidx : (BitVec.ofNat 9 (k + 2)).toNat = k + 2 := Nat.mod_eq_of_lt (by omega)
  have hsucc : BitVec.ofNat 9 (k + 2) + 1#9 = BitVec.ofNat 9 (k + 3) := by bv_omega
  refine (exec_rtuDec_body_byte (s := rtuDecAt s n (b :: rx) crc (k + 2) m (some spec) .body) (payload := payload) dir rfl
    rfl ?_ ?_ rfl ?_).trans (congrArg Host.Outcome.next ?_)
  · exact hidx.symm.subst (motive := (2 ≤ ·)) (Nat.le_add_left 2 k)
  · exact hidx.symm.subst (motive := (· < 254)) hk
  · simpa only [rtuDecAt, hidx, Nat.add_sub_cancel] using hpayload
  · simp only [rtuDecAt, satAdd_satAdd, hidx, hsucc]

/-- The payload bytes that are left, up to the required length. -/
theorem execN_rtuDecAt_body {spec : LenSpec} {left rest : List Byte} {before : List Byte} {n : Nat} {crc : Half} {m : Memory}
    (hleft : left ≠ []) (hreq : requiredLen spec (before ++ left) = some (before ++ left).length)
    (hmax : (before ++ left).length + 2 ≤ 254) (hbefore : Memory.slice m 2 before.length = .ok before) :
    execN (.rtuDec dir) left.length (rtuDecAt s n (left ++ rest) crc (before.length + 2) m (some spec) .body) =
      .next (rtuDecAt s (n + left.length) rest (left.foldl crcStep crc) ((before ++ left).length + 2)
        (Memory.writeAll m (before.length + 2) left) (some spec) .crcLo) := by
  induction left generalizing before n crc m with
  | nil => contradiction
  | cons b left ih =>
    rw [List.append_cons] at hreq hmax
    have hlen : (before ++ [b]).length = before.length + 1 := by simp
    have hroom : before.length + 2 < 254 := by
      simp only [List.length_append, hlen] at hmax
      omega
    refine execN_step (exec_rtuDecAt_body hroom hbefore) ?_
    cases left with
    | nil =>
      rw [List.append_nil] at hreq
      rw [if_pos hreq, hlen]
      rfl
    | cons c left =>
      have hnot : requiredLen spec (before ++ [b]) ≠ some (before ++ [b]).length := fun h =>
        List.cons_ne_nil c left (eq_nil_of_requiredLen h hreq)
      have hbefore' : Memory.slice (Memory.write m (before.length + 2) b) 2 (before ++ [b]).length = .ok (before ++ [b]) := by
        rw [hlen, Nat.add_comm before.length 2]
        exact Memory.slice_write_next b hbefore
      have hrun := ih (List.cons_ne_nil c left) hreq hmax hbefore' (n := n + 1) (crc := crcStep crc b)
      rw [hlen] at hrun
      rw [if_neg hnot, List.append_cons before b, List.length_cons (as := c :: left),
        show n + ((c :: left).length + 1) = n + 1 + (c :: left).length by omega]
      exact hrun

/-- The two CRC bytes of a good frame (R183). -/
theorem execN_rtuDecAt_crc {rest : List Byte} :
    execN (.rtuDec dir) 2 (rtuDecAt s n (loByte crc :: hiByte crc :: rest) crc k m g .crcLo) = .next { s with
      crc := crc, rxCrc := crc, echoPend := 0#16, idx := BitVec.ofNat 9 k, flen := BitVec.ofNat 9 k, g := g, fbuf := m,
      rx := rest, rxCount := satAdd s.rxCount (n + 2), busy := false, done := true, phase := .idle } := by
  refine execN_step (exec_rtuDec_crcLo dir rfl rfl) (execN_step (exec_rtuDec_crcHi_match dir rfl rfl ?_) ?_)
  · exact loByte_append _ _ ▸ hiByte_append_loByte crc
  · simp only [execN, rtuDecAt, satAdd_satAdd, loByte_append, hiByte_append_loByte]

/-- The payload, which may be empty, after its function code. -/
theorem execN_rtuDecAt_payload {spec : LenSpec} {payload rest : List Byte}
    (hreq : requiredLen spec payload = some payload.length) (hmax : payload.length + 2 ≤ 254) :
    execN (.rtuDec dir) payload.length (rtuDecAt s n (payload ++ rest) crc 2 m (some spec)
        (if requiredLen spec [] = some 0 then .crcLo else .body)) =
      .next (rtuDecAt s (n + payload.length) rest (payload.foldl crcStep crc) (payload.length + 2)
        (Memory.writeAll m 2 payload) (some spec) .crcLo) := by
  cases payload with
  | nil =>
    rw [if_pos (show requiredLen spec [] = some 0 from hreq)]
    rfl
  | cons b payload =>
    have hnot : requiredLen spec [] ≠ some 0 := fun h =>
      List.cons_ne_nil b payload (eq_nil_of_requiredLen (body := []) h hreq)
    rw [if_neg hnot]
    exact execN_rtuDecAt_body (before := []) (List.cons_ne_nil b payload) hreq hmax rfl

/-- A frame from its unit id on. -/
theorem execN_rtuDecAt_frame {unit fc : Byte} {payload rest : List Byte} (hspec : lookupLen s.lenTable dir fc ≠ .unsupported)
    (hreq : requiredLen (lookupLen s.lenTable dir fc) payload = some payload.length) (hmax : payload.length + 2 ≤ 254) :
    execN (.rtuDec dir) (payload.length + 2 + 2)
        (rtuDecAt s n (rtuFrame (unit :: fc :: payload) ++ rest) crcInitValue 0 m g .unit) = .next { s with
      crc := crc16 (unit :: fc :: payload), rxCrc := crc16 (unit :: fc :: payload), echoPend := 0#16,
      idx := BitVec.ofNat 9 (payload.length + 2), flen := BitVec.ofNat 9 (payload.length + 2),
      g := some (lookupLen s.lenTable dir fc), fbuf := Memory.writeAll m 0 (unit :: fc :: payload), rx := rest,
      rxCount := satAdd s.rxCount (n + (payload.length + 2) + 2), busy := false, done := true, phase := .idle } := by
  rw [rtuFrame, List.append_assoc, Nat.add_right_comm payload.length 2 2]
  refine execN_step exec_rtuDecAt_unit (execN_step (exec_rtuDecAt_fc hspec) ?_)
  refine (execN_add (execN_rtuDecAt_payload hreq hmax)).trans ?_
  refine (execN_rtuDecAt_crc (crc := crc16 (unit :: fc :: payload))).trans ?_
  rw [show n + 1 + 1 + payload.length + 2 = n + (payload.length + 2) + 2 by omega]
  rfl

end Whole

/-- Settles O30: INIT and the echo, then the frame from its unit id on. -/
theorem rtuDecReceivesTheFrame : Obligations.RtuDecReceivesTheFrame := by
  intro dir s echo unit fc payload rest h hlen hrx hspec hreq hmax
  rw [List.append_assoc] at hrx
  have hrun := (execN_add (execN_rtuDec_start h hlen hrx)).trans (execN_rtuDecAt_frame hspec hreq hmax)
  rw [show 1 + echo.length + (payload.length + 2) + 2 = echo.length + 1 + (payload.length + 2 + 2) by omega]
  refine ⟨_, hrun, Memory.slice_writeAll s.fbuf 0 (unit :: fc :: payload), fun k hk =>
    Memory.read_writeAll_outside (.inr ?_), rfl⟩
  simp only [List.length_cons]
  omega

end Sys2Proof.Machine
end

