-- ==== Sys2Proof/Proofs/AsciiEnc.lean ====
section
/-! ASCII.ENC step by step and as a whole (spec/43_ascii.md R210 to R212). -/

namespace Sys2Proof.Machine

/-! ## The steps -/

section Steps
variable {s : State}

theorem exec_asciiEnc_refuse (h : s.phase = .init) (hlen : coreLenOk s.flen.toNat = false) :
    exec .asciiEnc s = .next (fail .length s) := by
  simp only [exec, execAsciiEnc, h, hlen, Bool.false_eq_true, if_false]

theorem exec_asciiEnc_start (h : s.phase = .init) (hlen : coreLenOk s.flen.toNat = true) :
    exec .asciiEnc s = .next { s with lrcAcc := 0x00#8, idx := 0#9, phase := .colon } := by
  simp only [exec, execAsciiEnc, h, hlen, if_true]

theorem exec_asciiEnc_full (h : s.phase ∈ [.colon, .hi, .lo, .lrcHi, .lrcLo, .cr, .lf])
    (hfull : s.txDepth ≤ s.txFifo.length) : exec .asciiEnc s = .next s := by
  simp only [List.mem_cons, List.not_mem_nil, or_false] at h
  rcases h with h | h | h | h | h | h | h <;> simp only [exec, execAsciiEnc, h, pushChar, withTx_full hfull]

/-- The character that a phase sends which reads no FBUF byte, and the phase after it. -/
def CharStep (s : State) (c : Byte) (next : Phase) : Prop :=
  s.phase = .colon ∧ c = 0x3A#8 ∧ next = .hi ∨
  s.phase = .lrcHi ∧ c = hexU ((lrcReg s).extractLsb' 4 4) ∧ next = .lrcLo ∨
  s.phase = .lrcLo ∧ c = hexU ((lrcReg s).extractLsb' 0 4) ∧ next = .cr ∨
  s.phase = .cr ∧ c = 0x0D#8 ∧ next = .lf

variable (hroom : s.txFifo.length < s.txDepth)
include hroom

theorem exec_asciiEnc_char {c : Byte} {next : Phase} (h : CharStep s c next) :
    exec .asciiEnc s = .next { s with
      txFifo := s.txFifo ++ [c], txCount := satAdd s.txCount 1, echoPend := echoAfter s.lEcho s.echoPend 1,
      phase := next } := by
  rcases h with ⟨h, rfl, rfl⟩ | ⟨h, rfl, rfl⟩ | ⟨h, rfl, rfl⟩ | ⟨h, rfl, rfl⟩ <;>
    simp only [exec, execAsciiEnc, h, pushChar, withTx_room hroom, txPushSerial, txPush, echoAfter, chColon, chCR,
      hiNibble, loNibble]

theorem exec_asciiEnc_hi {b : Byte} (h : s.phase = .hi) (hidx : s.idx.toNat < 256)
    (hb : Memory.read s.fbuf s.idx.toNat = some b) :
    exec .asciiEnc s = .next { s with
      txFifo := s.txFifo ++ [hexU (hiNibble b)], txCount := satAdd s.txCount 1,
      echoPend := echoAfter s.lEcho s.echoPend 1, phase := .lo } := by
  simp only [exec, execAsciiEnc, h, withTx_room hroom, withByte_some hb hidx, txPushSerial, txPush, echoAfter]

theorem exec_asciiEnc_lo {b : Byte} (h : s.phase = .lo) (hidx : s.idx.toNat < 256)
    (hb : Memory.read s.fbuf s.idx.toNat = some b) :
    exec .asciiEnc s = .next { s with
      txFifo := s.txFifo ++ [hexU (loNibble b)], txCount := satAdd s.txCount 1,
      echoPend := echoAfter s.lEcho s.echoPend 1, lrcAcc := s.lrcAcc + b, idx := s.idx + 1#9,
      phase := if (s.idx + 1#9).toNat < s.flen.toNat then .hi else .lrcHi } := by
  simp only [exec, execAsciiEnc, h, withTx_room hroom, withByte_some hb hidx, txPushSerial, txPush, echoAfter]
  rfl

theorem exec_asciiEnc_unwritten (h : s.phase = .hi ∨ s.phase = .lo) (hidx : s.idx.toNat < 256)
    (hb : Memory.read s.fbuf s.idx.toNat = none) : exec .asciiEnc s = .fault (.fbufUnwritten s.idx.toNat) := by
  rcases h with h | h <;>
    simp only [exec, execAsciiEnc, h, withTx_room hroom, withByte, Config.fbufSize, if_pos hidx, hb]

theorem exec_asciiEnc_lf (h : s.phase = .lf) :
    exec .asciiEnc s = .next { s with
      txFifo := s.txFifo ++ [0x0A#8], txCount := satAdd s.txCount 1, echoPend := echoAfter s.lEcho s.echoPend 1,
      busy := false, done := true, phase := .idle } := by
  simp only [exec, execAsciiEnc, h, withTx_room hroom, txPushSerial, txPush, complete, echoAfter, chLF]

end Steps

/-- Settles O36: the two outcomes of INIT, the steps that read no FBUF byte, the two digits of a core byte, the fault,
and the end. -/
theorem asciiEncSteps : Obligations.AsciiEncSteps :=
  ⟨rfl, fun _ =>
    ⟨fun h hlen => exec_asciiEnc_refuse h (coreLenOk_false hlen),
     fun h hlo hhi => exec_asciiEnc_start h ((coreLenOk_iff _).mpr ⟨hlo, hhi⟩),
     fun _ _ hroom h => exec_asciiEnc_char hroom h,
     fun _ h hroom hidx hb => exec_asciiEnc_hi hroom h hidx hb,
     fun _ h hroom hidx hb => exec_asciiEnc_lo hroom h hidx hb,
     fun h hroom hidx hb => exec_asciiEnc_unwritten hroom h hidx hb,
     fun h hroom => exec_asciiEnc_lf hroom h⟩⟩

/-! ## The characters of a frame -/

/-- Byte `k` is digits 2k and 2k + 1. -/
theorem hexPairs_getElem? {bs : List Byte} {k : Nat} {b : Byte} (hb : bs[k]? = some b) :
    (bs.flatMap hexPair)[2 * k]? = some (hexU (hiNibble b)) ∧
    (bs.flatMap hexPair)[2 * k + 1]? = some (hexU (loNibble b)) := by
  induction bs generalizing k with
  | nil => contradiction
  | cons c bs ih =>
    cases k with
    | zero =>
      obtain rfl : c = b := by simpa using hb
      exact ⟨rfl, rfl⟩
    | succ k => exact ih (k := k) (by simpa using hb)

theorem hexPairs_length (bs : List Byte) : (bs.flatMap hexPair).length = 2 * bs.length := by
  induction bs with
  | nil => rfl
  | cons b bs ih =>
    rw [List.flatMap_cons, List.length_append, ih, List.length_cons]
    simp only [hexPair, List.length_cons, List.length_nil]
    omega

section Chars
variable {core : List Byte} {k : Nat} {b : Byte}

theorem asciiFrame_length : (asciiFrame core).length = 2 * core.length + 5 := by
  simp only [asciiFrame, List.length_cons, List.length_append, hexPairs_length, List.length_nil]
  omega

/-- The digits of a core byte or of the LRC. -/
theorem asciiFrame_digits (hb : (core ++ [lrc core])[k]? = some b) :
    (asciiFrame core)[2 * k + 1]? = some (hexU (hiNibble b)) ∧
    (asciiFrame core)[2 * k + 2]? = some (hexU (loNibble b)) := by
  have hk := (List.getElem?_eq_some_iff.mp hb).1
  have hlen := hexPairs_length (core ++ [lrc core])
  obtain ⟨h0, h1⟩ := hexPairs_getElem? hb
  rw [asciiFrame, List.getElem?_cons_succ, List.getElem?_cons_succ, List.getElem?_append_left (by omega),
    List.getElem?_append_left (by omega)]
  exact ⟨h0, h1⟩

/-- The two characters after the digits. -/
theorem asciiFrame_ends : (asciiFrame core)[2 * core.length + 3]? = some chCR ∧
    (asciiFrame core)[2 * core.length + 4]? = some chLF := by
  have hlen : ((core ++ [lrc core]).flatMap hexPair).length = 2 * core.length + 2 := by
    rw [hexPairs_length, List.length_append]
    rfl
  rw [asciiFrame, List.getElem?_cons_succ, List.getElem?_cons_succ, List.getElem?_append_right (by omega),
    List.getElem?_append_right (by omega), hlen, Nat.sub_self,
    show 2 * core.length + 3 - (2 * core.length + 2) = 1 by omega]
  exact ⟨rfl, rfl⟩

end Chars

/-! ## The whole frame -/

/-- ASCII.ENC after `n` characters, in phase `p`. -/
def asciiEncAt (s : State) (n : Nat) (idx : BitVec 9) (acc : Byte) (p : Phase) : State :=
  { s with
    txCount := satAdd s.txCount n, echoPend := echoAfter s.lEcho s.echoPend n, idx := idx, lrcAcc := acc, phase := p }

/-- ASCII.ENC after `n` characters of the frame. -/
def asciiEncShape (s : State) (core : List Byte) (n : Nat) : State :=
  if n = 0 then asciiEncAt s n 0#9 0x00#8 .colon
  else if n ≤ 2 * core.length then
    asciiEncAt s n (BitVec.ofNat 9 ((n - 1) / 2)) (byteSum (core.take ((n - 1) / 2))) (if n % 2 = 1 then .hi else .lo)
  else if n = 2 * core.length + 1 then asciiEncAt s n s.flen (byteSum core) .lrcHi
  else if n = 2 * core.length + 2 then asciiEncAt s n s.flen (byteSum core) .lrcLo
  else if n = 2 * core.length + 3 then asciiEncAt s n s.flen (byteSum core) .cr
  else if n = 2 * core.length + 4 then asciiEncAt s n s.flen (byteSum core) .lf
  else complete (asciiEncAt s n s.flen (byteSum core) .idle)

section Shape
variable {s : State} {core : List Byte}

theorem asciiEncShape_colon : asciiEncShape s core 0 = asciiEncAt s 0 0#9 0x00#8 .colon := rfl

theorem asciiEncShape_hi {k : Nat} (hk : k < core.length) : asciiEncShape s core (2 * k + 1) =
    asciiEncAt s (2 * k + 1) (BitVec.ofNat 9 k) (byteSum (core.take k)) .hi := by
  simp only [asciiEncShape, if_neg (show ¬ 2 * k + 1 = 0 by omega), if_pos (show 2 * k + 1 ≤ 2 * core.length by omega),
    show (2 * k + 1 - 1) / 2 = k by omega, if_pos (show (2 * k + 1) % 2 = 1 by omega)]

theorem asciiEncShape_lo {k : Nat} (hk : k < core.length) : asciiEncShape s core (2 * k + 2) =
    asciiEncAt s (2 * k + 2) (BitVec.ofNat 9 k) (byteSum (core.take k)) .lo := by
  simp only [asciiEncShape, if_neg (show ¬ 2 * k + 2 = 0 by omega), if_pos (show 2 * k + 2 ≤ 2 * core.length by omega),
    show (2 * k + 2 - 1) / 2 = k by omega, if_neg (show ¬ (2 * k + 2) % 2 = 1 by omega)]

theorem asciiEncShape_lrcHi : asciiEncShape s core (2 * core.length + 1) =
    asciiEncAt s (2 * core.length + 1) s.flen (byteSum core) .lrcHi := by
  simp [asciiEncShape]

theorem asciiEncShape_lrcLo : asciiEncShape s core (2 * core.length + 2) =
    asciiEncAt s (2 * core.length + 2) s.flen (byteSum core) .lrcLo := by
  simp [asciiEncShape]

theorem asciiEncShape_cr : asciiEncShape s core (2 * core.length + 3) =
    asciiEncAt s (2 * core.length + 3) s.flen (byteSum core) .cr := by
  simp [asciiEncShape]

theorem asciiEncShape_lf : asciiEncShape s core (2 * core.length + 4) =
    asciiEncAt s (2 * core.length + 4) s.flen (byteSum core) .lf := by
  simp [asciiEncShape]

theorem asciiEncShape_end : asciiEncShape s core (2 * core.length + 5) =
    complete (asciiEncAt s (2 * core.length + 5) s.flen (byteSum core) .idle) := by
  simp [asciiEncShape]

/-- Before its end ASCII.ENC stands at the colon, at a digit of a core byte or of the LRC, at CR or at LF. -/
theorem asciiEncShape_cases {n : Nat} (hn : n < 2 * core.length + 5) :
    n = 0 ∨ (∃ k, k < core.length ∧ n = 2 * k + 1) ∨ (∃ k, k < core.length ∧ n = 2 * k + 2) ∨
    n = 2 * core.length + 1 ∨ n = 2 * core.length + 2 ∨ n = 2 * core.length + 3 ∨ n = 2 * core.length + 4 := by
  by_cases h0 : n = 0
  · exact .inl h0
  · by_cases hdigit : n ≤ 2 * core.length
    · rcases Nat.mod_two_eq_zero_or_one n with hn2 | hn2
      · exact .inr (.inr (.inl ⟨(n - 1) / 2, by omega, by omega⟩))
      · exact .inr (.inl ⟨(n - 1) / 2, by omega, by omega⟩)
    · omega

/-- Before its end ASCII.ENC is in one of its sending phases, and busy. -/
theorem asciiEncShape_sending {n : Nat} (hn : n < 2 * core.length + 5) :
    (asciiEncShape s core n).phase ∈ [.colon, .hi, .lo, .lrcHi, .lrcLo, .cr, .lf] ∧
    (asciiEncShape s core n).busy = s.busy := by
  rcases asciiEncShape_cases hn with rfl | ⟨k, hk, rfl⟩ | ⟨k, hk, rfl⟩ | rfl | rfl | rfl | rfl
  · exact ⟨by simp [asciiEncShape_colon, asciiEncAt], rfl⟩
  · simp [asciiEncShape_hi hk, asciiEncAt]
  · simp [asciiEncShape_lo hk, asciiEncAt]
  · simp [asciiEncShape_lrcHi, asciiEncAt]
  · simp [asciiEncShape_lrcLo, asciiEncAt]
  · simp [asciiEncShape_cr, asciiEncAt]
  · simp [asciiEncShape_lf, asciiEncAt]

theorem asciiEncShape_kept (n : Nat) :
    latchedWord (asciiEncShape s core n) = latchedWord s ∧ (asciiEncShape s core n).err = s.err ∧
    (asciiEncShape s core n).txDepth = s.txDepth ∧ (asciiEncShape s core n).txCount = satAdd s.txCount n := by
  unfold asciiEncShape
  split_ifs <;> exact ⟨rfl, rfl, rfl, rfl⟩

/-- After the second digit of a core byte comes the first digit of the next one, or of the LRC. -/
theorem asciiEncShape_afterByte (hflen : s.flen.toNat = core.length) (hhi : core.length ≤ 254) {k : Nat}
    (hk : k < core.length) : asciiEncShape s core (2 * k + 2 + 1) =
    asciiEncAt s (2 * k + 2 + 1) (BitVec.ofNat 9 k + 1#9) (byteSum (core.take k) + core[k])
      (if (BitVec.ofNat 9 k + 1#9).toNat < s.flen.toNat then .hi else .lrcHi) := by
  have hidx : (BitVec.ofNat 9 k + 1#9).toNat = k + 1 := by
    rw [← BitVec.ofNat_add]
    exact Nat.mod_eq_of_lt (by omega)
  have hsum : byteSum (core.take (k + 1)) = byteSum (core.take k) + core[k] := by
    rw [List.take_add_one, List.getElem?_eq_getElem hk, Option.toList, byteSum_snoc]
  rw [hidx, hflen, ← hsum]
  by_cases hnext : k + 1 < core.length
  · rw [if_pos hnext, show 2 * k + 2 + 1 = 2 * (k + 1) + 1 by omega, asciiEncShape_hi hnext, BitVec.ofNat_add]
  · obtain hend : core.length = k + 1 := by omega
    have hflen' : s.flen = BitVec.ofNat 9 k + 1#9 := BitVec.eq_of_toNat_eq (by omega)
    rw [if_neg hnext, show 2 * k + 2 + 1 = 2 * core.length + 1 by omega, asciiEncShape_lrcHi, hflen', ← hend,
      List.take_length]

/-- A character that reads no FBUF byte, sent from one shape to the next. -/
theorem exec_asciiEncAt_char {e : Streams} {n : Nat} {idx : BitVec 9} {acc : Byte} {p next : Phase} {c : Byte}
    (hroom : e.txFifo.length < s.txDepth) (h : CharStep ((asciiEncAt s n idx acc p).withStreams e) c next) :
    exec .asciiEnc ((asciiEncAt s n idx acc p).withStreams e) =
      .next ((asciiEncAt s (n + 1) idx acc next).withStreams (e.push c)) := by
  refine (exec_asciiEnc_char hroom h).trans (congrArg Host.Outcome.next ?_)
  simp only [State.withStreams, Streams.push, asciiEncAt, satAdd_satAdd, echoAfter_succ]

/-- The first digit of a core byte, sent from one shape to the next. -/
theorem exec_asciiEncShape_hi {k : Nat} {e : Streams} (hhi : core.length ≤ 254) (hcore : Holds s core.length core)
    (hk : k < core.length) (hroom : e.txFifo.length < s.txDepth) :
    exec .asciiEnc ((asciiEncShape s core (2 * k + 1)).withStreams e) =
      .next ((asciiEncShape s core (2 * k + 1 + 1)).withStreams (e.push (hexU (hiNibble core[k])))) := by
  have hidx : (BitVec.ofNat 9 k).toNat = k := Nat.mod_eq_of_lt (by omega)
  have hread : Memory.read s.fbuf (BitVec.ofNat 9 k).toNat = some core[k] := by
    rw [hidx]
    exact read_of_holds hcore (List.getElem?_eq_getElem hk)
  rw [asciiEncShape_hi hk, asciiEncShape_lo hk]
  refine (exec_asciiEnc_hi hroom rfl (lt_of_eq_of_lt hidx (by omega)) hread).trans (congrArg Host.Outcome.next ?_)
  simp only [State.withStreams, Streams.push, asciiEncAt, satAdd_satAdd, echoAfter_succ]

/-- The second digit of a core byte, sent from one shape to the next. -/
theorem exec_asciiEncShape_lo {k : Nat} {e : Streams} (hflen : s.flen.toNat = core.length) (hhi : core.length ≤ 254)
    (hcore : Holds s core.length core) (hk : k < core.length) (hroom : e.txFifo.length < s.txDepth) :
    exec .asciiEnc ((asciiEncShape s core (2 * k + 2)).withStreams e) =
      .next ((asciiEncShape s core (2 * k + 2 + 1)).withStreams (e.push (hexU (loNibble core[k])))) := by
  have hidx : (BitVec.ofNat 9 k).toNat = k := Nat.mod_eq_of_lt (by omega)
  have hread : Memory.read s.fbuf (BitVec.ofNat 9 k).toNat = some core[k] := by
    rw [hidx]
    exact read_of_holds hcore (List.getElem?_eq_getElem hk)
  rw [asciiEncShape_lo hk, asciiEncShape_afterByte hflen hhi hk]
  refine (exec_asciiEnc_lo hroom rfl (lt_of_eq_of_lt hidx (by omega)) hread).trans (congrArg Host.Outcome.next ?_)
  simp only [State.withStreams, Streams.push, asciiEncAt, satAdd_satAdd, echoAfter_succ]
  rfl

/-- With the core in FBUF, ASCII.ENC sends its frame. -/
theorem asciiEnc_sendsFrame (h : s.phase = .init) (hflen : s.flen.toNat = core.length) (hlo : 2 ≤ core.length)
    (hhi : core.length ≤ 254) (hcore : Holds s core.length core) :
    SendsFrame .asciiEnc s (asciiFrame core) id (asciiEncShape s core) where
  start e := by
    rw [asciiEncShape_colon, asciiEncAt, satAdd_zero, echoAfter_zero]
    exact exec_asciiEnc_start h ((coreLenOk_iff _).mpr (hflen ▸ ⟨hlo, hhi⟩))
  started_kept e := ⟨rfl, rfl, rfl⟩
  send {n b e} hb hroom := by
    have hn := (List.getElem?_eq_some_iff.mp hb).1
    have hlrc : (core ++ [lrc core])[core.length]? = some (lrc core) := by simp
    have hbyte {k : Nat} (hk : k < core.length) : (core ++ [lrc core])[k]? = some core[k] :=
      (List.getElem?_append_left hk).trans (List.getElem?_eq_getElem hk)
    rw [asciiFrame_length] at hn
    rcases asciiEncShape_cases hn with rfl | ⟨k, hk, rfl⟩ | ⟨k, hk, rfl⟩ | rfl | rfl | rfl | rfl
    · obtain rfl : chColon = b := by simpa [asciiFrame] using hb
      rw [asciiEncShape_colon, asciiEncShape_hi (k := 0) (by omega)]
      exact exec_asciiEncAt_char hroom (.inl ⟨rfl, rfl, rfl⟩)
    · obtain rfl := Option.some.inj (hb.symm.trans (asciiFrame_digits (hbyte hk)).1)
      exact exec_asciiEncShape_hi hhi hcore hk hroom
    · obtain rfl := Option.some.inj (hb.symm.trans (asciiFrame_digits (hbyte hk)).2)
      exact exec_asciiEncShape_lo hflen hhi hcore hk hroom
    · obtain rfl := Option.some.inj (hb.symm.trans (asciiFrame_digits hlrc).1)
      rw [asciiEncShape_lrcHi, asciiEncShape_lrcLo]
      exact exec_asciiEncAt_char hroom (.inr (.inl ⟨rfl, rfl, rfl⟩))
    · obtain rfl := Option.some.inj (hb.symm.trans (asciiFrame_digits hlrc).2)
      rw [asciiEncShape_lrcLo, asciiEncShape_cr]
      exact exec_asciiEncAt_char hroom (.inr (.inr (.inl ⟨rfl, rfl, rfl⟩)))
    · obtain rfl := Option.some.inj (hb.symm.trans asciiFrame_ends.1)
      rw [asciiEncShape_cr, asciiEncShape_lf]
      exact exec_asciiEncAt_char hroom (.inr (.inr (.inr ⟨rfl, rfl, rfl⟩)))
    · obtain rfl := Option.some.inj (hb.symm.trans asciiFrame_ends.2)
      rw [asciiEncShape_lf, asciiEncShape_end]
      refine (exec_asciiEnc_lf hroom rfl).trans (congrArg Host.Outcome.next ?_)
      simp only [State.withStreams, Streams.push, asciiEncAt, complete, satAdd_satAdd, echoAfter_succ, chLF]
  hold {n e} hn hfull := by
    rw [asciiFrame_length] at hn
    exact exec_asciiEnc_full (asciiEncShape_sending hn).1 ((asciiEncShape_kept n).2.2.1.symm ▸ hfull)
  busy {n} hn := by
    rw [asciiFrame_length] at hn
    exact (asciiEncShape_sending hn).2
  ended := by
    rw [asciiFrame_length, asciiEncShape_end]
    exact ⟨rfl, rfl⟩
  kept n := asciiEncShape_kept n

end Shape

/-- Settles O37: the whole frame sent (`SendsFrame.execN_frame`). -/
theorem asciiEncSendsTheFrame : Obligations.AsciiEncSendsTheFrame := by
  intro s core h hflen hlo hhi hcore hroom
  have hrun := (asciiEnc_sendsFrame h hflen hlo hhi hcore).execN_frame (by rwa [asciiFrame_length])
  rwa [asciiFrame_length, asciiEncShape_end] at hrun

/-! ## What a step can be -/

/-- The steps of ASCII.ENC (R211). -/
inductive AsciiEncStep (s : State) : State → Prop
  | hold : AsciiEncStep s s
  | refuse (h : s.phase = .init) : AsciiEncStep s (fail .length s)
  | start (h : s.phase = .init) (hlen : coreLenOk s.flen.toNat = true) :
      AsciiEncStep s { s with lrcAcc := 0x00#8, idx := 0#9, phase := .colon }
  | char (c : Byte) (next : Phase) (h : CharStep s c next) (hroom : s.txFifo.length < s.txDepth) :
      AsciiEncStep s { txPushSerial c s with phase := next }
  | hi (b : Byte) (h : s.phase = .hi) (hroom : s.txFifo.length < s.txDepth)
      (hb : Memory.read s.fbuf s.idx.toNat = some b) :
      AsciiEncStep s { txPushSerial (hexU (hiNibble b)) s with phase := .lo }
  | byte (b : Byte) (h : s.phase = .lo) (hroom : s.txFifo.length < s.txDepth)
      (hb : Memory.read s.fbuf s.idx.toNat = some b) (hidx : (s.idx + 1#9).toNat < s.flen.toNat) :
      AsciiEncStep s { txPushSerial (hexU (loNibble b)) s with lrcAcc := s.lrcAcc + b, idx := s.idx + 1#9, phase := .hi }
  | lastByte (b : Byte) (h : s.phase = .lo) (hroom : s.txFifo.length < s.txDepth)
      (hb : Memory.read s.fbuf s.idx.toNat = some b) (hidx : ¬ (s.idx + 1#9).toNat < s.flen.toNat) :
      AsciiEncStep s
        { txPushSerial (hexU (loNibble b)) s with lrcAcc := s.lrcAcc + b, idx := s.idx + 1#9, phase := .lrcHi }
  | lf (h : s.phase = .lf) (hroom : s.txFifo.length < s.txDepth) : AsciiEncStep s (complete (txPushSerial chLF s))

theorem pushChar_next {s t : State} {c : Byte} {next : Phase} (h : pushChar c next s = .next t) :
    t = s ∨ s.txFifo.length < s.txDepth ∧ t = { txPushSerial c s with phase := next } := by
  refine (withTx_next h).imp_right fun ⟨hroom, h⟩ => ⟨hroom, ?_⟩
  cases h
  rfl

/-- A phase that reads no FBUF byte either waits or sends its character. -/
theorem AsciiEncStep.of_pushChar {s t : State} {c : Byte} {next : Phase} (hc : CharStep s c next)
    (h : pushChar c next s = .next t) : AsciiEncStep s t := by
  obtain rfl | ⟨hroom, rfl⟩ := pushChar_next h
  · exact .hold
  · exact .char c next hc hroom

theorem exec_asciiEnc_next {s t : State} (h : exec .asciiEnc s = .next t) : AsciiEncStep s t := by
  simp only [exec, execAsciiEnc] at h
  split at h
  case h_1 => cases h; exact .hold
  case h_2 hphase =>
    split at h
    case isTrue hlen => cases h; exact .start hphase hlen
    case isFalse => cases h; exact .refuse hphase
  case h_3 hphase => exact .of_pushChar (.inl ⟨hphase, rfl, rfl⟩) h
  case h_4 hphase =>
    obtain rfl | ⟨hroom, h⟩ := withTx_next h
    · exact .hold
    · obtain ⟨b, -, hb, h⟩ := withByte_next h
      cases h
      exact .hi b hphase hroom hb
  case h_5 hphase =>
    obtain rfl | ⟨hroom, h⟩ := withTx_next h
    · exact .hold
    · obtain ⟨b, -, hb, h⟩ := withByte_next h
      cases h
      split
      case isTrue hidx => exact .byte b hphase hroom hb hidx
      case isFalse hidx => exact .lastByte b hphase hroom hb hidx
  case h_6 hphase => exact .of_pushChar (.inr (.inl ⟨hphase, rfl, rfl⟩)) h
  case h_7 hphase => exact .of_pushChar (.inr (.inr (.inl ⟨hphase, rfl, rfl⟩))) h
  case h_8 hphase => exact .of_pushChar (.inr (.inr (.inr ⟨hphase, rfl, rfl⟩))) h
  case h_9 hphase =>
    obtain rfl | ⟨hroom, h⟩ := withTx_next h
    · exact .hold
    · cases h; exact .lf hphase hroom
  case h_10 => contradiction

theorem AsciiEncStep.blockStep {s t : State} (h : AsciiEncStep s t) : BlockStep s t := by
  cases h with
  | hold => exact .hold s
  | refuse h => exact ⟨rfl, .fails rfl rfl rfl failCodes_ne_none.2.1 rfl, .inl rfl, List.suffix_rfl, id⟩
  | start h => exact ⟨rfl, .goesOn rfl rfl rfl rfl (by simp [h]), .inl rfl, List.suffix_rfl, id⟩
  | char c next h hroom =>
    refine ⟨rfl, .goesOn rfl rfl rfl rfl ?_, fifo_push hroom c, List.suffix_rfl, id⟩
    rcases h with ⟨h, -, rfl⟩ | ⟨h, -, rfl⟩ | ⟨h, -, rfl⟩ | ⟨h, -, rfl⟩ <;> simp [h]
  | hi b h hroom => exact ⟨rfl, .goesOn rfl rfl rfl rfl (by simp [h]), fifo_push hroom _, List.suffix_rfl, id⟩
  | byte b h hroom => exact ⟨rfl, .goesOn rfl rfl rfl rfl (by simp [h]), fifo_push hroom _, List.suffix_rfl, id⟩
  | lastByte b h hroom => exact ⟨rfl, .goesOn rfl rfl rfl rfl (by simp [h]), fifo_push hroom _, List.suffix_rfl, id⟩
  | lf h hroom => exact ⟨rfl, .completes rfl rfl rfl rfl rfl, fifo_push hroom _, List.suffix_rfl, id⟩

/-- What ASCII.ENC leaves alone. -/
theorem asciiEnc_frame {s t : State} (h : exec .asciiEnc s = .next t) :
    t = { s with
      lrcAcc := t.lrcAcc, echoPend := t.echoPend, idx := t.idx, txFifo := t.txFifo, txCount := t.txCount, busy := t.busy,
      done := t.done, err := t.err, errCode := t.errCode, phase := t.phase } ∧
    ∀ k, Memory.read t.fbuf k = Memory.read s.fbuf k := by
  cases exec_asciiEnc_next h <;> exact ⟨rfl, fun _ => rfl⟩

end Sys2Proof.Machine
end

