-- ==== Sys2Proof/Proofs/AsciiDecSteps.lean ====
section
/-! The steps of ASCII.DEC inside a frame, what a step can be, and what it hands on (spec/43_ascii.md R213, R216 to
R218). -/

namespace Sys2Proof.Machine

/-! ## The steps inside a frame -/

theorem ne_chColon_of_hexVal {c : Byte} {v : BitVec 4} (h : hexVal c = some v) : c ≠ chColon := by
  rintro rfl
  rw [show hexVal chColon = none by decide] at h
  contradiction

theorem not_isFrameEnd_of_hexVal {c : Byte} {v : BitVec 4} (h : hexVal c = some v) : ¬ isFrameEnd c = true := by
  rw [isFrameEnd_iff]
  rintro (rfl | rfl)
  · rw [show hexVal 0x0D#8 = none by decide] at h
    contradiction
  · rw [show hexVal 0x0A#8 = none by decide] at h
    contradiction

section Steps
variable {s : State} {c b : Byte} {v : BitVec 4} {rest : List Byte}

theorem exec_asciiDec_empty (hrx : s.rx = []) (h : s.phase ∈ [.echo, .hunt, .hi, .lo]) :
    exec .asciiDec s = .next s := by
  simp only [List.mem_cons, List.not_mem_nil, or_false] at h
  rcases h with h | h | h | h <;> simp only [exec, execAsciiDec, h, withRx_nil hrx]

variable (hrx : s.rx = c :: rest)
include hrx

/-- A colon inside a frame skips it and starts a new one (R218). -/
theorem exec_asciiDec_restart (h : s.phase = .hi ∨ s.phase = .lo) (hc : c = chColon) :
    exec .asciiDec s = .next { s with
      rx := rest, rxCount := satAdd s.rxCount 1, skipCnt := satAdd s.skipCnt 1, idx := 0#9, lrcAcc := 0x00#8,
      phase := .hi } := by
  rcases h with h | h <;>
    simp only [exec, execAsciiDec, h, withRx_cons hrx, if_pos hc, restartFrame, skipFrame]

theorem exec_asciiDec_hi_digit (h : s.phase = .hi) (hv : hexVal c = some v) :
    exec .asciiDec s = .next { s with rx := rest, rxCount := satAdd s.rxCount 1, nib := v, phase := .lo } := by
  simp only [exec, execAsciiDec, h, withRx_cons hrx, if_neg (ne_chColon_of_hexVal hv),
    if_neg (not_isFrameEnd_of_hexVal hv), hv]

theorem exec_asciiDec_hi_other (h : s.phase = .hi) (hcolon : c ≠ chColon) (hend : ¬ isFrameEnd c = true)
    (hv : hexVal c = none) :
    exec .asciiDec s = .next { s with
      rx := rest, rxCount := satAdd s.rxCount 1, skipCnt := satAdd s.skipCnt 1, phase := .hunt } := by
  simp only [exec, execAsciiDec, h, withRx_cons hrx, if_neg hcolon, if_neg hend, hv, skipFrame]

theorem exec_asciiDec_hi_accept (h : s.phase = .hi) (hend : isFrameEnd c = true) (hlen : 3 ≤ s.idx.toNat)
    (hidx : s.idx.toNat ≤ 256) (hsum : s.lrcAcc = 0x00#8) (hb : Memory.read s.fbuf (s.idx.toNat - 1) = some b) :
    exec .asciiDec s = .next { s with
      rx := rest, rxCount := satAdd s.rxCount 1, flen := s.idx - 1#9, lrcAcc := s.lrcAcc - b, busy := false,
      done := true, phase := .idle } := by
  simp only [exec, execAsciiDec, h, withRx_cons hrx, if_neg (ne_chColon_of_isFrameEnd hend), if_pos hend,
    if_pos (And.intro hlen hsum), complete]
  exact withByte_some hb (by omega) _

theorem exec_asciiDec_hi_badEnd (h : s.phase = .hi) (hend : isFrameEnd c = true)
    (hbad : ¬ (3 ≤ s.idx.toNat ∧ s.lrcAcc = 0x00#8)) :
    exec .asciiDec s = .next { s with
      rx := rest, rxCount := satAdd s.rxCount 1, skipCnt := satAdd s.skipCnt 1, phase := .hunt } := by
  simp only [exec, execAsciiDec, h, withRx_cons hrx, if_neg (ne_chColon_of_isFrameEnd hend), if_pos hend, if_neg hbad,
    skipFrame]

theorem exec_asciiDec_lo_digit (h : s.phase = .lo) (hv : hexVal c = some v) (hidx : s.idx.toNat < 255) :
    exec .asciiDec s = .next { s with
      rx := rest, rxCount := satAdd s.rxCount 1, fbuf := Memory.write s.fbuf s.idx.toNat (s.nib ++ v),
      idx := s.idx + 1#9, lrcAcc := s.lrcAcc + (s.nib ++ v), phase := .hi } := by
  have hroom : ¬ s.idx.toNat = Config.maxCore + 1 := by rw [Config.maxCore]; omega
  simp only [exec, execAsciiDec, h, withRx_cons hrx, if_neg (ne_chColon_of_hexVal hv), hv, if_neg hroom,
    storeByte_lt (show s.idx.toNat < 256 by omega)]

theorem exec_asciiDec_lo_other (h : s.phase = .lo) (hcolon : c ≠ chColon) (hv : hexVal c = none) :
    exec .asciiDec s = .next { s with
      rx := rest, rxCount := satAdd s.rxCount 1, skipCnt := satAdd s.skipCnt 1, phase := .hunt } := by
  simp only [exec, execAsciiDec, h, withRx_cons hrx, if_neg hcolon, hv, skipFrame]

theorem exec_asciiDec_lo_full (h : s.phase = .lo) (hv : hexVal c = some v) (hidx : s.idx.toNat = 255) :
    exec .asciiDec s = .next { s with
      rx := rest, rxCount := satAdd s.rxCount 1, skipCnt := satAdd s.skipCnt 1, phase := .hunt } := by
  simp only [exec, execAsciiDec, h, withRx_cons hrx, if_neg (ne_chColon_of_hexVal hv), hv,
    if_pos (show s.idx.toNat = Config.maxCore + 1 from hidx), skipFrame]

end Steps

/-- Settles O39: the two digits of a byte and the accepted frame end. -/
theorem asciiDecFrameSteps : Obligations.AsciiDecFrameSteps := fun _ _ _ hrx =>
  ⟨fun _ h hv => exec_asciiDec_hi_digit hrx h hv,
   fun _ h hv hidx => exec_asciiDec_lo_digit hrx h hv hidx,
   fun _ h hend hlen hidx hsum hb => exec_asciiDec_hi_accept hrx h ((isFrameEnd_iff _).mpr hend) hlen hidx hsum hb⟩

/-- Settles O40: a bad frame end, a character that is no digit in either phase, one byte too many, and a colon. -/
theorem asciiDecSkipSteps : Obligations.AsciiDecSkipSteps := by
  intro s c rest hrx
  refine ⟨fun h hend hbad => ?_, fun h hcolon hcr hlf hv => ?_, exec_asciiDec_lo_other hrx, fun v => exec_asciiDec_lo_full hrx,
    exec_asciiDec_restart hrx⟩
  · refine exec_asciiDec_hi_badEnd hrx h ((isFrameEnd_iff c).mpr hend) fun ⟨hlen, hsum⟩ => ?_
    exact hbad.elim (Nat.not_lt.mpr hlen) (absurd hsum)
  · exact exec_asciiDec_hi_other hrx h hcolon (fun hend => ((isFrameEnd_iff c).mp hend).elim hcr hlf) hv

/-! ## What a step can be -/

/-- The steps of ASCII.DEC (R213). -/
inductive AsciiDecStep (s : State) : State → Prop
  | hold : AsciiDecStep s s
  | startEcho (h : s.phase = .init) (hecho : s.echoPend ≠ 0#16) : AsciiDecStep s { s with flen := 0#9, phase := .echo }
  | startHunt (h : s.phase = .init) (hecho : s.echoPend = 0#16) : AsciiDecStep s { s with flen := 0#9, phase := .hunt }
  | echo (c : Byte) (rest : List Byte) (h : s.phase = .echo) (hrx : s.rx = c :: rest) (hmore : s.echoPend - 1#16 ≠ 0#16) :
      AsciiDecStep s { s with rx := rest, rxCount := satAdd s.rxCount 1, echoPend := s.echoPend - 1#16 }
  | echoEnd (c : Byte) (rest : List Byte) (h : s.phase = .echo) (hrx : s.rx = c :: rest)
      (hlast : s.echoPend - 1#16 = 0#16) : AsciiDecStep s { s with
        rx := rest, rxCount := satAdd s.rxCount 1, echoPend := s.echoPend - 1#16, phase := .hunt }
  | colon (c : Byte) (rest : List Byte) (h : s.phase = .hunt) (hrx : s.rx = c :: rest) :
      AsciiDecStep s (restartFrame { s with rx := rest, rxCount := satAdd s.rxCount 1 })
  | discard (c : Byte) (rest : List Byte) (h : s.phase = .hunt) (hrx : s.rx = c :: rest) :
      AsciiDecStep s { s with rx := rest, rxCount := satAdd s.rxCount 1 }
  | garbage (c : Byte) (rest : List Byte) (h : s.phase = .hunt) (hrx : s.rx = c :: rest) :
      AsciiDecStep s { s with rx := rest, rxCount := satAdd s.rxCount 1, garbageCnt := satAdd s.garbageCnt 1 }
  | restart (c : Byte) (rest : List Byte) (h : s.phase = .hi ∨ s.phase = .lo) (hrx : s.rx = c :: rest) :
      AsciiDecStep s (restartFrame (skipFrame { s with rx := rest, rxCount := satAdd s.rxCount 1 }))
  | skip (c : Byte) (rest : List Byte) (h : s.phase = .hi ∨ s.phase = .lo) (hrx : s.rx = c :: rest) :
      AsciiDecStep s { skipFrame { s with rx := rest, rxCount := satAdd s.rxCount 1 } with phase := .hunt }
  | digit (c : Byte) (rest : List Byte) (v : BitVec 4) (h : s.phase = .hi) (hrx : s.rx = c :: rest) :
      AsciiDecStep s { s with rx := rest, rxCount := satAdd s.rxCount 1, nib := v, phase := .lo }
  | byte (c : Byte) (rest : List Byte) (b : Byte) (h : s.phase = .lo) (hrx : s.rx = c :: rest)
      (hroom : s.idx.toNat ≠ Config.maxCore + 1) (hidx : s.idx.toNat < 256) : AsciiDecStep s { s with
        rx := rest, rxCount := satAdd s.rxCount 1, fbuf := Memory.write s.fbuf s.idx.toNat b, idx := s.idx + 1#9,
        lrcAcc := s.lrcAcc + b, phase := .hi }
  | accept (c : Byte) (rest : List Byte) (b : Byte) (h : s.phase = .hi) (hrx : s.rx = c :: rest) (hlen : 3 ≤ s.idx.toNat)
      (hsum : s.lrcAcc = 0x00#8) (hb : Memory.read s.fbuf (s.idx.toNat - 1) = some b) : AsciiDecStep s (complete { s with
        rx := rest, rxCount := satAdd s.rxCount 1, flen := s.idx - 1#9, lrcAcc := s.lrcAcc - b })

theorem exec_asciiDec_next {s t : State} (h : exec .asciiDec s = .next t) : AsciiDecStep s t := by
  simp only [exec, execAsciiDec] at h
  split at h
  case h_1 => cases h; exact .hold
  case h_2 hphase =>
    cases h
    split
    case isTrue hecho => exact .startEcho hphase (by bv_omega)
    case isFalse hecho => exact .startHunt hphase (by bv_omega)
  case h_3 hphase =>
    obtain rfl | ⟨c, rest, hrx, h⟩ := withRx_next h
    · exact .hold
    · cases h
      split
      case isTrue hlast => exact .echoEnd c rest hphase hrx hlast
      case isFalse hmore => exact .echo c rest hphase hrx hmore
  case h_4 hphase =>
    obtain rfl | ⟨c, rest, hrx, h⟩ := withRx_next h
    · exact .hold
    · split_ifs at h <;> cases h
      · exact .colon c rest hphase hrx
      · exact .discard c rest hphase hrx
      · exact .garbage c rest hphase hrx
  case h_5 hphase =>
    obtain rfl | ⟨c, rest, hrx, h⟩ := withRx_next h
    · exact .hold
    · split_ifs at h with hcolon hend haccept
      · cases h; exact .restart c rest (.inl hphase) hrx
      · obtain ⟨b, -, hb, h⟩ := withByte_next h
        cases h
        exact .accept c rest b hphase hrx haccept.1 haccept.2 hb
      · cases h; exact .skip c rest (.inl hphase) hrx
      · split at h <;> cases h
        · exact .digit c rest _ hphase hrx
        · exact .skip c rest (.inl hphase) hrx
  case h_6 hphase =>
    obtain rfl | ⟨c, rest, hrx, h⟩ := withRx_next h
    · exact .hold
    · split at h
      case isTrue => cases h; exact .restart c rest (.inr hphase) hrx
      case isFalse =>
        split at h
        · cases h; exact .skip c rest (.inr hphase) hrx
        · split at h
          case isTrue => cases h; exact .skip c rest (.inr hphase) hrx
          case isFalse hroom =>
            obtain ⟨hidx, h⟩ := storeByte_next h
            cases h
            exact .byte c rest _ hphase hrx hroom hidx
  case h_7 => contradiction

section Keep
variable {s t : State}

theorem AsciiDecStep.blockStep (h : AsciiDecStep s t) : BlockStep s t := by
  cases h with
  | hold => exact .hold s
  | startEcho h | startHunt h => exact ⟨rfl, .goesOn rfl rfl rfl rfl (by simp [h]), .inl rfl, List.suffix_rfl, id⟩
  | echo c rest h hrx | discard c rest h hrx | garbage c rest h hrx =>
    exact ⟨rfl, .goesOn rfl rfl rfl rfl Iff.rfl, .inl rfl, suffix_of_rx hrx, id⟩
  | echoEnd c rest h hrx | colon c rest h hrx | digit c rest v h hrx =>
    exact ⟨rfl, .goesOn rfl rfl rfl rfl (by simp [h, restartFrame]), .inl rfl, suffix_of_rx hrx, id⟩
  | restart c rest h hrx | skip c rest h hrx =>
    exact ⟨rfl, .goesOn rfl rfl rfl rfl (by rcases h with h | h <;> simp [h, restartFrame]), .inl rfl, suffix_of_rx hrx,
      id⟩
  | byte c rest b h hrx hroom hidx =>
    exact ⟨rfl, .goesOn rfl rfl rfl rfl (by simp [h]), .inl rfl, suffix_of_rx hrx, fun hwf => Memory.write_wf b hwf hidx⟩
  | accept c rest b h hrx => exact ⟨rfl, .completes rfl rfl rfl rfl rfl, .inl rfl, suffix_of_rx hrx, id⟩

/-- What ASCII.DEC leaves alone. -/
theorem AsciiDecStep.frame (h : AsciiDecStep s t) :
    t = { s with
      rx := t.rx, rxCount := t.rxCount, echoPend := t.echoPend, garbageCnt := t.garbageCnt, skipCnt := t.skipCnt,
      lrcAcc := t.lrcAcc, nib := t.nib, idx := t.idx, flen := t.flen, fbuf := t.fbuf, busy := t.busy,
      done := t.done, phase := t.phase } ∧
    ∀ k, (s.phase = .lo → k ≠ s.idx.toNat) → Memory.read t.fbuf k = Memory.read s.fbuf k := by
  cases h with
  | byte c rest b h => exact ⟨rfl, fun k hlo => Memory.read_write_other (hlo h)⟩
  | hold | startEcho | startHunt | echo | echoEnd | colon | discard | garbage | restart | skip | digit | accept =>
    exact ⟨rfl, fun _ _ => rfl⟩

end Keep

/-- Settles O44: by the steps that each command can take. -/
theorem asciiCommandsFrame : Obligations.AsciiCommandsFrame := fun _ _ =>
  ⟨asciiEnc_frame, fun h => (exec_asciiDec_next h).frame⟩

/-! ## What it hands on -/

section HandsOn
variable {s t : State}

/-- Inside a frame FBUF holds the bytes so far, whose sum is in LRC_ACC. -/
theorem SeqOk.frame_of_asciiDec (h : SeqOk .asciiDec s) (hphase : s.phase = .hi ∨ s.phase = .lo) :
    s.flen = 0#9 ∧ s.echoPend = 0#16 ∧ s.idx.toNat ≤ Config.maxCore + 1 ∧
    ∃ bs, Holds s s.idx.toNat bs ∧ s.lrcAcc = byteSum bs := by
  have hne (p : Phase) (hp : p ∉ [Phase.hi, .lo]) : s.phase ≠ p := by
    rintro rfl
    simp only [List.mem_cons, List.not_mem_nil, or_false] at hp
    exact hp hphase
  obtain ⟨hflen, hecho | hhunt | ⟨-, hframe⟩⟩ := h.resolve_left (hne .init (by decide))
  · exact absurd hecho.1 (hne .echo (by decide))
  · exact absurd hhunt.1 (hne .hunt (by decide))
  · exact ⟨hflen, hframe⟩

/-- Bytes that end in their own LRC sum to 0. -/
theorem eq_lrc_iff (core : List Byte) (b : Byte) : byteSum (core ++ [b]) = 0x00#8 ↔ b = lrc core := by
  rw [byteSum_snoc, lrc, lrcOfSum_eq_neg, eq_neg_iff_add_eq_zero, add_comm]
  rfl

/-- A held range is the one before its last byte, and that byte. -/
theorem eq_snoc_of_holds {n : Nat} {bs : List Byte} {b : Byte} (h : Holds s (n + 1) bs)
    (hb : Memory.read s.fbuf n = some b) : Holds s n (bs.take n) ∧ bs = bs.take n ++ [b] := by
  have hlast := Memory.read_of_slice h (Nat.lt_succ_self n)
  rw [Nat.zero_add, hb] at hlast
  refine ⟨Memory.slice_take h (Nat.le_succ n), ?_⟩
  rw [← Option.toList_some, hlast, ← List.take_add_one, ← Memory.slice_length h, List.take_length]

/-- What an accepted frame is (R217). -/
theorem SeqOk.accepted {b : Byte} (h : SeqOk .asciiDec s) (hphase : s.phase = .hi) (hlen : 3 ≤ s.idx.toNat)
    (hsum : s.lrcAcc = 0x00#8) (hb : Memory.read s.fbuf (s.idx.toNat - 1) = some b) :
    ∃ core, Holds s (s.idx - 1#9).toNat core ∧ coreLenOk (s.idx - 1#9).toNat = true ∧ s.lrcAcc - b = byteSum core ∧
      Memory.read s.fbuf (s.idx - 1#9).toNat = some (lrc core) := by
  obtain ⟨-, -, hmax, bs, hbs, hacc⟩ := h.frame_of_asciiDec (.inl hphase)
  have hmax' : s.idx.toNat ≤ 255 := hmax
  have hidx : (s.idx - 1#9).toNat = s.idx.toNat - 1 := by bv_omega
  rw [← hidx] at hb
  rw [show s.idx.toNat = (s.idx - 1#9).toNat + 1 by omega] at hbs
  obtain ⟨hcore, hsnoc⟩ := eq_snoc_of_holds hbs hb
  rw [hsum, hsnoc] at hacc
  refine ⟨_, hcore, (coreLenOk_iff _).mpr (by omega), ?_, (eq_lrc_iff _ b).mp hacc.symm ▸ hb⟩
  rw [hsum, hacc, byteSum_snoc, add_sub_cancel_right]

/-- Settles O43: only an accepted frame completes (`SeqOk.accepted`), and no step touches ERR. -/
theorem asciiDecHandsOnOnlyGoodFrames : Obligations.AsciiDecHandsOnOnlyGoodFrames := by
  intro s t hinv hfetch h
  have hseq := hinv.seqOk_of_fetch hfetch
  obtain ⟨hdone, herr, hcode⟩ := hinv.quiet_of_fetch hfetch
  have hfalse {P : Prop} (ht : s.done = true) : P := absurd (hdone.symm.trans ht) (by decide)
  cases exec_asciiDec_next h with
  | hold | startEcho | startHunt | echo | echoEnd | colon | discard | garbage | restart | skip | digit | byte =>
    exact ⟨⟨herr, hcode⟩, hfalse⟩
  | accept c rest b hphase hrx hlen hsum hb =>
    obtain ⟨core, hcore, hok, hacc, hlrc⟩ := hseq.accepted hphase hlen hsum hb
    exact ⟨⟨herr, hcode⟩, fun _ => ⟨core, hcore, hok, hacc, hlrc, congrArg lrcOfSum hacc⟩⟩

end HandsOn

end Sys2Proof.Machine
end

