-- ==== Sys2Proof/Proofs/AsciiDecFrame.lean ====
section
/-! The whole reception of an ASCII frame, from a decoder that hunts, that is inside another frame, or that just starts
(spec/43_ascii.md R215 to R219, R221; spec/42_rtu.md R172). -/

namespace Sys2Proof.Machine

/-- ASCII.DEC inside a frame that it met in `s`: `n` characters popped and `rx` to come, IDX = `k`. -/
def asciiDecAt (s : State) (n : Nat) (rx : List Byte) (m : Memory) (k : Nat) (acc : Byte) (nib : BitVec 4) (p : Phase) :
    State :=
  { s with
    rx := rx, rxCount := satAdd s.rxCount n, fbuf := m, idx := BitVec.ofNat 9 k, lrcAcc := acc, nib := nib, phase := p }

section Frame
variable {s : State} {n k : Nat} {rx : List Byte} {m : Memory} {acc : Byte} {nib : BitVec 4}

theorem exec_asciiDecAt_hi {c : Byte} {v : BitVec 4} (hv : hexVal c = some v) :
    exec .asciiDec (asciiDecAt s n (c :: rx) m k acc nib .hi) = .next (asciiDecAt s (n + 1) rx m k acc v .lo) := by
  refine (exec_asciiDec_hi_digit rfl rfl hv).trans (congrArg Host.Outcome.next ?_)
  simp only [asciiDecAt, satAdd_satAdd]

theorem exec_asciiDecAt_lo {c : Byte} {v : BitVec 4} (hv : hexVal c = some v) (hk : k < 255) :
    exec .asciiDec (asciiDecAt s n (c :: rx) m k acc nib .lo) =
      .next (asciiDecAt s (n + 1) rx (Memory.write m k (nib ++ v)) (k + 1) (acc + (nib ++ v)) nib .hi) := by
  have hidx : (BitVec.ofNat 9 k).toNat = k := Nat.mod_eq_of_lt (by omega)
  refine (exec_asciiDec_lo_digit (s := asciiDecAt s n (c :: rx) m k acc nib .lo) rfl rfl hv
    (lt_of_eq_of_lt hidx hk)).trans (congrArg Host.Outcome.next ?_)
  simp only [asciiDecAt, satAdd_satAdd, hidx, BitVec.ofNat_add]

/-- The digits of some bytes. -/
theorem execN_asciiDecAt_digits {digits bs : List Byte} (hdigits : hexBytes digits = some bs) (hmax : k + bs.length ≤ 255) :
    ∃ nib', execN .asciiDec digits.length (asciiDecAt s n (digits ++ rx) m k acc nib .hi) =
      .next (asciiDecAt s (n + digits.length) rx (Memory.writeAll m k bs) (k + bs.length) (bs.foldl (· + ·) acc) nib'
        .hi) := by
  induction digits using hexBytes.induct generalizing bs n m k acc nib with
  | case1 =>
    obtain rfl := Option.some.inj hdigits
    exact ⟨nib, rfl⟩
  | case2 => contradiction
  | case3 c0 c1 cs h l tail htail hl1 hl0 ih =>
    simp only [hexBytes, hl0, hl1, htail, Option.some.injEq] at hdigits
    subst hdigits
    rw [List.length_cons] at hmax
    obtain ⟨nib', hrun⟩ := ih (n := n + 1 + 1) (m := Memory.write m k (h ++ l)) (k := k + 1) (acc := acc + (h ++ l))
      (nib := h) htail (by omega)
    refine ⟨nib', execN_step (exec_asciiDecAt_hi hl0) (execN_step (exec_asciiDecAt_lo hl1 (by omega)) ?_)⟩
    rw [show n + (c0 :: c1 :: cs).length = n + 1 + 1 + cs.length by simp only [List.length_cons]; omega,
      show k + ((h ++ l) :: tail).length = k + 1 + tail.length by simp only [List.length_cons]; omega]
    exact hrun
  | case4 c0 c1 cs hnone =>
    rw [hexBytes] at hdigits
    split at hdigits
    case h_1 h l tail hl0 hl1 htail => exact (hnone h l tail hl0 hl1 htail).elim
    case h_2 => contradiction

/-- The frame end after a core and its LRC. -/
theorem exec_asciiDecAt_accept {core : List Byte} {e : Byte} (he : isFrameEnd e = true) (hlo : 2 ≤ core.length)
    (hhi : core.length ≤ 254) (hlrc : Memory.read m core.length = some (lrc core)) :
    exec .asciiDec (asciiDecAt s n (e :: rx) m (core.length + 1) (byteSum (core ++ [lrc core])) nib .hi) = .next { s with
      flen := BitVec.ofNat 9 core.length, lrcAcc := byteSum core, idx := BitVec.ofNat 9 (core.length + 1), nib := nib,
      fbuf := m, rx := rx, rxCount := satAdd s.rxCount (n + 1), busy := false, done := true, phase := .idle } := by
  have hidx : (BitVec.ofNat 9 (core.length + 1)).toNat = core.length + 1 := Nat.mod_eq_of_lt (by omega)
  have hpred : BitVec.ofNat 9 (core.length + 1) - 1#9 = BitVec.ofNat 9 core.length := by
    rw [BitVec.ofNat_add, add_sub_cancel_right]
  refine (exec_asciiDec_hi_accept
    (s := asciiDecAt s n (e :: rx) m (core.length + 1) (byteSum (core ++ [lrc core])) nib .hi) (b := lrc core) rfl rfl he
    (le_of_le_of_eq (by omega) hidx.symm) (le_of_eq_of_le hidx (by omega)) ((eq_lrc_iff core _).mpr rfl) ?_).trans
    (congrArg Host.Outcome.next ?_)
  · exact (congrArg (Memory.read m) (congrArg (· - 1) hidx)).trans hlrc
  · simp only [asciiDecAt, satAdd_satAdd, hpred, byteSum_snoc, add_sub_cancel_right]

/-- A frame from its first digit on. -/
theorem execN_asciiDecAt_frame {digits core : List Byte} {e : Byte} (hdigits : hexBytes digits = some (core ++ [lrc core]))
    (hlo : 2 ≤ core.length) (hhi : core.length ≤ 254) (he : isFrameEnd e = true) :
    ∃ nib', execN .asciiDec (digits.length + 1) (asciiDecAt s n (digits ++ e :: rx) m 0 0x00#8 nib .hi) = .next { s with
      flen := BitVec.ofNat 9 core.length, lrcAcc := byteSum core, idx := BitVec.ofNat 9 (core.length + 1), nib := nib',
      fbuf := Memory.writeAll m 0 (core ++ [lrc core]), rx := rx, rxCount := satAdd s.rxCount (n + digits.length + 1),
      busy := false, done := true, phase := .idle } := by
  have hlen : (core ++ [lrc core]).length = core.length + 1 := by simp
  obtain ⟨nib', hrun⟩ := execN_asciiDecAt_digits (s := s) (n := n) (rx := e :: rx) (m := m) (k := 0) (acc := 0x00#8)
    (nib := nib) hdigits (by omega)
  rw [Nat.zero_add, hlen] at hrun
  have hread := Memory.read_of_slice (Memory.slice_writeAll m 0 (core ++ [lrc core])) (k := core.length) (by omega)
  rw [Nat.zero_add, List.getElem?_concat_length] at hread
  exact ⟨nib', (execN_add hrun).trans (execN_step (exec_asciiDecAt_accept he hlo hhi hread) rfl)⟩

/-- What a received core and its LRC leave in FBUF. -/
theorem writeAll_core (s : State) (m : Memory) (core : List Byte) :
    Holds { s with fbuf := Memory.writeAll m 0 (core ++ [lrc core]) } (core.length + 1) (core ++ [lrc core]) ∧
    ∀ k, core.length + 1 ≤ k → Memory.read (Memory.writeAll m 0 (core ++ [lrc core])) k = Memory.read m k := by
  have hlen : (core ++ [lrc core]).length = core.length + 1 := by simp
  refine ⟨?_, fun k hk => Memory.read_writeAll_outside (.inr (by omega))⟩
  rw [← hlen]
  exact Memory.slice_writeAll m 0 _

end Frame

/-- Settles O41: the colon starts the frame from HUNT and from inside another frame, and the frame is accepted. -/
theorem asciiDecResynchronises : Obligations.AsciiDecResynchronises := by
  intro s digits core e rest hphase hrx hdigits hlo hhi he
  have hcolon : exec .asciiDec s = .next (asciiDecAt
      { s with skipCnt := if s.phase = .hunt then s.skipCnt else satAdd s.skipCnt 1 } 1 (digits ++ e :: rest) s.fbuf 0 0x00#8
      s.nib .hi) := by
    by_cases hhunt : s.phase = .hunt
    · rw [if_pos hhunt]
      exact exec_asciiDec_hunt_colon hrx hhunt rfl
    · rw [if_neg hhunt]
      exact exec_asciiDec_restart hrx (hphase.resolve_left hhunt) rfl
  obtain ⟨nib, hrun⟩ := execN_asciiDecAt_frame hdigits hlo hhi ((isFrameEnd_iff e).mpr he)
  obtain ⟨hholds, hother⟩ := writeAll_core s s.fbuf core
  refine ⟨_, execN_step hcolon hrun, hholds, hother, ?_⟩
  rw [show 1 + digits.length + 1 = digits.length + 2 by omega]

/-! ## From INIT -/

/-- Before the first colon everything is discarded; CR and LF are not counted (R215). -/
theorem execN_asciiDec_junk {junk rest : List Byte} {s : State} (h : s.phase = .hunt) (hjunk : chColon ∉ junk)
    (hrx : s.rx = junk ++ rest) :
    execN .asciiDec junk.length s = .next { s with
      rx := rest, rxCount := satAdd s.rxCount junk.length,
      garbageCnt := satAdd s.garbageCnt (junk.filter (fun c => c != 0x0D#8 && c != 0x0A#8)).length } := by
  induction junk generalizing s with
  | nil =>
    rw [List.filter_nil, List.length_nil, satAdd_zero, satAdd_zero, ← (show s.rx = rest from hrx)]
    rfl
  | cons c junk ih =>
    have hc := List.ne_of_not_mem_cons hjunk
    replace hjunk := List.not_mem_of_not_mem_cons hjunk
    have hkeep : (c != 0x0D#8 && c != 0x0A#8) = !isFrameEnd c := by simp [isFrameEnd, chCR, chLF, bne]
    by_cases hend : isFrameEnd c = true
    · refine execN_step (exec_asciiDec_hunt_frameEnd hrx h hend) ?_
      refine Eq.trans (ih h hjunk rfl) ?_
      rw [List.filter_cons_of_neg (by simp [hkeep, hend]), List.length_cons, satAdd_satAdd, Nat.add_comm 1]
    · refine execN_step (exec_asciiDec_hunt_garbage hrx h (Ne.symm hc) hend) ?_
      refine Eq.trans (ih h hjunk rfl) ?_
      rw [List.filter_cons_of_pos (by simp [hkeep, hend]), List.length_cons, List.length_cons, satAdd_satAdd, satAdd_satAdd,
        Nat.add_comm 1, Nat.add_comm 1]

/-- The digits of bytes read back as the bytes. -/
theorem hexBytes_hexPairs (bs : List Byte) : hexBytes (bs.flatMap hexPair) = some bs := by
  induction bs with
  | nil => rfl
  | cons b bs ih =>
    rw [List.flatMap_cons, hexPair, List.cons_append, List.cons_append, List.nil_append, hexBytes, hexVal_hexU, hexVal_hexU,
      ih]
    simp only [hiNibble_append_loNibble]

/-- INIT, the pending echo and what stands before the first colon. -/
theorem execN_asciiDec_start {s : State} {echo junk rest : List Byte} (h : s.phase = .init)
    (hlen : echo.length = s.echoPend.toNat) (hjunk : chColon ∉ junk) (hrx : s.rx = echo ++ (junk ++ rest)) :
    execN .asciiDec (1 + echo.length + junk.length) s = .next { s with
      flen := 0#9, echoPend := 0#16,
      garbageCnt := satAdd s.garbageCnt (junk.filter (fun c => c != 0x0D#8 && c != 0x0A#8)).length, rx := rest,
      rxCount := satAdd s.rxCount (echo.length + junk.length), phase := .hunt } := by
  have hecho : execN .asciiDec (echo.length + 1) s = .next { s with
      flen := 0#9, echoPend := 0#16, rx := junk ++ rest, rxCount := satAdd s.rxCount echo.length, phase := .hunt } :=
    execN_step (exec_asciiDec_init h) (execN_echo (fun _ _ _ hrx => exec_asciiDec_echo hrx) rfl hlen hrx)
  rw [Nat.add_comm 1, execN_add hecho, execN_asciiDec_junk rfl hjunk rfl]
  simp only [satAdd_satAdd]

/-- Settles O42: INIT, echo and garbage, then the colon, then the frame from its first digit on. -/
theorem asciiDecReceivesTheFrame : Obligations.AsciiDecReceivesTheFrame := by
  intro s echo junk core rest h hlen hjunk hrx hlo hhi
  have hframe : s.rx = echo ++ (junk ++ (chColon ::
      ((core ++ [lrc core]).flatMap hexPair ++ chCR :: chLF :: rest))) := by
    simpa [asciiFrame] using hrx
  have hdigits := hexPairs_length (core ++ [lrc core])
  rw [List.length_append, List.length_singleton] at hdigits
  obtain ⟨nib, hrun⟩ := execN_asciiDecAt_frame (n := 1) (rx := chLF :: rest) (m := s.fbuf) (nib := s.nib) (e := chCR)
    (hexBytes_hexPairs (core ++ [lrc core])) hlo hhi rfl
  obtain ⟨hholds, hother⟩ := writeAll_core s s.fbuf core
  have hall := (execN_add (execN_asciiDec_start h hlen hjunk hframe)).trans
    (execN_step (exec_asciiDec_hunt_colon rfl rfl rfl) hrun)
  rw [show 1 + (echo.length + junk.length + (2 * core.length + 4)) = 1 + echo.length + junk.length +
    (((core ++ [lrc core]).flatMap hexPair).length + 1 + 1) by omega]
  refine ⟨_, hall, hholds, hother, ?_⟩
  simp only [satAdd_satAdd, hdigits]
  rw [show echo.length + junk.length + (1 + 2 * (core.length + 1) + 1) = echo.length + junk.length + (2 * core.length + 4)
    by omega]
  rfl

end Sys2Proof.Machine
end

