-- ==== Sys2Proof/Proofs/Agents.lean ====
section
/-! What a step of the machine can be, agent by agent (spec/20_memory.md R65), and what follows from it alone: holds,
flags, streams, parameters. -/

namespace Sys2Proof.Machine

/-! ## Holds -/

theorem exec_rtuDec_empty {s : State} (dir : Dir) (hrx : s.rx = [])
    (h : s.phase ∈ [.echo, .unit, .fc, .body, .crcLo, .crcHi]) : exec (.rtuDec dir) s = .next s := by
  simp only [List.mem_cons, List.not_mem_nil, or_false] at h
  rcases h with h | h | h | h | h | h <;> simp only [exec, execRtuDec, h, withRx_nil hrx]

/-- Settles O45: each waiting phase of each stream command. -/
theorem streamStepsHold : Obligations.StreamStepsHold := fun s =>
  ⟨fun hrx => ⟨fun h => exec_tcpDec_empty h hrx, fun dir h => exec_rtuDec_empty dir hrx h, exec_asciiDec_empty hrx⟩,
   fun hfull => ⟨fun h => exec_tcpEnc_full h hfull, fun h => exec_rtuEnc_full (by simpa using h) hfull,
     fun h => exec_asciiEnc_full h hfull⟩⟩

/-! ## The block's turn -/

section Block
variable {s t : State} {i : Instr}

theorem BlockStep.of_next {u : State} (hu : initResult s i = some u) (h : exec i s = .next t) : BlockStep s t := by
  obtain rfl | ⟨-, rfl⟩ := exec_next_of_initResult hu h
  · exact .hold t
  · exact .of_initResult hu

/-- What the steps of all commands have in common. -/
theorem exec_blockStep (h : exec i s = .next t) : BlockStep s t := by
  cases i with
  | nop | crcInit | crcByte | lrcInit | lrcByte => exact .of_next rfl h
  | crcRange => exact (exec_crcRange_next h).blockStep
  | lrcRange => exact (exec_lrcRange_next h).blockStep
  | tcpEnc => exact (exec_tcpEnc_next h).blockStep
  | tcpDec => exact (exec_tcpDec_next h).blockStep
  | rtuEnc => exact (exec_rtuEnc_next h).blockStep
  | rtuDec => exact (exec_rtuDec_next h).blockStep
  | asciiEnc => exact (exec_asciiEnc_next h).blockStep
  | asciiDec => exact (exec_asciiDec_next h).blockStep

/-- What no command writes. -/
theorem BlockStep.outside (h : BlockStep s t) : t.ovr = s.ovr ∧ t.cmd = s.cmd ∧ latchedWord t = latchedWord s ∧
    t.txWire = s.txWire ∧ t.txDepth = s.txDepth ∧ t.lenTable = s.lenTable ∧ t.sched = s.sched := by
  rw [h.frame]
  exact ⟨rfl, rfl, rfl, rfl, rfl, rfl, rfl⟩

/-- No command clears DONE or ERR. -/
theorem Flags.mono (h : Flags s t) : (s.done = true → t.done = true) ∧ (s.err = true → t.err = true) := by
  cases h with
  | goesOn _ hdone herr => exact ⟨hdone.trans, herr.trans⟩
  | completes _ hdone herr => exact ⟨fun _ => hdone, herr.trans⟩
  | fails _ hdone herr => exact ⟨hdone.trans, fun _ => herr⟩

/-- A block turn is a step of the running command, or changes nothing. -/
theorem blockTurn_next (h : blockTurn s = .next t) : t = s ∨ ∃ i, fetch s = .run i ∧ exec i s = .next t := by
  unfold blockTurn at h
  split at h
  · exact .inl (Host.Outcome.next.inj h).symm
  · exact .inr ⟨_, ‹_›, h⟩
  · contradiction

end Block

/-! ## The host's writes -/

section Write
variable {s t : State} {bits addr : Nat} {v : Word}

theorem eq_addr_of_hostTarget {r : HostReg} (h : hostTarget bits addr = some (.reg r)) : bits = 32 ∧ addr = r.addr := by
  unfold hostTarget at h
  split at h
  case isTrue =>
    split at h
    case isTrue hword =>
      split at h
      case h_1 q hq =>
        have haddr : q.addr = addr := by simpa using List.find?_some hq
        cases h
        exact ⟨hword.1, haddr.symm⟩
      case h_2 => cases h
    case isFalse => contradiction
  case isFalse => split_ifs at h; cases h

theorem lt_of_hostTarget_fbuf {i : Nat} (h : hostTarget bits addr = some (.fbuf i)) : i < 256 := by
  unfold hostTarget at h
  split_ifs at h with hreg hword hfbuf hbyte
  · split at h <;> cases h
  · obtain rfl : addr - 0x100 = i := by simpa using h
    omega

/-- What a host write does (spec/10_state.md R21 to R38; spec/60_exceptions.md R255, R256, R262). -/
inductive HostWriteStep (s : State) (bits addr : Nat) (v : Word) : State → Prop
  | ignored : HostWriteStep s bits addr v s
  | dropped (hbusy : s.busy = true) : HostWriteStep s bits addr v { s with ovr := true }
  | softReset (hbits : bits = 32) (haddr : addr = 0x000) (hv : v.getLsbD 3 = true) :
      HostWriteStep s bits addr v (softReset s)
  | control (irqEn echoEn : Bool) : HostWriteStep s bits addr v { s with irqEn := irqEn, echoEn := echoEn }
  | abort (irqEn echoEn : Bool) (hbusy : s.busy = true) : HostWriteStep s bits addr v { fail .aborted s with
      irqEn := irqEn, echoEn := echoEn, flen := if decoderLatched s then 0#9 else s.flen }
  | issue (hbits : bits = 32) (haddr : addr = 0x004) (hidle : s.busy = false) : HostWriteStep s bits addr v (issue v s)
  | status (hbits : bits = 32) (haddr : addr = 0x008) : HostWriteStep s bits addr v (writeStatus v s)
  | registers (crc : Half) (lrcAcc : Byte) (flen : BitVec 9) (mbapTid garbageCnt skipCnt echoPend : Half)
      (hidle : s.busy = false) : HostWriteStep s bits addr v { s with
        crc := crc, lrcAcc := lrcAcc, flen := flen, mbapTid := mbapTid, garbageCnt := garbageCnt, skipCnt := skipCnt,
        echoPend := echoPend }
  | fbuf (i : Nat) (b : Byte) (hidle : s.busy = false) (hi : i < 256) :
      HostWriteStep s bits addr v { s with fbuf := Memory.write s.fbuf i b }

theorem HostWriteStep.of_unlessBusy {act : State → State} (h : s.busy = false → HostWriteStep s bits addr v (act s)) :
    HostWriteStep s bits addr v (unlessBusy s act) := by
  cases hbusy : s.busy with
  | true => exact unlessBusy_of_busy hbusy act ▸ .dropped hbusy
  | false => exact unlessBusy_of_idle hbusy act ▸ h hbusy

theorem HostWriteStep.of_writeCtrl (hbits : bits = 32) (haddr : addr = 0x000) :
    HostWriteStep s bits addr v (writeCtrl v s) := by
  unfold writeCtrl
  split
  case isTrue hv => exact .softReset hbits haddr hv
  case isFalse =>
    split
    case isFalse => exact .control _ _
    case isTrue =>
      by_cases hbusy : s.busy = true
      · rw [abort_busy (s := { s with irqEn := v.getLsbD 0, echoEn := v.getLsbD 1 }) hbusy]
        exact .abort _ _ hbusy
      · rw [abort_idle (s := { s with irqEn := v.getLsbD 0, echoEn := v.getLsbD 1 }) (eq_false_of_ne_true hbusy)]
        exact .control _ _

theorem HostWriteStep.of_writeReg {r : HostReg} (hbits : bits = 32) (haddr : addr = r.addr) :
    HostWriteStep s bits addr v (writeReg r v s) := by
  cases r with
  | ctrl => exact .of_writeCtrl hbits haddr
  | cmd => exact .of_unlessBusy (.issue hbits haddr)
  | status => exact .status hbits haddr
  | crc | lrcAcc | flen | mbapTid | garbageCnt | skipCnt | echoPend =>
    simp only [writeReg]
    refine .of_unlessBusy fun hidle => ?_
    exact .registers _ _ _ _ _ _ _ hidle
  | lrc | mbapPid | mbapLen | rxCrc | rxCount | txCount | id => exact .ignored

theorem hostWrite_next (h : hostWrite bits addr v s = .next t) : HostWriteStep s bits addr v t := by
  unfold hostWrite at h
  split at h
  · contradiction
  · rename_i r htarget
    obtain ⟨hbits, haddr⟩ := eq_addr_of_hostTarget htarget
    cases h
    exact .of_writeReg hbits haddr
  · cases h
    exact .ignored
  · rename_i i htarget
    cases h
    exact .of_unlessBusy fun hidle => .fbuf i _ hidle (lt_of_hostTarget_fbuf htarget)

/-- What no host write touches. -/
theorem HostWriteStep.outside (h : HostWriteStep s bits addr v t) :
    t.rx = s.rx ∧ t.txWire = s.txWire ∧ t.txDepth = s.txDepth ∧ t.lenTable = s.lenTable := by
  cases h with
  | issue =>
    unfold Machine.issue
    split <;> exact ⟨rfl, rfl, rfl, rfl⟩
  | ignored | dropped | softReset | control | abort | status | registers | fbuf => exact ⟨rfl, rfl, rfl, rfl⟩

/-- Only a soft reset discards the TX FIFO. -/
theorem HostWriteStep.txFifo (h : HostWriteStep s bits addr v t) :
    (bits = 32 ∧ addr = 0x000 ∧ v.getLsbD 3 = true) ∨ t.txFifo = s.txFifo := by
  cases h with
  | softReset hbits haddr hv => exact .inl ⟨hbits, haddr, hv⟩
  | issue =>
    unfold Machine.issue
    split <;> exact .inr rfl
  | ignored | dropped | control | abort | status | registers | fbuf => exact .inr rfl

end Write

/-! ## The machine's step -/

/-- `s` with its turn taken from the schedule. -/
def State.turnTaken (s : State) : State := { s with sched := s.sched.tail }

theorem State.turnTaken_of_nil {s : State} (h : s.sched = []) : s.turnTaken = s := by
  have htail : s.sched.tail = s.sched := by rw [h]; rfl
  rw [State.turnTaken, htail]

theorem State.turnTaken_of_cons {s : State} {turn : Turn} {rest : List Turn} (h : s.sched = turn :: rest) :
    s.turnTaken = { s with sched := rest } := by
  rw [State.turnTaken, h]
  rfl

/-- What a step of the machine can be (spec/20_memory.md R65 to R67; spec/30_encoding.md R86, R88, R89). -/
inductive MachineStep (s : State) : State → Prop
  | pass : MachineStep s s.turnTaken
  | block (i : Instr) (t : State) (hfetch : fetch s = .run i) (h : exec i s.turnTaken = .next t) : MachineStep s t
  | look (ops : List HostOp) (w : Word) : MachineStep s { s.turnTaken with prog := ops, readData := some w }
  | write (bits addr : Nat) (v : Word) (ops : List HostOp) (rest : List Turn) (t : State) (hsched : s.sched = .host :: rest)
      (hprog : s.prog = .write bits addr v :: ops) (h : HostWriteStep { s.turnTaken with prog := ops } bits addr v t) :
      MachineStep s t
  | receive (b : Byte) (rest : List Turn) (hsched : s.sched = .envRx b :: rest) : MachineStep s (envRx b s.turnTaken)
  | take (b : Byte) (bs : List Byte) (h : s.txFifo = b :: bs) :
      MachineStep s { s.turnTaken with txFifo := bs, txWire := s.txWire ++ [b] }
  | hardReset (rest : List Turn) (hsched : s.sched = .hardReset :: rest) : MachineStep s (hardReset s.turnTaken)

section Machine
variable {s t : State}

theorem MachineStep.of_blockTurn (h : blockTurn s.turnTaken = .next t) : MachineStep s t := by
  obtain rfl | ⟨i, hfetch, h⟩ := blockTurn_next h
  · exact .pass
  · exact .block i t hfetch h

theorem MachineStep.of_hostTurn {rest : List Turn} (hsched : s.sched = .host :: rest)
    (h : hostTurn s.turnTaken = .next t) : MachineStep s t := by
  rcases hostTurn_cases s.turnTaken with ⟨-, hturn⟩ | ⟨bits, addr, ops, -, hturn⟩ | ⟨bits, addr, v, ops, hprog, hturn⟩ |
    ⟨ops, -, hturn⟩ <;> rw [hturn] at h
  · cases h
    exact .pass
  · rcases hostRead_eq bits addr { s.turnTaken with prog := ops } with ⟨w, hread⟩ | hread <;> rw [hread] at h
    · cases h
      exact .look ops w
    · contradiction
  · exact .write bits addr v ops rest t hsched hprog (hostWrite_next h)
  · rw [waitPoll_eq] at h
    cases h
    exact .look _ _

theorem step_next (h : step s = .next t) : MachineStep s t := by
  rcases hsched : s.sched with _ | ⟨turn, rest⟩
  · rw [step_of_sched_nil hsched, ← State.turnTaken_of_nil hsched] at h
    exact .of_blockTurn h
  · rw [step_of_sched_cons hsched, ← State.turnTaken_of_cons hsched] at h
    cases turn with
    | block => exact .of_blockTurn h
    | host => exact .of_hostTurn hsched h
    | envRx b =>
      cases h
      exact .receive b rest hsched
    | envTake =>
      cases hfifo : s.txFifo with
      | nil =>
        rw [agentTurn, envTake_nil (s := s.turnTaken) hfifo] at h
        cases h
        exact .pass
      | cons b bs =>
        rw [agentTurn, envTake_cons (s := s.turnTaken) hfifo] at h
        cases h
        exact .take b bs hfifo
    | hardReset =>
      cases h
      exact .hardReset rest hsched

end Machine

/-- Settles O54: only block steps push, only takes move a byte from the FIFO to the wire, and only block steps pop. -/
theorem streamsAreFirstInFirstOut : Obligations.StreamsAreFirstInFirstOut := by
  intro s t h
  have hsame {u : State} (hwire : u.txWire = s.txWire) (hfifo : u.txFifo = s.txFifo) :
      ∃ bs : List Byte, bs.length ≤ 1 ∧ u.txWire ++ u.txFifo = s.txWire ++ s.txFifo ++ bs :=
    ⟨[], Nat.zero_le 1, by rw [hwire, hfifo, List.append_nil]⟩
  cases step_next h with
  | pass | look => exact ⟨.inr (.inr (hsame rfl rfl)), .inl List.suffix_rfl⟩
  | block i t hfetch h =>
    have hstep := exec_blockStep h
    obtain ⟨-, -, -, hwire, -⟩ := hstep.outside
    refine ⟨.inr (.inr ?_), .inl hstep.rx⟩
    obtain hfifo | ⟨-, b, hfifo⟩ := hstep.fifo
    · exact hsame hwire hfifo
    · exact ⟨[b], Nat.le_refl 1, by rw [hwire, hfifo, List.append_assoc]; rfl⟩
  | write bits addr v ops rest t hsched hprog h =>
    obtain ⟨hrx, hwire, -⟩ := h.outside
    refine ⟨.inr ?_, .inl (hrx ▸ List.suffix_rfl)⟩
    obtain ⟨rfl, rfl, hv⟩ | hfifo := h.txFifo
    · exact .inl ⟨v, rest, ops, hsched, hprog, hv⟩
    · exact .inr (hsame hwire hfifo)
  | receive b rest hsched => exact ⟨.inr (.inr (hsame rfl rfl)), .inr ⟨b, rest, hsched, rfl⟩⟩
  | take b bs hfifo =>
    exact ⟨.inr (.inr ⟨[], Nat.zero_le 1, by simp [hfifo]⟩), .inl List.suffix_rfl⟩
  | hardReset rest hsched => exact ⟨.inl ⟨rest, hsched⟩, .inl List.suffix_rfl⟩

/-- An issue leaves OVR alone. -/
theorem issue_ovr (w : Word) (s : State) : (issue w s).ovr = s.ovr := by
  unfold issue
  split <;> rfl

/-- Settles O53: no block step clears a flag (`Flags.mono`), and of the host's writes only those to CTRL, STATUS and CMD
do. -/
theorem onlyTheHostClearsDoneErrOvr : Obligations.OnlyTheHostClearsDoneErrOvr := by
  intro s t h
  have hkept {P : Prop} {a b : Bool} (hmono : a = true → b = true) (ha : a = true) (hb : b = false) : P :=
    absurd ((hmono ha).symm.trans hb) (by decide)
  cases step_next h with
  | pass | look | receive | take => exact ⟨hkept id, hkept id, hkept id⟩
  | block i t hfetch h =>
    have hstep := exec_blockStep h
    obtain ⟨hdone, herr⟩ := hstep.flags.mono
    exact ⟨hkept hdone, hkept herr, hkept hstep.outside.1.trans⟩
  | hardReset rest hsched =>
    have hreset : (∃ rest, s.sched = .hardReset :: rest) := ⟨rest, hsched⟩
    exact ⟨fun _ _ => .inl (.inl (.inl hreset)), fun _ _ => .inl (.inl (.inl hreset)), fun _ _ => .inl (.inl hreset)⟩
  | write bits addr v ops rest t hsched hprog h =>
    have hdoes : ∃ rest ops, s.sched = .host :: rest ∧ s.prog = .write bits addr v :: ops := ⟨rest, ops, hsched, hprog⟩
    cases h with
    | ignored | control | registers | fbuf => exact ⟨hkept id, hkept id, hkept id⟩
    | dropped => exact ⟨hkept id, hkept id, hkept fun _ => rfl⟩
    | abort => exact ⟨hkept id, hkept fun _ => rfl, hkept id⟩
    | softReset hbits haddr hv =>
      subst hbits haddr
      exact ⟨fun _ _ => .inl (.inl (.inr ⟨v, hdoes, hv⟩)), fun _ _ => .inl (.inl (.inr ⟨v, hdoes, hv⟩)),
        fun _ _ => .inl (.inr ⟨v, hdoes, hv⟩)⟩
    | issue hbits haddr hidle =>
      subst hbits haddr
      exact ⟨fun _ _ => .inr ⟨hidle, v, hdoes⟩, fun _ _ => .inr ⟨hidle, v, hdoes⟩,
        hkept (issue_ovr v { s.turnTaken with prog := ops }).trans⟩
    | status hbits haddr =>
      subst hbits haddr
      have hclears {a : Bool} {k : Nat} (ha : a = true) (hb : (a && !v.getLsbD k) = false) : v.getLsbD k = true := by
        simpa [ha] using hb
      exact ⟨fun ha hb => .inl (.inr ⟨v, hdoes, hclears ha hb⟩), fun ha hb => .inl (.inr ⟨v, hdoes, hclears ha hb⟩),
        fun ha hb => .inr ⟨v, hdoes, hclears ha hb⟩⟩

end Sys2Proof.Machine
end

