-- ==== Sys2Proof/Proofs/SequencerKept.lean ====
section
/-! A running command's step leaves its sequencer in one of its phases, with the registers its rule computes there
(`SeqOk`), unless it ends the command; one lemma for each command with more than an INIT step. -/

namespace Sys2Proof.Machine

/-! ## Bytes gone through so far -/

section Range
variable {idx cnt : BitVec 9} {mem : Memory} {a m n : Nat} {b : Byte} {bs : List Byte}

theorem toNat_succ_of_lt (h : idx.toNat < 511) : (idx + 1#9).toNat = idx.toNat + 1 := by bv_omega

/-- A range before its first byte. -/
theorem range_start (mem : Memory) (h : a + m ≤ Config.fbufSize) : a ≤ (BitVec.ofNat 9 a).toNat ∧
    (BitVec.ofNat 9 a).toNat + (BitVec.ofNat 9 m).toNat = a + m ∧
    Memory.slice mem a ((BitVec.ofNat 9 a).toNat - a) = .ok [] := by
  rw [Config.fbufSize] at h
  have ha : (BitVec.ofNat 9 a).toNat = a := Nat.mod_eq_of_lt (by omega)
  have hm : (BitVec.ofNat 9 m).toNat = m := Nat.mod_eq_of_lt (by omega)
  rw [ha, hm, Nat.sub_self]
  exact ⟨Nat.le_refl a, rfl, rfl⟩

/-- A range after one byte more. -/
theorem range_next (hmax : a + m ≤ Config.fbufSize) (hlo : a ≤ idx.toNat) (hsum : idx.toNat + cnt.toNat = a + m)
    (hcnt : cnt ≠ 0#9) (hbs : Memory.slice mem a (idx.toNat - a) = .ok bs) (hb : Memory.read mem idx.toNat = some b) :
    a ≤ (idx + 1#9).toNat ∧ (idx + 1#9).toNat + (cnt - 1#9).toNat = a + m ∧
    Memory.slice mem a ((idx + 1#9).toNat - a) = .ok (bs ++ [b]) := by
  rw [Config.fbufSize] at hmax
  have hsucc := toNat_succ_of_lt (idx := idx) (by omega)
  have hpred : (cnt - 1#9).toNat + 1 = cnt.toNat := by bv_omega
  refine ⟨by omega, by omega, ?_⟩
  rw [hsucc, Nat.sub_add_comm hlo]
  exact Memory.slice_snoc hbs (by rwa [Nat.add_sub_cancel' hlo])

/-- A core read one byte further. -/
theorem slice_idx_succ (hidx : idx.toNat < 511) (hbs : Memory.slice mem 0 idx.toNat = .ok bs)
    (hb : Memory.read mem idx.toNat = some b) : Memory.slice mem 0 (idx + 1#9).toNat = .ok (bs ++ [b]) := by
  rw [toNat_succ_of_lt hidx]
  exact Memory.slice_snoc hbs (by rwa [Nat.zero_add])

/-- A core stored one byte further. -/
theorem slice_write_idx (b : Byte) (hidx : idx.toNat < 511) (hbs : Memory.slice mem 0 idx.toNat = .ok bs) :
    Memory.slice (Memory.write mem idx.toNat b) 0 (idx + 1#9).toNat = .ok (bs ++ [b]) := by
  have hnext := Memory.slice_write_next (i := 0) b hbs
  rwa [Nat.zero_add, ← toNat_succ_of_lt hidx] at hnext

end Range

/-! ## The commands -/

section Commands
variable {s t : State}

theorem CrcRangeStep.seqOk {a n : Nat} (h : CrcRangeStep a n s t) (hseq : SeqOk (.crcRange a n) s)
    (hrun : t.phase ≠ .idle) : SeqOk (.crcRange a n) t := by
  cases h with
  | idle => exact hseq
  | refuse | finish => exact absurd rfl hrun
  | start h hrange =>
    have hmax : a + n ≤ Config.fbufSize := by simpa [rangeOk] using hrange
    obtain ⟨hlo, hsum, hbs⟩ := range_start s.fbuf hmax
    exact .inr ⟨rfl, hmax, hlo, hsum, [], hbs, rfl⟩
  | byte b h hcnt hb =>
    obtain ⟨-, hmax, hlo, hsum, bs, hbs, hcrc⟩ := hseq.resolve_left (by simp [h])
    obtain ⟨hlo', hsum', hbs'⟩ := range_next hmax hlo hsum hcnt hbs hb
    exact .inr ⟨h, hmax, hlo', hsum', bs ++ [b], hbs', by rw [crc16_snoc, hcrc]⟩

theorem LrcRangeStep.seqOk {a n u : Nat} (h : LrcRangeStep a n u s t) (hseq : SeqOk (.lrcRange a n u) s)
    (hrun : t.phase ≠ .idle) : SeqOk (.lrcRange a n u) t := by
  cases h with
  | idle => exact hseq
  | refuse | finish => exact absurd rfl hrun
  | start h hrange htail =>
    have hmax : a + n ≤ Config.fbufSize := by simpa [rangeOk] using hrange
    obtain ⟨hlo, hsum, hbs⟩ := range_start (a := a) (m := n - u) s.fbuf (by omega)
    exact .inr ⟨rfl, hmax, htail, hlo, hsum, [], hbs, rfl⟩
  | byte b h hcnt hb =>
    obtain ⟨-, hmax, htail, hlo, hsum, bs, hbs, hacc⟩ := hseq.resolve_left (by simp [h])
    obtain ⟨hlo', hsum', hbs'⟩ := range_next (m := n - u) (by omega) hlo hsum hcnt hbs hb
    exact .inr ⟨h, hmax, htail, hlo', hsum', bs ++ [b], hbs', by rw [byteSum_snoc, hacc]⟩

theorem TcpEncStep.seqOk (h : TcpEncStep s t) (hseq : SeqOk .tcpEnc s) (hrun : t.phase ≠ .idle) : SeqOk .tcpEnc t := by
  cases h with
  | hold => exact hseq
  | refuse | lastByte => exact absurd rfl hrun
  | start h hlen =>
    have hflen : (s.flen.setWidth 16).toNat = s.flen.toNat := by
      rw [BitVec.toNat_setWidth]
      omega
    exact .inr ⟨hlen, hflen, .inl ⟨rfl, (by decide : (0#3).toNat < 6)⟩⟩
  | header b h hroom hh hb =>
    obtain ⟨hlen, hmbap, ⟨-, hlt⟩ | ⟨hbody, -⟩⟩ := hseq.resolve_left (by simp [h])
    · exact .inr ⟨hlen, hmbap, .inl ⟨h, by show (s.h + 1#3).toNat < 6; bv_omega⟩⟩
    · simp [h] at hbody
  | headerEnd b h hroom =>
    obtain ⟨hlen, hmbap, -⟩ := hseq.resolve_left (by simp [h])
    have hpos := (coreLenOk_iff _).mp hlen
    exact .inr ⟨hlen, hmbap, .inr ⟨rfl, by show 0 < s.flen.toNat; omega⟩⟩
  | byte b h hroom hidx =>
    obtain ⟨hlen, hmbap, ⟨hhdr, -⟩ | ⟨-, hlt⟩⟩ := hseq.resolve_left (by simp [h])
    · simp [h] at hhdr
    · exact .inr ⟨hlen, hmbap, .inr ⟨h, by show (s.idx + 1#9).toNat < s.flen.toNat; bv_omega⟩⟩

theorem TcpDecStep.seqOk (h : TcpDecStep s t) (hseq : SeqOk .tcpDec s) (hrun : t.phase ≠ .idle) : SeqOk .tcpDec t := by
  cases h with
  | hold => exact hseq
  | badLength | lastByte => exact absurd rfl hrun
  | start h => exact .inr ⟨rfl, .inl ⟨rfl, (by decide : (0#3).toNat < 6)⟩⟩
  | header b rest u h hrx hu hh =>
    obtain ⟨hflen, ⟨-, hlt⟩ | ⟨hbody, -⟩⟩ := hseq.resolve_left (by simp [h])
    · rw [hu]
      exact .inr ⟨hflen, .inl ⟨h, by show (s.h + 1#3).toNat < 6; bv_omega⟩⟩
    · simp [h] at hbody
  | headerEnd b rest u h hrx hu hlen =>
    have hflen := hseq.flen_of_tcpDec (by simp [h])
    have hpos := (coreLenOk_iff _).mp hlen
    have huflen : u.flen = s.flen := by rw [hu]
    exact .inr ⟨huflen.trans hflen, .inr ⟨rfl, hlen, by show 0 < u.mbapLen.toNat; omega, [], rfl⟩⟩
  | byte b rest h hrx hidx hlast =>
    obtain ⟨hflen, ⟨hhdr, -⟩ | ⟨-, hlen, hlt, bs, hbs⟩⟩ := hseq.resolve_left (by simp [h])
    · simp [h] at hhdr
    · have hsucc := toNat_succ_of_lt (idx := s.idx) (by omega)
      exact .inr ⟨hflen, .inr ⟨h, hlen, by show (s.idx + 1#9).toNat < s.mbapLen.toNat; omega, bs ++ [b],
        slice_write_idx b (by omega) hbs⟩⟩

theorem RtuEncStep.seqOk (h : RtuEncStep s t) (hseq : SeqOk .rtuEnc s) (hrun : t.phase ≠ .idle) : SeqOk .rtuEnc t := by
  cases h with
  | hold => exact hseq
  | refuse | crcHi => exact absurd rfl hrun
  | start h hlen =>
    have hpos := (coreLenOk_iff _).mp hlen
    exact .inr ⟨hlen, .inl ⟨rfl, by show 0 < s.flen.toNat; omega⟩, [], rfl, rfl⟩
  | byte b h hroom hb hidx =>
    obtain ⟨hlen, ⟨-, hlt⟩ | ⟨hcrc, -⟩, bs, hbs, hsum⟩ := hseq.resolve_left (by simp [h])
    · have hmax := (coreLenOk_iff _).mp hlen
      exact .inr ⟨hlen, .inl ⟨h, by show (s.idx + 1#9).toNat < s.flen.toNat; bv_omega⟩, bs ++ [b],
        slice_idx_succ (by omega) hbs hb, by rw [crc16_snoc, ← hsum]⟩
    · simp [h] at hcrc
  | lastByte b h hroom hb hidx =>
    obtain ⟨hlen, ⟨-, hlt⟩ | ⟨hcrc, -⟩, bs, hbs, hsum⟩ := hseq.resolve_left (by simp [h])
    · have hmax := (coreLenOk_iff _).mp hlen
      exact .inr ⟨hlen, .inr ⟨.inl rfl, hidx⟩, bs ++ [b], slice_idx_succ (by omega) hbs hb, by rw [crc16_snoc, ← hsum]⟩
    · simp [h] at hcrc
  | crcLo h hroom =>
    obtain ⟨hlen, ⟨hcore, -⟩ | ⟨-, hidx⟩, hbs⟩ := hseq.resolve_left (by simp [h])
    · simp [h] at hcore
    · exact .inr ⟨hlen, .inr ⟨.inr rfl, hidx⟩, hbs⟩

/-- In ECHO and in UNIT no byte of the frame has arrived (R173). -/
theorem SeqOk.head_of_rtuDec {dir : Dir} (h : SeqOk (.rtuDec dir) s) (hphase : s.phase = .echo ∨ s.phase = .unit) :
    s.flen = 0#9 ∧ s.crc = crcInitValue := by
  obtain ⟨hflen, ⟨-, -, hcrc⟩ | ⟨-, -, hcrc⟩ | ⟨hfc, -⟩ | ⟨hcore, -⟩⟩ :=
    h.resolve_left (by rcases hphase with h | h <;> simp [h])
  · exact ⟨hflen, hcrc⟩
  · exact ⟨hflen, hcrc⟩
  · simp [hfc] at hphase
  · rcases hcore with hcore | hcore | hcore <;> simp [hcore] at hphase

theorem RtuDecStep.seqOk {dir : Dir} (h : RtuDecStep dir s t) (hseq : SeqOk (.rtuDec dir) s) (hrun : t.phase ≠ .idle) :
    SeqOk (.rtuDec dir) t := by
  cases h with
  | hold => exact hseq
  | unsupported | overflow | good | mismatch => exact absurd rfl hrun
  | startEcho h hecho => exact .inr ⟨rfl, .inl ⟨rfl, hecho, rfl⟩⟩
  | startUnit h hecho => exact .inr ⟨rfl, .inr (.inl ⟨rfl, hecho, rfl⟩)⟩
  | echo b rest h hrx hmore =>
    obtain ⟨hflen, hcrc⟩ := hseq.head_of_rtuDec (.inl h)
    exact .inr ⟨hflen, .inl ⟨h, hmore, hcrc⟩⟩
  | echoEnd b rest h hrx hlast =>
    obtain ⟨hflen, hcrc⟩ := hseq.head_of_rtuDec (.inl h)
    exact .inr ⟨hflen, .inr (.inl ⟨rfl, hlast, hcrc⟩)⟩
  | unit b rest h hrx =>
    obtain ⟨hflen, ⟨hecho, -⟩ | ⟨-, hpend, hcrc⟩ | ⟨hfc, -⟩ | ⟨hcore, -⟩⟩ := hseq.resolve_left (by simp [h])
    · simp [h] at hecho
    · refine .inr ⟨hflen, .inr (.inr (.inl ⟨rfl, hpend, rfl, b, ?_, ?_⟩))⟩
      · exact Memory.slice_write_next (i := 0) (n := 0) (bs := []) b rfl
      · rw [hcrc]
        rfl
    · simp [h] at hfc
    · simp [h] at hcore
  | fc b rest p h hrx hspec hp =>
    obtain ⟨hflen, ⟨hecho, -⟩ | ⟨hunit, -⟩ | ⟨-, hpend, -, u, hu, hcrc⟩ | ⟨hcore, -⟩⟩ := hseq.resolve_left (by simp [h])
    · simp [h] at hecho
    · simp [h] at hunit
    · refine .inr ⟨hflen, .inr (.inr (.inr ⟨hp.imp_right (.inl ·.1), hpend, rfl, u, b, [], ?_, ?_, hspec, rfl, ?_⟩))⟩
      · exact Memory.slice_write_next (i := 0) (n := 1) b hu
      · rw [hcrc]
        rfl
      · exact fun hbody => (hp.resolve_left hbody).2
    · simp [h] at hcore
  | byte b rest spec payload p h hrx hroom hidx hg hpayload hp =>
    obtain ⟨hflen, hpend, hlen, u, fc, before, hbs, hcrc, hspec, hgspec, -⟩ := hseq.core_of_rtuDec (.inl h)
    have hmax := (coreLenOk_iff _).mp hlen
    have hsucc := toNat_succ_of_lt (idx := s.idx) (by omega)
    have hbs' := slice_write_idx b (by omega) hbs
    have hdrop := Memory.slice_drop hbs' (k := 2) (by omega)
    obtain rfl : payload = before ++ [b] := Except.ok.inj (hpayload.symm.trans hdrop)
    obtain rfl : spec = lookupLen s.lenTable dir fc := Option.some.inj (hg.symm.trans hgspec)
    refine .inr ⟨hflen, .inr (.inr (.inr ⟨hp.imp_right (.inl ·.1), hpend, ?_, u, fc, before ++ [b], hbs', ?_, hspec,
      hgspec, ?_⟩))⟩
    · exact (coreLenOk_iff _).mpr (by show 2 ≤ (s.idx + 1#9).toNat ∧ (s.idx + 1#9).toNat ≤ 254; omega)
    · rw [hcrc]
      exact (crc16_snoc _ b).symm
    · intro hbody
      rw [Memory.slice_length hpayload]
      exact (hp.resolve_left hbody).2
  | crcLo b rest h hrx =>
    obtain ⟨hflen, hpend, hlen, u, fc, payload, hbs, hcrc, hspec, hg, hreq⟩ := hseq.core_of_rtuDec (.inr (.inl h))
    exact .inr ⟨hflen, .inr (.inr (.inr ⟨.inr (.inr rfl), hpend, hlen, u, fc, payload, hbs, hcrc, hspec, hg,
      fun _ => hreq (by simp [h])⟩))⟩

/-- Inside the digits of a core byte (R211). -/
theorem SeqOk.core_of_asciiEnc (h : SeqOk .asciiEnc s) (hphase : s.phase = .hi ∨ s.phase = .lo) :
    coreLenOk s.flen.toNat = true ∧ s.idx.toNat < s.flen.toNat ∧ ∃ bs, Holds s s.idx.toNat bs ∧ s.lrcAcc = byteSum bs := by
  obtain ⟨hlen, ⟨hcolon, -⟩ | ⟨-, hlt⟩ | ⟨hend, -⟩, hbs⟩ := h.resolve_left (by rcases hphase with h | h <;> simp [h])
  · simp [hcolon] at hphase
  · exact ⟨hlen, hlt, hbs⟩
  · rcases hend with hend | hend | hend | hend <;> simp [hend] at hphase

/-- After the digits of the core (R211). -/
theorem SeqOk.end_of_asciiEnc (h : SeqOk .asciiEnc s)
    (hphase : s.phase = .lrcHi ∨ s.phase = .lrcLo ∨ s.phase = .cr ∨ s.phase = .lf) :
    coreLenOk s.flen.toNat = true ∧ s.idx = s.flen ∧ ∃ bs, Holds s s.idx.toNat bs ∧ s.lrcAcc = byteSum bs := by
  obtain ⟨hlen, ⟨hcolon, -⟩ | ⟨hcore, -⟩ | ⟨-, hidx⟩, hbs⟩ :=
    h.resolve_left (by rcases hphase with h | h | h | h <;> simp [h])
  · simp [hcolon] at hphase
  · rcases hcore with hcore | hcore <;> simp [hcore] at hphase
  · exact ⟨hlen, hidx, hbs⟩

theorem CharStep.seqOk {c : Byte} {next : Phase} (h : CharStep s c next) (hseq : SeqOk .asciiEnc s) :
    SeqOk .asciiEnc { txPushSerial c s with phase := next } := by
  rcases h with ⟨h, -, rfl⟩ | ⟨h, -, rfl⟩ | ⟨h, -, rfl⟩ | ⟨h, -, rfl⟩
  · obtain ⟨hlen, ⟨-, hidx⟩ | ⟨hcore, -⟩ | ⟨hend, -⟩, hbs⟩ := hseq.resolve_left (by simp [h])
    · have hpos := (coreLenOk_iff _).mp hlen
      have hlt : s.idx.toNat < s.flen.toNat := by
        rw [hidx]
        exact Nat.lt_of_lt_of_le (by decide) hpos.1
      exact .inr ⟨hlen, .inr (.inl ⟨.inl rfl, hlt⟩), hbs⟩
    · simp [h] at hcore
    · simp [h] at hend
  · obtain ⟨hlen, hidx, hbs⟩ := hseq.end_of_asciiEnc (.inl h)
    exact .inr ⟨hlen, .inr (.inr ⟨.inr (.inl rfl), hidx⟩), hbs⟩
  · obtain ⟨hlen, hidx, hbs⟩ := hseq.end_of_asciiEnc (.inr (.inl h))
    exact .inr ⟨hlen, .inr (.inr ⟨.inr (.inr (.inl rfl)), hidx⟩), hbs⟩
  · obtain ⟨hlen, hidx, hbs⟩ := hseq.end_of_asciiEnc (.inr (.inr (.inl h)))
    exact .inr ⟨hlen, .inr (.inr ⟨.inr (.inr (.inr rfl)), hidx⟩), hbs⟩

theorem AsciiEncStep.seqOk (h : AsciiEncStep s t) (hseq : SeqOk .asciiEnc s) (hrun : t.phase ≠ .idle) :
    SeqOk .asciiEnc t := by
  cases h with
  | hold => exact hseq
  | refuse | lf => exact absurd rfl hrun
  | start h hlen => exact .inr ⟨hlen, .inl ⟨rfl, rfl⟩, [], rfl, rfl⟩
  | char c next h hroom => exact h.seqOk hseq
  | hi b h hroom hb =>
    obtain ⟨hlen, hlt, hbs⟩ := hseq.core_of_asciiEnc (.inl h)
    exact .inr ⟨hlen, .inr (.inl ⟨.inr rfl, hlt⟩), hbs⟩
  | byte b h hroom hb hidx =>
    obtain ⟨hlen, hlt, bs, hbs, hacc⟩ := hseq.core_of_asciiEnc (.inr h)
    have hmax := (coreLenOk_iff _).mp hlen
    exact .inr ⟨hlen, .inr (.inl ⟨.inl rfl, hidx⟩), bs ++ [b], slice_idx_succ (by omega) hbs hb,
      by rw [byteSum_snoc, ← hacc]⟩
  | lastByte b h hroom hb hidx =>
    obtain ⟨hlen, hlt, bs, hbs, hacc⟩ := hseq.core_of_asciiEnc (.inr h)
    have hmax := (coreLenOk_iff _).mp hlen
    exact .inr ⟨hlen, .inr (.inr ⟨.inl rfl, by show s.idx + 1#9 = s.flen; bv_omega⟩), bs ++ [b],
      slice_idx_succ (by omega) hbs hb, by rw [byteSum_snoc, ← hacc]⟩

/-- While it hunts ASCII.DEC has no pending echo (R213). -/
theorem SeqOk.hunt_of_asciiDec (h : SeqOk .asciiDec s) (hphase : s.phase = .hunt) : s.flen = 0#9 ∧ s.echoPend = 0#16 := by
  obtain ⟨hflen, ⟨hecho, -⟩ | ⟨-, hpend⟩ | ⟨hframe, -⟩⟩ := h.resolve_left (by simp [hphase])
  · simp [hphase] at hecho
  · exact ⟨hflen, hpend⟩
  · simp [hphase] at hframe

theorem AsciiDecStep.seqOk (h : AsciiDecStep s t) (hseq : SeqOk .asciiDec s) (hrun : t.phase ≠ .idle) :
    SeqOk .asciiDec t := by
  cases h with
  | hold => exact hseq
  | accept => exact absurd rfl hrun
  | startEcho h hecho => exact .inr ⟨rfl, .inl ⟨rfl, hecho⟩⟩
  | startHunt h hecho => exact .inr ⟨rfl, .inr (.inl ⟨rfl, hecho⟩)⟩
  | echo c rest h hrx hmore => exact .inr ⟨(hseq.resolve_left (by simp [h])).1, .inl ⟨h, hmore⟩⟩
  | echoEnd c rest h hrx hlast => exact .inr ⟨(hseq.resolve_left (by simp [h])).1, .inr (.inl ⟨rfl, hlast⟩)⟩
  | colon c rest h hrx =>
    obtain ⟨hflen, hpend⟩ := hseq.hunt_of_asciiDec h
    exact .inr ⟨hflen, .inr (.inr ⟨.inl rfl, hpend, Nat.zero_le _, [], rfl, rfl⟩)⟩
  | discard c rest h hrx | garbage c rest h hrx =>
    obtain ⟨hflen, hpend⟩ := hseq.hunt_of_asciiDec h
    exact .inr ⟨hflen, .inr (.inl ⟨h, hpend⟩)⟩
  | restart c rest h hrx =>
    obtain ⟨hflen, hpend, -⟩ := hseq.frame_of_asciiDec h
    exact .inr ⟨hflen, .inr (.inr ⟨.inl rfl, hpend, Nat.zero_le _, [], rfl, rfl⟩)⟩
  | skip c rest h hrx =>
    obtain ⟨hflen, hpend, -⟩ := hseq.frame_of_asciiDec h
    exact .inr ⟨hflen, .inr (.inl ⟨rfl, hpend⟩)⟩
  | digit c rest v h hrx =>
    obtain ⟨hflen, hpend, hmax, hbs⟩ := hseq.frame_of_asciiDec (.inl h)
    exact .inr ⟨hflen, .inr (.inr ⟨.inr rfl, hpend, hmax, hbs⟩)⟩
  | byte c rest b h hrx hroom hidx =>
    obtain ⟨hflen, hpend, hmax, bs, hbs, hacc⟩ := hseq.frame_of_asciiDec (.inr h)
    have hsucc := toNat_succ_of_lt (idx := s.idx) (by omega)
    exact .inr ⟨hflen, .inr (.inr ⟨.inl rfl, hpend, by show (s.idx + 1#9).toNat ≤ Config.maxCore + 1; omega, bs ++ [b],
      slice_write_idx b (by omega) hbs, by rw [byteSum_snoc, ← hacc]⟩)⟩

/-- A command whose only step is INIT has no step but to end. -/
theorem SeqOk.of_initResult {i : Instr} {u : State} (hu : initResult s i = some u) (h : exec i s = .next t)
    (hseq : SeqOk i s) (hrun : t.phase ≠ .idle) : SeqOk i t := by
  obtain rfl | ⟨-, rfl⟩ := exec_next_of_initResult hu h
  · exact hseq
  · exact absurd rfl hrun

/-- A step that does not end the command leaves its sequencer as its rule says. -/
theorem exec_seqOk {i : Instr} (h : exec i s = .next t) (hseq : SeqOk i s) (hrun : t.phase ≠ .idle) : SeqOk i t := by
  cases i with
  | nop | crcInit | crcByte | lrcInit | lrcByte => exact .of_initResult rfl h hseq hrun
  | crcRange => exact (exec_crcRange_next h).seqOk hseq hrun
  | lrcRange => exact (exec_lrcRange_next h).seqOk hseq hrun
  | tcpEnc => exact (exec_tcpEnc_next h).seqOk hseq hrun
  | tcpDec => exact (exec_tcpDec_next h).seqOk hseq hrun
  | rtuEnc => exact (exec_rtuEnc_next h).seqOk hseq hrun
  | rtuDec => exact (exec_rtuDec_next h).seqOk hseq hrun
  | asciiEnc => exact (exec_asciiEnc_next h).seqOk hseq hrun
  | asciiDec => exact (exec_asciiDec_next h).seqOk hseq hrun

end Commands

end Sys2Proof.Machine
end

