-- ==== Sys2Proof/Proofs/Invariant.lean ====
section
/-! The invariant of the machine holds at reset and is kept by every step of every agent. -/

namespace Sys2Proof.Machine

section Rebuild
variable {s t : State}

/-- With the block idle the invariant says nothing of a command. -/
theorem MachineInv.of_idle (hwf : Memory.wf t.fbuf) (hbusy : t.busy = false) (hphase : t.phase = .idle)
    (hflags : ¬ (t.done = true ∧ t.err = true)) (hcode : t.errCode = .none ↔ t.err = false) (hdepth : 1 ≤ t.txDepth)
    (hfifo : t.txFifo.length ≤ t.txDepth) : MachineInv t where
  fbufWf := hwf
  idleIffNotBusy := ⟨fun _ => hbusy, fun _ => hphase⟩
  notDoneAndErr := hflags
  busyQuiet h := absurd (hbusy.symm.trans h) (by decide)
  codeIffErr := hcode
  depthPos := hdepth
  fifoFits := hfifo
  running h := absurd (hbusy.symm.trans h) (by decide)

/-- The invariant does not speak of the enables, OVR, the streams' contents, the host's program or the schedule. -/
theorem MachineInv.of_frame (hinv : MachineInv s)
    (h : t = { s with
      irqEn := t.irqEn, echoEn := t.echoEn, ovr := t.ovr, rx := t.rx, txFifo := t.txFifo, txWire := t.txWire,
      prog := t.prog, sched := t.sched, readData := t.readData })
    (hfifo : t.txFifo.length ≤ s.txDepth) : MachineInv t := by
  rw [h]
  exact ⟨hinv.fbufWf, hinv.idleIffNotBusy, hinv.notDoneAndErr, hinv.busyQuiet, hinv.codeIffErr, hinv.depthPos, hfifo,
    hinv.running⟩

end Rebuild

/-! ## The agents -/

section Agents
variable {s t : State}

/-- A push needs room. -/
theorem BlockStep.fifo_le (h : BlockStep s t) (hfits : s.txFifo.length ≤ s.txDepth) : t.txFifo.length ≤ s.txDepth := by
  obtain hfifo | ⟨hroom, b, hfifo⟩ := h.fifo <;> rw [hfifo]
  · exact hfits
  · rw [List.length_append, List.length_singleton]
    exact hroom

/-- A block step of the running command. -/
theorem MachineInv.of_exec {i : Instr} (hinv : MachineInv s) (hfetch : fetch s = .run i) (h : exec i s = .next t) :
    MachineInv t := by
  obtain ⟨hbusy, hdecode⟩ := fetch_eq_run_iff.mp hfetch
  obtain ⟨hdone, herr, hcode⟩ := hinv.quiet_of_fetch hfetch
  have hstep := exec_blockStep h
  obtain ⟨-, hcmd, hlatch, -, hdepth, -⟩ := hstep.outside
  have hwf := hstep.fbuf hinv.fbufWf
  have hpos : 1 ≤ t.txDepth := hdepth.symm ▸ hinv.depthPos
  have hfifo : t.txFifo.length ≤ t.txDepth := hdepth.symm ▸ hstep.fifo_le hinv.fifoFits
  cases hstep.flags with
  | goesOn tbusy tdone terr tcode tphase =>
    have hidle : t.phase = .idle ↔ t.busy = false := by rw [tphase, hinv.idleIffNotBusy, tbusy]
    have hrun : t.phase ≠ .idle := fun hphase =>
      absurd ((hidle.mp hphase).symm.trans (tbusy.trans hbusy)) (by decide)
    exact {
      fbufWf := hwf
      idleIffNotBusy := hidle
      notDoneAndErr := fun ⟨hd, _⟩ => absurd (hdone.symm.trans (tdone.symm.trans hd)) (by decide)
      busyQuiet := fun _ => ⟨tdone.trans hdone, terr.trans herr⟩
      codeIffErr := ⟨fun _ => terr.trans herr, fun _ => tcode.trans hcode⟩
      depthPos := hpos
      fifoFits := hfifo
      running := fun _ => ⟨by rw [hlatch, hcmd, (hinv.running hbusy).1], i, by rw [hlatch, hdecode],
        exec_seqOk h (hinv.seqOk_of_fetch hfetch) hrun⟩ }
  | completes tbusy tdone terr tcode tphase =>
    have hterr := terr.trans herr
    exact .of_idle hwf tbusy tphase (fun ⟨_, he⟩ => absurd (hterr.symm.trans he) (by decide))
      ⟨fun _ => hterr, fun _ => tcode.trans hcode⟩ hpos hfifo
  | fails tbusy tdone terr tcode tphase =>
    exact .of_idle hwf tbusy tphase (fun ⟨hd, _⟩ => absurd (hdone.symm.trans (tdone.symm.trans hd)) (by decide))
      ⟨fun hnone => absurd hnone tcode, fun he => absurd (terr.symm.trans he) (by decide)⟩ hpos hfifo

/-- An issue while idle. -/
theorem MachineInv.of_issue (hinv : MachineInv s) (hidle : s.busy = false) (w : Word) : MachineInv (issue w s) := by
  cases hdecode : decode w with
  | error e =>
    rw [issue_of_decode_error hdecode]
    exact .of_idle hinv.fbufWf hidle (hinv.idleIffNotBusy.mpr hidle) (fun ⟨hd, _⟩ => Bool.false_ne_true hd)
      ⟨nofun, nofun⟩ hinv.depthPos hinv.fifoFits
  | ok i =>
    have hlatch := latchedWord_issue hdecode s
    rw [issue_of_decode_ok hdecode] at hlatch ⊢
    exact {
      fbufWf := hinv.fbufWf
      idleIffNotBusy := ⟨nofun, nofun⟩
      notDoneAndErr := fun ⟨hd, _⟩ => Bool.false_ne_true hd
      busyQuiet := fun _ => ⟨rfl, rfl⟩
      codeIffErr := ⟨fun _ => rfl, fun _ => rfl⟩
      depthPos := hinv.depthPos
      fifoFits := hinv.fifoFits
      running := fun _ => ⟨hlatch, i, hlatch.symm ▸ hdecode, .inl rfl⟩ }

/-- A STATUS write clears ERRCODE together with ERR. -/
theorem MachineInv.of_writeStatus (hinv : MachineInv s) (v : Word) : MachineInv (writeStatus v s) where
  fbufWf := hinv.fbufWf
  idleIffNotBusy := hinv.idleIffNotBusy
  notDoneAndErr := fun ⟨hd, he⟩ => hinv.notDoneAndErr ⟨(Bool.and_eq_true_iff.mp hd).1, (Bool.and_eq_true_iff.mp he).1⟩
  busyQuiet hbusy := by
    obtain ⟨hdone, herr⟩ := hinv.busyQuiet hbusy
    simp [writeStatus, hdone, herr]
  codeIffErr := by
    cases hv : v.getLsbD 2 with
    | true => simp [writeStatus, hv]
    | false => simpa only [writeStatus, hv, Bool.false_eq_true, if_false, Bool.not_false, Bool.and_true] using hinv.codeIffErr
  depthPos := hinv.depthPos
  fifoFits := hinv.fifoFits
  running := hinv.running

/-- A hardware reset, or a soft one. -/
theorem MachineInv.of_hardReset (hinv : MachineInv s) : MachineInv (hardReset s) :=
  .of_idle Memory.wf_nil rfl rfl (by simp) (by simp) hinv.depthPos (Nat.zero_le _)

theorem MachineInv.of_softReset (hinv : MachineInv s) : MachineInv (softReset s) := by
  rw [softReset_eq]
  exact .of_idle hinv.fbufWf rfl rfl (by simp) (by simp) hinv.depthPos (Nat.zero_le _)

theorem MachineInv.of_hostWrite {bits addr : Nat} {v : Word} (hinv : MachineInv s)
    (h : HostWriteStep s bits addr v t) : MachineInv t := by
  cases h with
  | ignored => exact hinv
  | dropped | control => exact hinv.of_frame rfl hinv.fifoFits
  | softReset => exact hinv.of_softReset
  | abort irqEn echoEn hbusy =>
    have hdone := (hinv.busyQuiet hbusy).1
    exact .of_idle hinv.fbufWf rfl rfl (fun ⟨hd, _⟩ => absurd (hdone.symm.trans hd) (by decide))
      ⟨nofun, nofun⟩ hinv.depthPos hinv.fifoFits
  | issue hbits haddr hidle => exact hinv.of_issue hidle v
  | status => exact hinv.of_writeStatus v
  | registers crc lrcAcc flen mbapTid garbageCnt skipCnt echoPend hidle =>
    exact .of_idle hinv.fbufWf hidle (hinv.idleIffNotBusy.mpr hidle) hinv.notDoneAndErr hinv.codeIffErr hinv.depthPos
      hinv.fifoFits
  | fbuf i b hidle hi =>
    exact .of_idle (Memory.write_wf b hinv.fbufWf hi) hidle (hinv.idleIffNotBusy.mpr hidle) hinv.notDoneAndErr
      hinv.codeIffErr hinv.depthPos hinv.fifoFits

theorem MachineInv.turnTaken (hinv : MachineInv s) : MachineInv s.turnTaken := hinv.of_frame rfl hinv.fifoFits

end Agents

/-- Settles O57: each kind of step (`MachineStep`) keeps the invariant. -/
theorem everyStepKeepsTheInvariant : Obligations.EveryStepKeepsTheInvariant := by
  intro s t hinv h
  cases step_next h with
  | pass => exact hinv.turnTaken
  | block i t hfetch h => exact hinv.turnTaken.of_exec hfetch h
  | look ops w => exact hinv.of_frame rfl hinv.fifoFits
  | write bits addr v ops rest t hsched hprog h =>
    have hinv' : MachineInv { s.turnTaken with prog := ops } := hinv.of_frame rfl hinv.fifoFits
    exact hinv'.of_hostWrite h
  | receive b rest hsched => exact hinv.of_frame rfl hinv.fifoFits
  | take b bs hfifo =>
    have hfits := hinv.fifoFits
    rw [hfifo, List.length_cons] at hfits
    exact hinv.of_frame rfl (Nat.le_of_succ_le hfits)
  | hardReset rest hsched => exact hinv.turnTaken.of_hardReset

/-- Settles O56: after reset the block is idle with nothing in its buffers. -/
theorem invariantHoldsAtReset : Obligations.InvariantHoldsAtReset :=
  ⟨.of_idle Memory.wf_nil rfl rfl (by decide) (by decide) (by decide) (by decide),
   fun _ _ _ _ hdepth => .of_idle Memory.wf_nil rfl rfl (by decide : ¬ (false = true ∧ false = true))
    (by decide : ErrCode.none = .none ↔ false = false) hdepth (Nat.zero_le _)⟩

end Sys2Proof.Machine
end

