-- ==== Sys2Proof/Proofs/Faults.lean ====
section
/-! How a step of the machine can stop: never with a refusal, and from a state that meets the invariant only with the two
faults of spec/60_exceptions.md R258. And an undisturbed run of the machine is a run of its command. -/

namespace Sys2Proof.Machine

/-! ## Faults of a command -/

/-- `f` is the read of an FBUF byte that nothing has written (spec/60_exceptions.md R258). -/
def UnwrittenByte (s : State) (f : Fault) : Prop :=
  ∃ k, f = .fbufUnwritten k ∧ k < 256 ∧ Memory.read s.fbuf k = none

section Commands
variable {s : State} {f : Fault}

/-- A step that reads an FBUF byte and then goes on to a next state. -/
theorem UnwrittenByte.of_withByte {act : Byte → Out} {k : Nat} (h : withByte k s act = .fault f) (hk : k < 256)
    (hact : ∀ b, act b ≠ .fault f) : UnwrittenByte s f := by
  obtain ⟨hf, hread⟩ := withByte_fault hact hk h
  exact ⟨k, hf, hk, hread⟩

theorem exec_initResult_fault {i : Instr} {u : State} (hu : initResult s i = some u) (hseq : SeqOk i s) :
    exec i s ≠ .fault f := by
  cases i
  case nop | crcInit | crcByte | lrcInit | lrcByte =>
    rcases hseq with hphase | hnone
    · simp only [exec, execNop, execCrcInit, execCrcByte, execLrcInit, execLrcByte, hphase]
      nofun
    · exact hnone.elim
  all_goals contradiction

theorem exec_crcRange_fault {a n : Nat} (hseq : SeqOk (.crcRange a n) s) (h : exec (.crcRange a n) s = .fault f) :
    UnwrittenByte s f := by
  rcases hseq with hphase | ⟨hphase, hmax, -, hsum, -⟩ <;> simp only [exec, execCrcRange, hphase] at h
  · split at h <;> contradiction
  · have hmax' : a + n ≤ 256 := hmax
    split at h
    · contradiction
    · exact .of_withByte h (by bv_omega) nofun

theorem exec_lrcRange_fault {a n u : Nat} (hseq : SeqOk (.lrcRange a n u) s) (h : exec (.lrcRange a n u) s = .fault f) :
    UnwrittenByte s f := by
  rcases hseq with hphase | ⟨hphase, hmax, htail, -, hsum, -⟩ <;> simp only [exec, execLrcRange, hphase] at h
  · split at h <;> contradiction
  · have hmax' : a + n ≤ 256 := hmax
    split at h
    · contradiction
    · exact .of_withByte h (by bv_omega) nofun

theorem exec_tcpEnc_fault (hseq : SeqOk .tcpEnc s) (h : exec .tcpEnc s = .fault f) : UnwrittenByte s f := by
  rcases hseq with hphase | ⟨hlen, -, ⟨hphase, hh⟩ | ⟨hphase, hidx⟩⟩ <;> simp only [exec, execTcpEnc, hphase] at h
  · split at h <;> contradiction
  · have h := withTx_fault h
    split at h
    · rename_i hnone
      rw [mbapHeaderByte_eq, List.getElem?_eq_none_iff] at hnone
      exact absurd hh (Nat.not_lt.mpr hnone)
    · contradiction
  · have hmax := (coreLenOk_iff _).mp hlen
    exact .of_withByte (withTx_fault h) (by omega) nofun

theorem exec_tcpDec_fault (hseq : SeqOk .tcpDec s) : exec .tcpDec s ≠ .fault f := by
  intro h
  rcases hseq with hphase | ⟨-, ⟨hphase, hh⟩ | ⟨hphase, hlen, hidx, -⟩⟩ <;> simp only [exec, execTcpDec, hphase] at h
  · contradiction
  · obtain ⟨b, rest, -, h⟩ := withRx_fault h
    rw [setMbapHeaderByte_of_lt hh] at h
    contradiction
  · have hmax := (coreLenOk_iff _).mp hlen
    obtain ⟨b, rest, -, h⟩ := withRx_fault h
    have h := storeByte_fault (by show s.idx.toNat < 256; omega) h
    contradiction

theorem exec_rtuEnc_fault (hseq : SeqOk .rtuEnc s) (h : exec .rtuEnc s = .fault f) : UnwrittenByte s f := by
  rcases hseq with hphase | ⟨hlen, ⟨hphase, hidx⟩ | ⟨hphase | hphase, -⟩, -⟩ <;>
    simp only [exec, execRtuEnc, hphase] at h
  · split at h <;> contradiction
  · have hmax := (coreLenOk_iff _).mp hlen
    exact .of_withByte (withTx_fault h) (by omega) nofun
  · exact absurd (withTx_fault h) nofun
  · exact absurd (withTx_fault h) nofun

theorem exec_rtuDec_fault {dir : Dir} (hseq : SeqOk (.rtuDec dir) s) : exec (.rtuDec dir) s ≠ .fault f := by
  intro h
  rcases hseq with hphase | ⟨-, ⟨hphase, -⟩ | ⟨hphase, -⟩ | ⟨hphase, -⟩ | ⟨hphase | hphase | hphase, -, hlen, u, fc, payload,
    hbs, -, -, hg, -⟩⟩ <;> simp only [exec, execRtuDec, hphase] at h
  · contradiction
  · obtain ⟨b, rest, -, h⟩ := withRx_fault h
    contradiction
  · obtain ⟨b, rest, -, h⟩ := withRx_fault h
    have h := storeByte_fault (by decide) h
    contradiction
  · obtain ⟨b, rest, -, h⟩ := withRx_fault h
    have h := storeByte_fault (by decide) h
    contradiction
  · have hmax := (coreLenOk_iff _).mp hlen
    obtain ⟨b, rest, -, h⟩ := withRx_fault h
    split at h
    · contradiction
    · have h := storeByte_fault (by show s.idx.toNat < 256; omega) h
      have hslice := Memory.slice_drop (slice_write_idx b (by omega) hbs) (k := 2)
        (by rw [toNat_succ_of_lt (by omega)]; omega)
      simp only [hg] at h
      have h := withBytes_fault hslice h
      contradiction
  · obtain ⟨b, rest, -, h⟩ := withRx_fault h
    contradiction
  · obtain ⟨b, rest, -, h⟩ := withRx_fault h
    contradiction

theorem exec_asciiEnc_fault (hseq : SeqOk .asciiEnc s) (h : exec .asciiEnc s = .fault f) : UnwrittenByte s f := by
  rcases hseq with hphase | ⟨hlen, ⟨hphase, -⟩ | ⟨hphase | hphase, hidx⟩ | ⟨hphase | hphase | hphase | hphase, -⟩, -⟩ <;>
    simp only [exec, execAsciiEnc, hphase] at h
  case inr.inr.inl.inl | inr.inr.inl.inr =>
    have hmax := (coreLenOk_iff _).mp hlen
    exact .of_withByte (withTx_fault h) (by omega) nofun
  case inl => split at h <;> contradiction
  all_goals exact absurd (withTx_fault h) nofun

theorem exec_asciiDec_fault (hseq : SeqOk .asciiDec s) : exec .asciiDec s ≠ .fault f := by
  intro h
  rcases hseq with hphase | ⟨-, ⟨hphase, -⟩ | ⟨hphase, -⟩ | ⟨hphase | hphase, -, hmax, bs, hbs, -⟩⟩ <;>
    simp only [exec, execAsciiDec, hphase] at h
  · contradiction
  · obtain ⟨b, rest, -, h⟩ := withRx_fault h
    contradiction
  · obtain ⟨b, rest, -, h⟩ := withRx_fault h
    split_ifs at h
  · have hmax' : s.idx.toNat ≤ 255 := hmax
    obtain ⟨b, rest, -, h⟩ := withRx_fault h
    split_ifs at h with hcolon hend haccept
    · have hidx : 3 ≤ s.idx.toNat := haccept.1
      have hread := Memory.read_of_slice hbs (k := s.idx.toNat - 1) (by omega)
      rw [Nat.zero_add, List.getElem?_eq_getElem (by rw [Memory.slice_length hbs]; omega)] at hread
      refine absurd ((withByte_fault ?_ ?_ h).2.symm.trans hread) nofun
      · nofun
      · show s.idx.toNat - 1 < 256
        omega
    · split at h <;> contradiction
  · have hmax' : s.idx.toNat ≤ 255 := hmax
    obtain ⟨b, rest, -, h⟩ := withRx_fault h
    split at h
    · contradiction
    · split at h
      · contradiction
      · split at h
        · contradiction
        · have h := storeByte_fault (by show s.idx.toNat < 256; omega) h
          contradiction

/-- From a state that meets the invariant a command faults only on an unwritten byte, and only a range command or an
encoder does. -/
theorem exec_fault {i : Instr} (hseq : SeqOk i s) (h : exec i s = .fault f) : UnwrittenByte s f ∧
    ((∃ a n, i = .crcRange a n) ∨ (∃ a n u, i = .lrcRange a n u) ∨ i = .tcpEnc ∨ i = .rtuEnc ∨ i = .asciiEnc) := by
  cases i with
  | nop | crcInit | crcByte | lrcInit | lrcByte => exact absurd h (exec_initResult_fault rfl hseq)
  | crcRange a n => exact ⟨exec_crcRange_fault hseq h, .inl ⟨a, n, rfl⟩⟩
  | lrcRange a n u => exact ⟨exec_lrcRange_fault hseq h, .inr (.inl ⟨a, n, u, rfl⟩)⟩
  | tcpEnc => exact ⟨exec_tcpEnc_fault hseq h, .inr (.inr (.inl rfl))⟩
  | tcpDec => exact absurd h (exec_tcpDec_fault hseq)
  | rtuEnc => exact ⟨exec_rtuEnc_fault hseq h, .inr (.inr (.inr (.inl rfl)))⟩
  | rtuDec dir => exact absurd h (exec_rtuDec_fault hseq)
  | asciiEnc => exact ⟨exec_asciiEnc_fault hseq h, .inr (.inr (.inr (.inr rfl)))⟩
  | asciiDec => exact absurd h (exec_asciiDec_fault hseq)

end Commands

/-! ## Refusals -/

section Refusals
variable {s : State} {i n : Nat} {b : Byte} {r : Refusal}

theorem next_ne_refused {t : State} : (Host.Outcome.next t : Out) ≠ .refused r := nofun

theorem fault_ne_refused {f : Fault} : (Host.Outcome.fault f : Out) ≠ .refused r := nofun

theorem withRx_ne_refused {act : Byte → State → Out} (h : ∀ b u, act b u ≠ .refused r) : withRx s act ≠ .refused r := by
  rcases withRx_cases s act with ⟨-, hw⟩ | ⟨b, rest, -, hw⟩ <;> rw [hw]
  · nofun
  · exact h b _

theorem withTx_ne_refused {act : State → Out} (h : act s ≠ .refused r) : withTx s act ≠ .refused r := by
  rcases withTx_cases s act with ⟨-, hw⟩ | ⟨-, hw⟩ <;> rw [hw]
  · nofun
  · exact h

theorem withByte_ne_refused {act : Byte → Out} (h : ∀ b, act b ≠ .refused r) : withByte i s act ≠ .refused r := by
  rcases withByte_cases i s act with ⟨b, -, -, hw⟩ | ⟨-, -, hw⟩ | ⟨-, hw⟩ <;> rw [hw]
  · exact h b
  · nofun
  · nofun

theorem storeByte_ne_refused {act : State → Out} (h : ∀ u, act u ≠ .refused r) : storeByte i b s act ≠ .refused r := by
  rcases storeByte_cases i b s act with ⟨-, hw⟩ | ⟨-, hw⟩ <;> rw [hw]
  · exact h _
  · nofun

theorem withBytes_ne_refused {act : List Byte → Out} (h : ∀ bs, act bs ≠ .refused r) : withBytes i n s act ≠ .refused r := by
  rcases withBytes_cases i n s act with ⟨bs, -, hw⟩ | ⟨j, -, hw⟩ <;> rw [hw]
  · exact h bs
  · nofun

theorem execTcpEnc_ne_refused : execTcpEnc s ≠ .refused r := by
  unfold execTcpEnc
  split
  case h_2 => split <;> exact next_ne_refused
  case h_3 => exact withTx_ne_refused (by split; exacts [fault_ne_refused, next_ne_refused])
  case h_4 => exact withTx_ne_refused (withByte_ne_refused fun _ => next_ne_refused)
  case h_1 => exact next_ne_refused
  case h_5 => exact fault_ne_refused

theorem execTcpDec_ne_refused : execTcpDec s ≠ .refused r := by
  unfold execTcpDec
  split
  case h_3 => exact withRx_ne_refused fun b u => by split; exacts [fault_ne_refused, next_ne_refused]
  case h_4 => exact withRx_ne_refused fun b u => storeByte_ne_refused fun _ => next_ne_refused
  case h_1 | h_2 => exact next_ne_refused
  case h_5 => exact fault_ne_refused

theorem execRtuEnc_ne_refused : execRtuEnc s ≠ .refused r := by
  unfold execRtuEnc
  split
  case h_2 => split <;> exact next_ne_refused
  case h_3 => exact withTx_ne_refused (withByte_ne_refused fun _ => next_ne_refused)
  case h_4 | h_5 => exact withTx_ne_refused next_ne_refused
  case h_1 => exact next_ne_refused
  case h_6 => exact fault_ne_refused

theorem execRtuDec_ne_refused {dir : Dir} : execRtuDec dir s ≠ .refused r := by
  unfold execRtuDec
  split
  case h_3 | h_7 | h_8 => exact withRx_ne_refused fun _ _ => next_ne_refused
  case h_4 | h_5 => exact withRx_ne_refused fun b u => storeByte_ne_refused fun _ => next_ne_refused
  case h_6 =>
    refine withRx_ne_refused fun b u => ?_
    split
    · exact next_ne_refused
    · refine storeByte_ne_refused fun v => ?_
      dsimp only
      split
      · exact fault_ne_refused
      · exact withBytes_ne_refused fun _ => next_ne_refused
  case h_1 | h_2 => exact next_ne_refused
  case h_9 => exact fault_ne_refused

theorem execAsciiEnc_ne_refused : execAsciiEnc s ≠ .refused r := by
  unfold execAsciiEnc
  split
  case h_2 => split <;> exact next_ne_refused
  case h_3 | h_6 | h_7 | h_8 | h_9 => exact withTx_ne_refused next_ne_refused
  case h_4 | h_5 => exact withTx_ne_refused (withByte_ne_refused fun _ => next_ne_refused)
  case h_1 => exact next_ne_refused
  case h_10 => exact fault_ne_refused

theorem execAsciiDec_ne_refused : execAsciiDec s ≠ .refused r := by
  unfold execAsciiDec
  split
  case h_3 => exact withRx_ne_refused fun _ _ => next_ne_refused
  case h_4 => exact withRx_ne_refused fun c u => by split_ifs <;> exact next_ne_refused
  case h_5 =>
    refine withRx_ne_refused fun c u => ?_
    split_ifs
    · exact next_ne_refused
    · exact withByte_ne_refused fun _ => next_ne_refused
    · exact next_ne_refused
    · split <;> exact next_ne_refused
  case h_6 =>
    refine withRx_ne_refused fun c u => ?_
    split
    · exact next_ne_refused
    · split
      · exact next_ne_refused
      · split
        · exact next_ne_refused
        · exact storeByte_ne_refused fun _ => next_ne_refused
  case h_1 | h_2 => exact next_ne_refused
  case h_7 => exact fault_ne_refused

/-- No command is refused. -/
theorem exec_ne_refused (i : Instr) : exec i s ≠ .refused r := by
  cases i with
  | nop | crcInit | crcByte | lrcInit | lrcByte =>
    simp only [exec, execNop, execCrcInit, execCrcByte, execLrcInit, execLrcByte]
    split
    case h_1 | h_2 => exact next_ne_refused
    case h_3 => exact fault_ne_refused
  | crcRange a n =>
    simp only [exec, execCrcRange]
    split
    case h_2 => split <;> exact next_ne_refused
    case h_3 =>
      split
      · exact next_ne_refused
      · exact withByte_ne_refused fun _ => next_ne_refused
    case h_1 => exact next_ne_refused
    case h_4 => exact fault_ne_refused
  | lrcRange a n u =>
    simp only [exec, execLrcRange]
    split
    case h_2 => split <;> exact next_ne_refused
    case h_3 =>
      split
      · exact next_ne_refused
      · exact withByte_ne_refused fun _ => next_ne_refused
    case h_1 => exact next_ne_refused
    case h_4 => exact fault_ne_refused
  | tcpEnc => exact execTcpEnc_ne_refused
  | tcpDec => exact execTcpDec_ne_refused
  | rtuEnc => exact execRtuEnc_ne_refused
  | rtuDec dir => exact execRtuDec_ne_refused
  | asciiEnc => exact execAsciiEnc_ne_refused
  | asciiDec => exact execAsciiDec_ne_refused

end Refusals

/-! ## The machine -/

section Machine
variable {s : State}

/-- A HOST turn answers a next state, or is a bad access (spec/20_memory.md R62). -/
theorem hostTurn_answer (s : State) : (∃ t, hostTurn s = .next t) ∨
    ∃ bits addr ops, (s.prog = .read bits addr :: ops ∨ ∃ v, s.prog = .write bits addr v :: ops) ∧
      hostTurn s = .fault (.hostBadAccess bits addr) := by
  rcases hostTurn_cases s with ⟨-, hturn⟩ | ⟨bits, addr, ops, hprog, hturn⟩ | ⟨bits, addr, v, ops, hprog, hturn⟩ |
    ⟨ops, -, hturn⟩ <;> rw [hturn]
  · exact .inl ⟨_, rfl⟩
  · rcases hostRead_eq bits addr { s with prog := ops } with ⟨w, hread⟩ | hread <;> rw [hread]
    · exact .inl ⟨_, rfl⟩
    · exact .inr ⟨bits, addr, ops, .inl hprog, rfl⟩
  · unfold hostWrite
    split
    · exact .inr ⟨bits, addr, ops, .inr ⟨v, hprog⟩, rfl⟩
    all_goals exact .inl ⟨_, rfl⟩
  · exact .inl ⟨_, rfl⟩

/-- A step that is no block turn answers a next state, or is a bad access. -/
theorem step_answer (s : State) : (∃ t, step s = .next t) ∨
    (∃ bits addr rest ops, s.sched = .host :: rest ∧
      (s.prog = .read bits addr :: ops ∨ ∃ v, s.prog = .write bits addr v :: ops) ∧
      step s = .fault (.hostBadAccess bits addr)) ∨
    step s = blockTurn s.turnTaken := by
  rcases hsched : s.sched with _ | ⟨turn, rest⟩
  · exact .inr (.inr (by rw [step_of_sched_nil hsched, State.turnTaken_of_nil hsched]))
  · rw [step_of_sched_cons hsched, ← State.turnTaken_of_cons hsched]
    cases turn with
    | block => exact .inr (.inr rfl)
    | host =>
      obtain hnext | ⟨bits, addr, ops, hprog, hfault⟩ := hostTurn_answer s.turnTaken
      · exact .inl hnext
      · exact .inr (.inl ⟨bits, addr, rest, ops, rfl, hprog, hfault⟩)
    | envRx | envTake | hardReset => exact .inl ⟨_, rfl⟩

end Machine

/-- Settles O55: no agent's step is refused, and neither a block step nor a host write touches the parameters. -/
theorem parametersAreFixedAndNothingIsRefused : Obligations.ParametersAreFixedAndNothingIsRefused := by
  refine fun s => ⟨fun r => ?_, fun t h => ?_⟩
  · rcases step_answer s with ⟨t, hstep⟩ | ⟨bits, addr, rest, ops, -, -, hstep⟩ | hstep <;> rw [hstep]
    · nofun
    · nofun
    · unfold blockTurn
      split
      · nofun
      · exact exec_ne_refused _
      · nofun
  · cases step_next h with
    | pass | look | receive | take | hardReset => exact ⟨rfl, rfl⟩
    | block i t hfetch h =>
      obtain ⟨-, -, -, -, hdepth, htable, -⟩ := (exec_blockStep h).outside
      exact ⟨hdepth, htable⟩
    | write bits addr v ops rest t hsched hprog h =>
      obtain ⟨-, -, hdepth, htable⟩ := h.outside
      exact ⟨hdepth, htable⟩

/-- Settles O58: a HOST turn faults on a bad access, a block turn as `exec_fault` says. -/
theorem onlyTheSpecifiedFaults : Obligations.OnlyTheSpecifiedFaults := by
  intro s f hinv h
  rcases step_answer s with ⟨t, hstep⟩ | ⟨bits, addr, rest, ops, hsched, hprog, hstep⟩ | hstep <;> rw [hstep] at h
  · contradiction
  · cases h
    exact .inl ⟨bits, addr, rfl, rest, ops, hsched, hprog⟩
  · cases hbusy : s.busy with
    | false =>
      rw [blockTurn_of_idle (s := s.turnTaken) hbusy] at h
      contradiction
    | true =>
      obtain ⟨-, i, hdecode, hseq⟩ := hinv.running hbusy
      have hfetch : fetch s = .run i := fetch_eq_run_iff.mpr ⟨hbusy, hdecode⟩
      rw [blockTurn_of_run (s := s.turnTaken) hfetch] at h
      obtain ⟨⟨k, hf, hk, hread⟩, hi⟩ := exec_fault (s := s.turnTaken) hseq h
      exact .inr ⟨k, i, hf, hk, hread, hfetch, hi⟩

/-! ## Undisturbed runs -/

theorem run_succ (k : Nat) {s t : State} (h : step s = .next t) :
    Sys2Proof.core.run (k + 1) s = Sys2Proof.core.run k t := by
  simp only [Host.Core.run, show Sys2Proof.core.step s = .next t from h]

/-- With the command ended and the schedule used up neither the machine nor the command does anything. -/
theorem run_of_ended (i : Instr) (k : Nat) {s : State} (hsched : s.sched = []) (hbusy : s.busy = false)
    (hphase : s.phase = .idle) : Sys2Proof.core.run k s = .next s ∧ execN i k s = .next s := by
  induction k with
  | zero => exact ⟨rfl, rfl⟩
  | succ k ih =>
    rw [run_succ k ((step_of_sched_nil hsched).trans (blockTurn_of_idle hbusy)), execN_succ (exec_idle i hphase)]
    exact ih

/-- Settles O59: by induction on the steps; the latches stay, so the command is fetched again until it ends. -/
theorem machineRunIsCommandRun : Obligations.MachineRunIsCommandRun := by
  intro k
  induction k with
  | zero => exact fun _ _ _ _ => rfl
  | succ k ih =>
    intro s i hsched hfetch
    have hstep : step s = exec i s := (step_of_sched_nil hsched).trans (blockTurn_of_run hfetch)
    cases h : exec i s with
    | fault f =>
      simp only [execN, Host.Core.run, h, show Sys2Proof.core.step s = .fault f from hstep.trans h]
      rfl
    | refused r => exact absurd h (exec_ne_refused i)
    | next t =>
      rw [run_succ k (hstep.trans h), execN_succ h]
      have hblock := exec_blockStep h
      obtain ⟨-, -, hlatch, -, -, -, hsched'⟩ := hblock.outside
      obtain ⟨hbusy, hdecode⟩ := fetch_eq_run_iff.mp hfetch
      have hended (tbusy : t.busy = false) (tphase : t.phase = .idle) : Sys2Proof.core.run k t = execN i k t := by
        obtain ⟨hrun, hexec⟩ := run_of_ended i k (hsched'.trans hsched) tbusy tphase
        exact hrun.trans hexec.symm
      cases hblock.flags with
      | goesOn tbusy =>
        exact ih t i (hsched'.trans hsched) (fetch_eq_run_iff.mpr ⟨tbusy.trans hbusy, hlatch.symm ▸ hdecode⟩)
      | completes tbusy _ _ _ tphase => exact hended tbusy tphase
      | fails tbusy _ _ _ tphase => exact hended tbusy tphase

end Sys2Proof.Machine
end

