-- ==== Sys2Proof/Proofs/Schedule.lean ====
section
/-! The encoders under the environment's schedule (spec/20_memory.md R66): takes and received bytes change the streams
only, and so the block turns between them still send the frame. -/

namespace Sys2Proof.Machine

/-! ## The environment's turns on the streams -/

/-- The oldest byte of the TX FIFO, if there is one, goes to the wire. -/
def Streams.take (e : Streams) : Streams :=
  match e.txFifo with
  | [] => e
  | b :: bs => { e with txFifo := bs, txWire := e.txWire ++ [b] }

theorem Streams.take_cases (e : Streams) : (e.txFifo = [] ∧ e.take = e) ∨
    ∃ b bs, e.txFifo = b :: bs ∧ e.take = { e with txFifo := bs, txWire := e.txWire ++ [b] } := by
  unfold Streams.take
  split
  · exact .inl ⟨‹_›, rfl⟩
  · exact .inr ⟨_, _, ‹_›, rfl⟩

theorem envTake_withStreams (u : State) (e : Streams) : envTake (u.withStreams e) = u.withStreams e.take := by
  obtain ⟨hnil, htake⟩ | ⟨b, bs, hcons, htake⟩ := e.take_cases <;> rw [htake]
  · exact envTake_nil hnil
  · exact envTake_cons hcons

theorem Streams.take_sched (e : Streams) : e.take.sched = e.sched := by
  obtain ⟨-, htake⟩ | ⟨b, bs, -, htake⟩ := e.take_cases <;> rw [htake]

theorem Streams.take_with_sched (e : Streams) (l : List Turn) :
    ({ e with sched := l } : Streams).take = { e.take with sched := l } := by
  obtain ⟨_ | ⟨b, bs⟩, _⟩ := e <;> rfl

/-- A take, and then a block turn. -/
theorem run_take_block {u t : State} {e : Streams} {rest : List Turn} (k : Nat)
    (hsched : e.sched = .envTake :: .block :: rest)
    (h : blockTurn (u.withStreams { e.take with sched := rest }) = .next t) :
    Sys2Proof.core.run (k + 1 + 1) (u.withStreams e) = Sys2Proof.core.run k t := by
  have htake : step (u.withStreams e) = .next (u.withStreams { e.take with sched := .block :: rest }) := by
    rw [step_of_sched_cons (s := u.withStreams e) hsched, ← e.take_with_sched, ← envTake_withStreams]
    rfl
  have hblock : step (u.withStreams { e.take with sched := .block :: rest }) = .next t :=
    (step_of_sched_cons (turn := .block) (rest := rest) rfl).trans h
  rw [run_succ (k + 1) htake, run_succ k hblock]

/-- The wire and the FIFO together hold `sent`, and the FIFO is not over its depth. -/
structure Streams.Carries (e : Streams) (sent : List Byte) (depth : Nat) : Prop where
  order : e.txWire ++ e.txFifo = sent
  fits : e.txFifo.length ≤ depth

section Carries
variable {e : Streams} {sent : List Byte} {depth : Nat}

theorem Streams.Carries.take (h : e.Carries sent depth) : e.take.Carries sent depth := by
  obtain ⟨-, htake⟩ | ⟨b, bs, hcons, htake⟩ := e.take_cases <;> rw [htake]
  · exact h
  · have horder := h.order
    have hfits := h.fits
    rw [hcons] at horder hfits
    exact ⟨by rw [List.append_assoc]; exact horder, Nat.le_of_succ_le hfits⟩

/-- After a take there is room. -/
theorem Streams.Carries.room (h : e.Carries sent depth) (hdepth : 1 ≤ depth) : e.take.txFifo.length < depth := by
  obtain ⟨hnil, htake⟩ | ⟨b, bs, hcons, htake⟩ := e.take_cases <;> rw [htake]
  · rw [hnil]
    exact hdepth
  · have hfits := h.fits
    rw [hcons] at hfits
    exact hfits

theorem Streams.Carries.push (h : e.Carries sent depth) (hroom : e.txFifo.length < depth) (b : Byte) :
    (e.push b).Carries (sent ++ [b]) depth :=
  ⟨by rw [← h.order, List.append_assoc]; rfl, by rw [Streams.push, List.length_append]; exact hroom⟩

/-- The next byte of a frame goes behind its front part. -/
theorem Streams.Carries.next {before frame : List Byte} {n : Nat} (h : e.Carries (before ++ frame.take n) depth)
    (hn : n < frame.length) (hroom : e.txFifo.length < depth) :
    (e.push frame[n]).Carries (before ++ frame.take (n + 1)) depth := by
  have hpush := h.push hroom frame[n]
  rwa [List.append_assoc, List.take_append_getElem] at hpush

end Carries

/-! ## A frame on its way -/

/-- `t` is `s`, with other streams, before the INIT step or after `n` bytes of the frame, which are on the wire or in the
FIFO behind what was there before. -/
inductive Sending (s : State) (frame : List Byte) (shape : Nat → State) : Nat → State → Prop
  | waiting (e : Streams) (h : e.Carries (s.txWire ++ s.txFifo) s.txDepth) : Sending s frame shape 0 (s.withStreams e)
  | sent (n : Nat) (e : Streams) (hn : n ≤ frame.length)
      (h : e.Carries (s.txWire ++ s.txFifo ++ frame.take n) s.txDepth) :
      Sending s frame shape n ((shape n).withStreams e)

section Sending
variable {i : Instr} {s t : State} {frame : List Byte} {started : Streams → Streams} {shape : Nat → State} {n : Nat}
  {e : Streams}

theorem Sending.turnTaken (h : Sending s frame shape n t) : Sending s frame shape n t.turnTaken := by
  cases h with
  | waiting e h => exact .waiting { e with sched := e.sched.tail } ⟨h.order, h.fits⟩
  | sent n e hn h => exact .sent n { e with sched := e.sched.tail } hn ⟨h.order, h.fits⟩

theorem Sending.receive (h : Sending s frame shape n t) (b : Byte) : Sending s frame shape n (envRx b t) := by
  cases h with
  | waiting e h => exact .waiting { e with rx := e.rx ++ [b] } ⟨h.order, h.fits⟩
  | sent n e hn h => exact .sent n { e with rx := e.rx ++ [b] } hn ⟨h.order, h.fits⟩

theorem Sending.take (h : Sending s frame shape n t) :
    Sending s frame shape n (envTake t) ∧ (envTake t).sched = t.sched := by
  cases h with
  | waiting e h =>
    rw [envTake_withStreams]
    exact ⟨.waiting e.take h.take, e.take_sched⟩
  | sent n e hn h =>
    rw [envTake_withStreams]
    exact ⟨.sent n e.take hn h.take, e.take_sched⟩

/-! ## The block's turns -/

section Block
variable (hs : SendsFrame i s frame started shape) (hfetch : fetch s = .run i)
include hs hfetch

theorem SendsFrame.fetch_shape (hn : n < frame.length) : fetch ((shape n).withStreams e) = .run i := by
  obtain ⟨hbusy, hdecode⟩ := fetch_eq_run_iff.mp hfetch
  exact fetch_eq_run_iff.mpr ⟨(hs.busy hn).trans hbusy, (hs.kept n).1.symm ▸ hdecode⟩

theorem SendsFrame.blockTurn_waiting : blockTurn (s.withStreams e) = .next ((shape 0).withStreams (started e)) :=
  (blockTurn_of_run (s := s.withStreams e) hfetch).trans (hs.start e)

/-- A block turn with room sends the next byte. -/
theorem SendsFrame.blockTurn_room (hn : n < frame.length) (hroom : e.txFifo.length < s.txDepth) :
    blockTurn ((shape n).withStreams e) = .next ((shape (n + 1)).withStreams (e.push frame[n])) :=
  (blockTurn_of_run (hs.fetch_shape hfetch hn)).trans (hs.send (List.getElem?_eq_getElem hn) hroom)

theorem Sending.of_blockTurn (h : Sending s frame shape n t) :
    ∃ n' t', blockTurn t = .next t' ∧ Sending s frame shape n' t' ∧ t'.sched = t.sched := by
  cases h with
  | waiting e h =>
    obtain ⟨hfifo, hwire, hsched⟩ := hs.started_kept e
    refine ⟨0, _, hs.blockTurn_waiting hfetch, .sent 0 (started e) (Nat.zero_le _) ⟨?_, ?_⟩, hsched⟩
    · rw [hwire, hfifo, List.take_zero, List.append_nil, h.order]
    · rw [hfifo]
      exact h.fits
  | sent n e hn h =>
    rcases Nat.lt_or_eq_of_le hn with hlt | rfl
    · rcases Nat.lt_or_ge e.txFifo.length s.txDepth with hroom | hfull
      · exact ⟨n + 1, _, hs.blockTurn_room hfetch hlt hroom, .sent (n + 1) _ hlt (h.next hlt hroom), rfl⟩
      · exact ⟨n, _, (blockTurn_of_run (hs.fetch_shape hfetch hlt)).trans (hs.hold hlt hfull), .sent n e hn h, rfl⟩
    · exact ⟨_, _, blockTurn_of_idle (s := (shape frame.length).withStreams e) hs.ended.1, .sent _ e hn h, rfl⟩

/-! ## Any schedule -/

/-- A step of a schedule of block turns, takes and received bytes. -/
theorem Sending.step_next (h : Sending s frame shape n t)
    (hturns : ∀ turn ∈ t.sched, turn = .block ∨ turn = .envTake ∨ ∃ b, turn = .envRx b) :
    ∃ n' t', step t = .next t' ∧ Sending s frame shape n' t' ∧ t'.sched = t.sched.tail := by
  rcases hsched : t.sched with _ | ⟨turn, rest⟩
  · rw [step_of_sched_nil hsched]
    obtain ⟨n', t', hturn, hsending, htail⟩ := h.of_blockTurn hs hfetch
    exact ⟨n', t', hturn, hsending, htail.trans hsched⟩
  · have htaken : t.turnTaken.sched = rest := by rw [State.turnTaken, hsched]; rfl
    rw [step_of_sched_cons hsched, ← State.turnTaken_of_cons hsched]
    obtain rfl | rfl | ⟨b, rfl⟩ := hturns turn (hsched ▸ List.mem_cons_self)
    · obtain ⟨n', t', hturn, hsending, htail⟩ := h.turnTaken.of_blockTurn hs hfetch
      exact ⟨n', t', hturn, hsending, htail.trans htaken⟩
    · obtain ⟨hsending, htail⟩ := h.turnTaken.take
      exact ⟨n, _, rfl, hsending, htail.trans htaken⟩
    · exact ⟨n, _, rfl, h.turnTaken.receive b, htaken⟩

theorem Sending.run (k : Nat) (h : Sending s frame shape n t)
    (hturns : ∀ turn ∈ t.sched, turn = .block ∨ turn = .envTake ∨ ∃ b, turn = .envRx b) :
    ∃ n' t', Sys2Proof.core.run k t = .next t' ∧ Sending s frame shape n' t' := by
  induction k generalizing n t with
  | zero => exact ⟨n, t, rfl, h⟩
  | succ k ih =>
    obtain ⟨n', t', hstep, hsending, htail⟩ := h.step_next hs hfetch hturns
    rw [run_succ k hstep]
    exact ih hsending fun turn hturn => hturns turn (List.mem_of_mem_tail (htail ▸ hturn))

/-- What is on its way at every moment. -/
theorem Sending.facts (h : Sending s frame shape n t) : n ≤ frame.length ∧
    t.txWire ++ t.txFifo = s.txWire ++ s.txFifo ++ frame.take n ∧ t.txCount = satAdd s.txCount n ∧
    t.txFifo.length ≤ t.txDepth ∧ t.err = s.err ∧ (t.busy = false → n = frame.length ∧ t.done = true) := by
  have hbusy : s.busy = true := (fetch_eq_run_iff.mp hfetch).1
  cases h with
  | waiting e h =>
    refine ⟨Nat.zero_le _, ?_, (satAdd_zero _).symm, h.fits, rfl, fun hidle => absurd (hbusy.symm.trans hidle) nofun⟩
    rw [List.take_zero, List.append_nil]
    exact h.order
  | sent n e hn h =>
    obtain ⟨-, herr, hdepth, hcount⟩ := hs.kept n
    refine ⟨hn, h.order, hcount, hdepth.symm ▸ h.fits, herr, fun hidle => ?_⟩
    rcases Nat.lt_or_eq_of_le hn with hlt | rfl
    · exact absurd (((hs.busy hlt).trans hbusy).symm.trans hidle) nofun
    · exact ⟨rfl, hs.ended.2⟩

/-! ## A take before each block turn -/

/-- The rest of the frame, a byte for each take. -/
theorem SendsFrame.run_takes (hdepth : 1 ≤ s.txDepth) {m : Nat} (hm : n + m = frame.length)
    (hsched : e.sched = (List.replicate m [Turn.envTake, .block]).flatten)
    (h : e.Carries (s.txWire ++ s.txFifo ++ frame.take n) s.txDepth) :
    ∃ t, Sys2Proof.core.run (2 * m) ((shape n).withStreams e) = .next t ∧ Sending s frame shape frame.length t ∧
      t.busy = false := by
  induction m generalizing n e with
  | zero =>
    obtain rfl : n = frame.length := hm
    exact ⟨_, rfl, .sent _ e (Nat.le_refl _) h, hs.ended.1⟩
  | succ m ih =>
    have hn : n < frame.length := by omega
    have hroom := h.room hdepth
    have hcarries : ({ e.take with sched := (List.replicate m [Turn.envTake, .block]).flatten } : Streams).Carries
        (s.txWire ++ s.txFifo ++ frame.take n) s.txDepth := ⟨h.take.order, h.take.fits⟩
    rw [List.replicate_succ, List.flatten_cons] at hsched
    rw [Nat.mul_succ, run_take_block (2 * m) hsched (hs.blockTurn_room hfetch hn hroom)]
    exact ih (by omega) rfl (hcarries.next hn hroom)

/-- The whole frame from INIT on, a block turn after each take. -/
theorem SendsFrame.run_frame (hdepth : 1 ≤ s.txDepth) (hfits : s.txFifo.length ≤ s.txDepth)
    (hsched : s.sched = (List.replicate (frame.length + 1) [Turn.envTake, .block]).flatten) :
    ∃ t, Sys2Proof.core.run (2 * (frame.length + 1)) s = .next t ∧ Sending s frame shape frame.length t ∧
      t.busy = false := by
  rw [List.replicate_succ, List.flatten_cons] at hsched
  have hcarries : s.streams.Carries (s.txWire ++ s.txFifo) s.txDepth := ⟨rfl, hfits⟩
  obtain ⟨hfifo, hwire, hkeep⟩ :=
    hs.started_kept { s.streams.take with sched := (List.replicate frame.length [Turn.envTake, .block]).flatten }
  have hstart := run_take_block (u := s) (e := s.streams)
    (rest := (List.replicate frame.length [Turn.envTake, .block]).flatten) (2 * frame.length) hsched
    (hs.blockTurn_waiting hfetch)
  rw [State.withStreams_streams] at hstart
  rw [Nat.mul_succ, hstart]
  refine hs.run_takes hfetch hdepth (Nat.zero_add _) hkeep ⟨?_, ?_⟩
  · rw [hwire, hfifo, List.take_zero, List.append_nil]
    exact hcarries.take.order
  · rw [hfifo]
    exact hcarries.take.fits

end Block

end Sending

/-- Settles O60: each encoder sends its frame byte by byte (`SendsFrame`), whatever the environment's turns do to the
streams in between. -/
theorem encodersSendTheFrameUnderAnySchedule : Obligations.EncodersSendTheFrameUnderAnySchedule := by
  intro i s core frame hmem hfetch hphase hflen hlo hhi hcore hdepth hfits
  obtain ⟨started, shape, hs⟩ : ∃ started shape, SendsFrame i s frame started shape := by
    simp only [List.mem_cons, Prod.mk.injEq, List.not_mem_nil, or_false] at hmem
    obtain ⟨rfl, rfl⟩ | ⟨rfl, rfl⟩ | ⟨rfl, rfl⟩ := hmem
    · exact ⟨_, _, tcpEnc_sendsFrame hphase hflen hlo hhi hcore⟩
    · exact ⟨_, _, rtuEnc_sendsFrame hphase hflen hlo hhi hcore⟩
    · exact ⟨_, _, asciiEnc_sendsFrame hphase hflen hlo hhi hcore⟩
  refine ⟨fun hturns k => ?_, fun hsched => ?_⟩
  · have hwaiting : Sending s frame shape 0 s := .waiting s.streams ⟨rfl, hfits⟩
    obtain ⟨n, t, hrun, hsending⟩ := hwaiting.run hs hfetch k hturns
    exact ⟨t, n, hrun, hsending.facts hs hfetch⟩
  · obtain ⟨t, hrun, hsending, hidle⟩ := hs.run_frame hfetch hdepth hfits hsched
    obtain ⟨-, horder, -, -, herr, hended⟩ := hsending.facts hs hfetch
    rw [List.take_length] at horder
    exact ⟨t, hrun, hidle, (hended hidle).2, herr, horder⟩

end Sys2Proof.Machine
end
